-- ==== Sys2Proof/Word.lean ====
section
/-! DEFINITION. The word types of the engine: the 32-bit control-port word and the byte of shared memory
(00_scope.md R13, R15). -/

namespace Sys2Proof

/-- A 32-bit register or command word of the control port (10_state.md R34, 30_encoding.md R110). -/
abbrev Word := BitVec 32

/-- A byte of shared memory (20_memory.md R80). -/
abbrev Byte := BitVec 8

end Sys2Proof
end

