-- ==== Sys2Proof/Config.lean ====
section
/-! DEFINITION. What a platform fixes (the model arguments `MEM_SIZE`, `CSR_BASE` and `MEM_FAULT` of 00_scope.md
R13, R14 and the devices of 20_memory.md R91), and the free values of what the spec leaves unspecified.

A model takes the parameters as arguments; the interface fixes `step : State → …`, so they stand in a constant
field of State that no step changes, and a statement over every state is a statement over every platform
(notes/assumptions/1.md). -/

namespace Sys2Proof

/-- The two kinds of engine access of `MEM_FAULT(addr, kind)` (20_memory.md R92). -/
inductive AccessKind where
  | read
  | write
  deriving DecidableEq, Repr, Inhabited

/-- The open parameters of the block (00_scope.md R13, R14). -/
structure Config where
  /-- `MEM_SIZE`: bytes of shared memory on the memory port, 1 to 2^32 (R13). -/
  memSize : Nat
  /-- `CSR_BASE`: the control port's base address in the host's own address map (R13, R81). -/
  csrBase : Nat
  /-- `MEM_FAULT(addr, kind)`: the accesses the platform's bus rejects, listed (R92). -/
  memFaults : List (Nat × AccessKind)
  /-- Byte addresses of shared memory at which the platform placed a device with read side effects (R91). -/
  devices : List Nat
  deriving DecidableEq, Repr

/-- The platform of the test vectors: 0x10000 bytes, no bus error, no device (95_test_vectors.md, common
assumptions). DESIGN CHOICE, notes/assumptions/1.md: the spec leaves the parameters open. -/
def Config.default : Config :=
  { memSize := 0x10000, csrBase := 0, memFaults := [], devices := [] }

/-- FREE VALUE: what a host read of a CODE_LEN or CODE_BITS window word returns while CODES_VALID = 0 (10_state.md
R54, R55; 93_implementation_defined.md U4: any value). It has no body, so nothing can be proved of it
(notes/assumptions/7.md). -/
opaque Config.freeWindowWord : Nat → Word

/-- FREE VALUE: a DST byte after a reset during a command (70_reset_and_hazards.md R321; 93 U7: any value, each byte
independently; notes/assumptions/11.md). -/
opaque Config.freeDstByte : Nat → Byte

/-- FREE VALUE: how far a tree build in flight has come when the host reads STATUS: the build passes its stages in
order, at times the spec does not give (42_tree.md R200, 30_encoding.md R115; notes/assumptions/9.md). -/
opaque Config.freeBuildProgress : Nat → Nat

end Sys2Proof
end

