-- ==== Sys2Proof/Syntax.lean ====
section
/-! DEFINITION. The commands of the engine: one constructor for each row of the opcode table (30_encoding.md R112). A
command word holds no operand (R111), so no constructor has an argument. -/

namespace Sys2Proof

/-- The fifteen commands (30_encoding.md R112). -/
inductive Instr where
  /-- ENCODE, Codec `Encode(data)` (43_codec.md R244). -/
  | encode
  /-- DECODE, Codec `Decode(stream)` (43_codec.md R245). -/
  | decode
  /-- BITS_PACK, BitPacker `Pack(bits)` (40_bitpacker.md R143). -/
  | bitsPack
  /-- BITS_UNPACK, BitPacker `Unpack(bytes)` (40_bitpacker.md R144). -/
  | bitsUnpack
  /-- FREQ_BUILD, FrequencyTable `Build(data)` (41_frequency.md R169). -/
  | freqBuild
  /-- FREQ_COMPRESS, FrequencyTable `Compress(table)` (41_frequency.md R170). -/
  | freqCompress
  /-- FREQ_DECOMPRESS, FrequencyTable `Decompress(bytes)` (41_frequency.md R171). -/
  | freqDecompress
  /-- HDR_WRITE, FrequencyTable `ToHeaderBytes(table, dataLength)` (41_frequency.md R172). -/
  | hdrWrite
  /-- HDR_PARSE, FrequencyTable `ParseHeader(bytes)` (41_frequency.md R173). -/
  | hdrParse
  /-- TREE_BUILD, HuffmanTree `Build(table)` (42_tree.md R210). -/
  | treeBuild
  /-- CODES_DERIVE, HuffmanTree `DeriveCodes(leaves)` (42_tree.md R211). -/
  | codesDerive
  /-- TREE_DESTROY, HuffmanTree `Destroy(root)` (42_tree.md R212). -/
  | treeDestroy
  /-- DECODE_ONE, HuffmanTree `DecodeOne(bits, cursor, root)` (42_tree.md R213). -/
  | decodeOne
  /-- BODY_ENCODE, Codec `Encode` steps 3 and 4, body only (43_codec.md R242). -/
  | bodyEncode
  /-- BODY_DECODE, Codec `Decode` steps 3 and 4, body only (43_codec.md R243). -/
  | bodyDecode
  deriving DecidableEq, Repr, Inhabited

end Sys2Proof
end

