-- ==== Sys2Proof/Decode.lean ====
section
/-! DEFINITION. The command decoder (30_encoding.md R110 to R119), total on any word and any bytes, rejecting by name, and
the encoder written from the same table. -/

namespace Sys2Proof

/-- Why the decoder rejects. -/
inductive DecodeReject where
  /-- The word is none of the fifteen of R112 (R118). -/
  | notACommand (w : Word)
  /-- Fewer than the four bytes of a command word (R119: every command is exactly one 32-bit word). -/
  | tooShort
  deriving DecidableEq, Repr

/-- A row of the opcode map: a word selects the command when `word &&& mask = pattern` (30_encoding.md R112). -/
structure OpcodeRow where
  pattern : Word
  mask : Word
  instr : Instr
  deriving DecidableEq, Repr

/-- A row of R112; every mask there is 0xFFFFFFFF. -/
def wholeWord (pattern : Word) (i : Instr) : OpcodeRow :=
  { pattern := pattern, mask := 0xFFFFFFFF#32, instr := i }

/-- The opcode map (30_encoding.md R112), in the order of its rows. -/
def opcodeMap : List OpcodeRow :=
  [ wholeWord 0x00000001#32 .encode,
    wholeWord 0x00000002#32 .decode,
    wholeWord 0x00000010#32 .bitsPack,
    wholeWord 0x00000011#32 .bitsUnpack,
    wholeWord 0x00000020#32 .freqBuild,
    wholeWord 0x00000021#32 .freqCompress,
    wholeWord 0x00000022#32 .freqDecompress,
    wholeWord 0x00000023#32 .hdrWrite,
    wholeWord 0x00000024#32 .hdrParse,
    wholeWord 0x00000030#32 .treeBuild,
    wholeWord 0x00000031#32 .codesDerive,
    wholeWord 0x00000032#32 .treeDestroy,
    wholeWord 0x00000033#32 .decodeOne,
    wholeWord 0x00000040#32 .bodyEncode,
    wholeWord 0x00000041#32 .bodyDecode ]

/-- The row selects the word. -/
def OpcodeRow.selects (r : OpcodeRow) (w : Word) : Bool :=
  w &&& r.mask == r.pattern

/-- The decoder: the first row that selects the word, or a rejection by name (30_encoding.md R112, R118). -/
def decodeWord (w : Word) : Except DecodeReject Instr :=
  match opcodeMap.find? (fun r => r.selects w) with
  | some r => .ok r.instr
  | none => .error (.notACommand w)

/-- The word of four bytes, the first the least significant: the control port is little-endian (20_memory.md R84). -/
def wordOfBytes (b0 b1 b2 b3 : Byte) : Word :=
  b3 ++ b2 ++ b1 ++ b0

/-- The four bytes of a word in the control port's byte order (20_memory.md R84). -/
def bytesOfWord (w : Word) : List Byte :=
  [w.extractLsb' 0 8, w.extractLsb' 8 8, w.extractLsb' 16 8, w.extractLsb' 24 8]

/-- The decoder on bytes: one command word and the bytes after it (30_encoding.md R119). -/
def decodeBytes : List Byte → Except DecodeReject (Instr × List Byte)
  | b0 :: b1 :: b2 :: b3 :: rest =>
    match decodeWord (wordOfBytes b0 b1 b2 b3) with
    | .ok i => .ok (i, rest)
    | .error e => .error e
  | _ => .error .tooShort

/-- The command word of a command (30_encoding.md R112). -/
def encode : Instr → Word
  | .encode => 0x00000001#32
  | .decode => 0x00000002#32
  | .bitsPack => 0x00000010#32
  | .bitsUnpack => 0x00000011#32
  | .freqBuild => 0x00000020#32
  | .freqCompress => 0x00000021#32
  | .freqDecompress => 0x00000022#32
  | .hdrWrite => 0x00000023#32
  | .hdrParse => 0x00000024#32
  | .treeBuild => 0x00000030#32
  | .codesDerive => 0x00000031#32
  | .treeDestroy => 0x00000032#32
  | .decodeOne => 0x00000033#32
  | .bodyEncode => 0x00000040#32
  | .bodyDecode => 0x00000041#32

/-- The command word that an instruction of `nbits` bits with the bits `w` makes: the bits above `nbits` are 0. -/
def tableWord (nbits w : Nat) : Word :=
  BitVec.ofNat 32 (w % 2 ^ nbits)

/-- The command the decoder reads from an opcode-table row's word, laid out as the control port takes it: four
bytes, little-endian (20_memory.md R84). A row longer than one 32-bit word is no command (30_encoding.md R119). -/
def decodeTableWord (nbits w : Nat) : Option Instr :=
  if nbits ≤ 32 then
    match decodeBytes (bytesOfWord (tableWord nbits w)) with
    | .ok (i, _) => some i
    | .error _ => none
  else none

end Sys2Proof
end

