-- ==== Sys2Proof/Machine/State.lean ====
section
/-! DEFINITION. The machine's state (10_state.md R30 to R62, 20_memory.md R80, 70_reset_and_hazards.md R320), the reasons a
step stops (notes/assumptions/14.md, 15.md), and reset. A piece of state that the spec names twice is stored once
(notes/assumptions/19.md), and the hidden tree has the form of notes/assumptions/20.md. -/

namespace Sys2Proof.Machine

/-- Why the machine stops with a fault. No command raises one: a command's errors are completions
(60_exceptions.md R286, R290). -/
inductive Fault where
  /-- Raised by a host or other agent's access to a shared-memory byte at or above `MEM_SIZE`, an address that does
  not exist (20_memory.md R80). Safe: the model stops. -/
  | hostByteOutsideMemory (addr : Nat)
  deriving DecidableEq, Repr

/-- Why the machine refuses to take a step. -/
inductive Refusal where
  /-- No meaning yet for the instruction; raised by `exec` only, and by no arm of this model. Safe. -/
  | notModelled (mnemonic : String)
  /-- Raised by a host access at an address outside the control port (20_memory.md R81). Safe. -/
  | outsidePort (addr : Nat)
  /-- Raised by a control-port access that is not a 32-bit aligned read or write: "a model refuses it"
  (20_memory.md R87). Safe. -/
  | narrowPortAccess (addr size : Nat)
  /-- Raised by a host or other agent's access to a byte of the running command's SRC or DST: "takes no step"
  (70_reset_and_hazards.md R330, 93_implementation_defined.md U6). Safe. -/
  | regionInUse (addr : Nat)
  /-- Raised by the engine's turn on a command whose region covers a device with read side effects, and by a host
  access to such a byte: outside the spec (20_memory.md R91, 93 U14). Safe. -/
  | deviceInMemory
  deriving DecidableEq, Repr

/-- STATUS.TREE_STATE (10_state.md R40). -/
inductive TreeState where
  | empty
  | seeding
  | merging
  | rooted
  deriving DecidableEq, Repr, Inhabited

/-- How far the tree build of the command in flight has come: what STATUS.TREE_STATE has to show of it passes these in
order (42_tree.md R200, R210; 43_codec.md R244, R245). -/
inductive BuildStage where
  /-- The build has not begun, or no command runs. -/
  | notBegun
  | seeding
  | merging
  | rooted
  /-- ENCODE or DECODE has destroyed its tree. -/
  | destroyed
  deriving DecidableEq, Repr, Inhabited

/-- The error codes that are ever produced (60_exceptions.md R280); 10 to 15 are reserved and never produced. -/
inductive ErrCode where
  | none
  | illegalCmd
  | bounds
  | overlap
  | state
  | dstOverflow
  | malformedHeader
  | invalidFrequencyData
  | truncatedStream
  | memFault
  deriving DecidableEq, Repr, Inhabited

/-- The sequencer phase; `PHASE = RUN` exactly when STATUS.BUSY = 1, so BUSY is stored here (10_state.md R32). -/
inductive Phase where
  | idle
  | run
  deriving DecidableEq, Repr, Inhabited

/-- An index of the node arena, which is the node's identity (10_state.md R57). -/
abbrev NodeId := Fin 511

/-- The tag of a node and what only that tag has (10_state.md R57, R58). -/
inductive NodeKind where
  | leaf (sym : Byte)
  | internal (left right : NodeId)
  deriving DecidableEq, Repr

/-- An entry of the node arena (10_state.md R57). -/
structure Node where
  valid : Bool
  kind : NodeKind
  freq : BitVec 40
  id : NodeId
  /-- `none` is NONE, the root's parent. -/
  parent : Option NodeId
  deriving DecidableEq, Repr

/-- A member of `PQ` with its key: the node and the node's frequency (10_state.md R59). -/
structure PqEntry where
  freq : BitVec 40
  node : NodeId
  deriving DecidableEq, Repr

/-- The hidden tree state (10_state.md R56 to R61) with STATUS.TREE_STATE (R40). -/
structure Tree where
  state : TreeState
  arena : Vector Node 511
  /-- `PQ`, its members in the order of R59, least first. -/
  pq : List PqEntry
  /-- `NEXT_ID`, 256 to 511 (R60). -/
  nextId : Nat
  /-- `ROOT` (R60). -/
  root : NodeId
  deriving DecidableEq, Repr

/-- Shared memory: the bytes that differ from what an unlisted address reads as, by rising address. -/
abbrev Memory := List Host.Cell

/-- What the outside world does to the block next: an access of the host or another agent, the `rst` input, or
nothing while the engine takes its turn (00_scope.md R11, R12). -/
inductive HostOp where
  /-- A control-port read of `size` bytes at a host address (20_memory.md R87). -/
  | portRead (addr size : Nat)
  /-- A control-port write of `size` bytes at a host address (20_memory.md R87). -/
  | portWrite (addr size : Nat) (value : Word)
  /-- A read of one byte of shared memory by the host or another agent (20_memory.md R80). -/
  | memRead (addr : Nat)
  /-- A write of one byte of shared memory by the host or another agent (20_memory.md R80). -/
  | memWrite (addr : Nat) (value : Byte)
  /-- The `rst` input is asserted (70_reset_and_hazards.md R320). -/
  | rst
  /-- The outside world waits and the engine takes its turn. -/
  | engine
  deriving DecidableEq, Repr

/-- Everything the spec gives the block, its shared memory, and four fields of the model's own: `cfg` (the platform's
constants), `agenda`, `busData` and `draws` (notes/assumptions/1.md, 2.md, 4.md, 5.md). -/
structure State where
  /-- The platform's parameters, which no step changes (00_scope.md R14). -/
  cfg : Config
  /-- Shared memory (20_memory.md R80). -/
  mem : Memory
  /-- CTRL.IRQ_EN (10_state.md R35). -/
  irqEn : Bool
  /-- `PHASE`, and so STATUS.BUSY (10_state.md R32, R37). -/
  phase : Phase
  /-- STATUS.DONE (10_state.md R38). -/
  done : Bool
  /-- STATUS.ERR (10_state.md R38). -/
  err : Bool
  /-- STATUS.ERRCODE (10_state.md R38). -/
  errCode : ErrCode
  /-- STATUS.CODES_VALID (10_state.md R39). -/
  codesValid : Bool
  /-- STATUS.WR_IGNORED (10_state.md R41). -/
  wrIgnored : Bool
  /-- STATUS.CMD_DROPPED (10_state.md R41). -/
  cmdDropped : Bool
  /-- IRQ_STATUS.DONE_PENDING (10_state.md R42). -/
  donePending : Bool
  /-- `CUR_CMD`, which is also the CMD read-back (10_state.md R32, R43; 30_encoding.md R113). -/
  curCmd : Word
  /-- SRC_ADDR (10_state.md R44). -/
  srcAddr : Word
  /-- SRC_LEN (10_state.md R44). -/
  srcLen : Word
  /-- DST_ADDR (10_state.md R45). -/
  dstAddr : Word
  /-- DST_CAP (10_state.md R45). -/
  dstCap : Word
  /-- RESULT_LEN (10_state.md R46). -/
  resultLen : Word
  /-- DATA_LEN (10_state.md R47). -/
  dataLen : Word
  /-- HDR_LEN (10_state.md R48). -/
  hdrLen : Word
  /-- BIT_CURSOR, both halves (10_state.md R49). -/
  bitCursor : BitVec 35
  /-- BIT_COUNT, both halves (10_state.md R50). -/
  bitCount : BitVec 40
  /-- SYMBOL, bits [7:0]; the rest reads 0 (10_state.md R51). -/
  symbol : Byte
  /-- ERR_INFO (10_state.md R52). -/
  errInfo : Word
  /-- The frequency RAM FREQ (10_state.md R53). -/
  freq : Vector Word 256
  /-- The code length RAM CODE_LEN (10_state.md R54). -/
  codeLen : Vector (BitVec 8) 256
  /-- The code bit RAM CODE_BITS (10_state.md R55). -/
  codeBits : Vector (BitVec 256) 256
  /-- The node arena, PQ, NEXT_ID, ROOT and TREE_STATE (10_state.md R40, R56 to R61). -/
  tree : Tree
  /-- How far the host has seen the tree build of the command in flight come (42_tree.md R200, 70_reset_and_hazards.md
  R331 "the current TREE_STATE"; notes/assumptions/9.md). -/
  buildStage : BuildStage
  /-- The model's own: what the outside world does next, oldest first. -/
  agenda : List HostOp
  /-- The model's own: the data the last host read returned. -/
  busData : Word
  /-- The model's own: how many free values have been drawn. -/
  draws : Nat
  deriving DecidableEq, Repr

/-- An arena entry after reset: `valid` = 0, the rest unspecified and never read (70_reset_and_hazards.md R320;
DESIGN CHOICE, notes/assumptions/6.md). -/
def Node.unused : Node :=
  { valid := false, kind := .leaf 0#8, freq := 0#40, id := 0, parent := none }

/-- The hidden tree state after reset: EMPTY, no valid entry, PQ empty (70_reset_and_hazards.md R320). NEXT_ID and
ROOT are unspecified (DESIGN CHOICE, notes/assumptions/6.md). -/
def Tree.unbuilt : Tree :=
  { state := .empty, arena := Vector.replicate 511 Node.unused, pq := [], nextId := 256, root := 0 }

/-- The machine right after reset (70_reset_and_hazards.md R320), on the default platform, with nothing listed in
memory and nothing on the agenda. The code RAM is unspecified after reset (DESIGN CHOICE, notes/assumptions/6.md); no
read shows its stored value while CODES_VALID = 0. -/
def State.reset : State where
  cfg := Config.default
  mem := []
  irqEn := false
  phase := .idle
  done := false
  err := false
  errCode := .none
  codesValid := false
  wrIgnored := false
  cmdDropped := false
  donePending := false
  curCmd := 0#32
  srcAddr := 0#32
  srcLen := 0#32
  dstAddr := 0#32
  dstCap := 0#32
  resultLen := 0#32
  dataLen := 0#32
  hdrLen := 0#32
  bitCursor := 0#35
  bitCount := 0#40
  symbol := 0#8
  errInfo := 0#32
  freq := Vector.replicate 256 0#32
  codeLen := Vector.replicate 256 0#8
  codeBits := Vector.replicate 256 0#256
  tree := Tree.unbuilt
  buildStage := .notBegun
  agenda := []
  busData := 0#32
  draws := 0

end Sys2Proof.Machine
end

