-- ==== Sys2Proof/Machine/Ops.lean ====
section
/-! DEFINITION. The named operations over memory and registers: a byte of shared memory, the engine's memory
primitives with `MEM_FAULT` (00_scope.md R19, 20_memory.md R92), `raise` (00_scope.md R20), completion
(60_exceptions.md R287) and reset (70_reset_and_hazards.md R320 to R322). -/

namespace Sys2Proof.Machine

/-! ### Numbers -/

/-- `ceil8(n)`, the byte count of `n` bits (00_scope.md R16). -/
def ceil8 (n : Nat) : Nat := (n + 7) / 8

/-- `sat32(v)` as a register word (00_scope.md R16). -/
def sat32 (v : Nat) : Word := BitVec.ofNat 32 (min v 0xFFFFFFFF)

/-- `trunc_32(v)` as a register word (00_scope.md R16). -/
def trunc32 (v : Nat) : Word := BitVec.ofNat 32 v

/-- `le(v, w)`: the `w` low bytes of `v`, least significant first (41_frequency.md R162, 20_memory.md R82). -/
def le (v : Nat) : Nat → List Byte
  | 0 => []
  | w + 1 => BitVec.ofNat 8 v :: le (v / 256) w

/-- The number a little-endian field holds: `rd_u16` and `rd_u32` of 00_scope.md R19 on the bytes read. -/
def ofLe : List Byte → Nat
  | [] => 0
  | b :: bs => b.toNat + 256 * ofLe bs

/-- The number whose bit `k` is element `k` of the sequence (10_state.md R55, 20_memory.md R83). -/
def bitsValue : List Bool → Nat
  | [] => 0
  | b :: bs => b.toNat + 2 * bitsValue bs

/-- The 256 symbols in ascending order (00_scope.md R13, R7). -/
def symbols : List (Fin 256) := List.finRange 256

/-! ### Shared memory -/

/-- What an address that memory does not list reads as. DESIGN CHOICE, notes/assumptions/3.md: the spec gives shared
memory no reset contents; the test vectors start from zeros. -/
def Memory.background : Byte := 0#8

/-- The byte at an address (20_memory.md R80). -/
def Memory.read : Memory → Nat → Byte
  | [], _ => Memory.background
  | (b, v) :: m, a => if a = b then v else Memory.read m a

/-- `m` with nothing listed at `a`. -/
def Memory.erase : Memory → Nat → Memory
  | [], _ => []
  | (b, v) :: m, a => if a = b then Memory.erase m a else (b, v) :: Memory.erase m a

/-- `m` with `v` listed at `a`, by rising address. -/
def Memory.insert : Memory → Nat → Byte → Memory
  | [], a, v => [(a, v)]
  | (b, w) :: m, a, v =>
    if a < b then (a, v) :: (b, w) :: m
    else if a = b then (a, v) :: m
    else (b, w) :: Memory.insert m a v

/-- Memory with byte `v` stored at `a`, in canonical form. -/
def Memory.write (m : Memory) (a : Nat) (v : Byte) : Memory :=
  if v = Memory.background then Memory.erase m a else Memory.insert m a v

/-- The canonical form: addresses strictly rising, and no entry equal to what an unlisted address reads as. -/
abbrev Memory.wf (m : Memory) : Prop :=
  m.Pairwise (fun c d => c.1 < d.1) ∧ ∀ c ∈ m, c.2 ≠ Memory.background

/-! ### The engine's memory primitives and `raise` -/

/-- A `raise E(info)` (00_scope.md R20) with shared memory as the command had written it by then: memory writes are
not part of the commit (00_scope.md R21, 60_exceptions.md R289). -/
structure Raise where
  code : ErrCode
  info : Word
  mem : Memory
  deriving DecidableEq, Repr

/-- `MEM_FAULT(addr, kind)` (20_memory.md R92). -/
def Config.memFault (c : Config) (addr : Nat) (kind : AccessKind) : Bool :=
  c.memFaults.contains (addr, kind)

/-- `MemRead(addr, 1)` (00_scope.md R19); an access the platform rejects raises MEM_FAULT (20_memory.md R92). -/
def memRead (c : Config) (m : Memory) (addr : Nat) : Except Raise Byte :=
  if Config.memFault c addr .read then .error { code := .memFault, info := trunc32 addr, mem := m }
  else .ok (m.read addr)

/-- `MemWrite(addr, 1, v)` (00_scope.md R19); an access the platform rejects raises MEM_FAULT (20_memory.md R92). -/
def memWrite (c : Config) (m : Memory) (addr : Nat) (v : Byte) : Except Raise Memory :=
  if Config.memFault c addr .write then .error { code := .memFault, info := trunc32 addr, mem := m }
  else .ok (m.write addr v)

/-- `n` byte reads at rising addresses from `addr` (20_memory.md R85). -/
def readBytes (c : Config) (m : Memory) : (addr n : Nat) → Except Raise (List Byte)
  | _, 0 => .ok []
  | addr, n + 1 => do
    let b ← memRead c m addr
    let bs ← readBytes c m (addr + 1) n
    pure (b :: bs)

/-- Byte writes at rising addresses from `addr` (20_memory.md R85); bytes written before a raise stay written
(60_exceptions.md R289). -/
def writeBytes (c : Config) : Memory → (addr : Nat) → List Byte → Except Raise Memory
  | m, _, [] => .ok m
  | m, addr, b :: bs => do
    let m' ← memWrite c m addr b
    writeBytes c m' (addr + 1) bs

/-- `rd_u8`, `rd_u16` and `rd_u32` for `w` = 1, 2 and 4 (00_scope.md R19). -/
def readField (c : Config) (m : Memory) (addr w : Nat) : Except Raise Nat := do
  let bs ← readBytes c m addr w
  pure (ofLe bs)

/-- `raise E(info)` by a command that has written no memory (00_scope.md R20). -/
def State.raise {α : Type} (s : State) (code : ErrCode) (info : Word) : Except Raise α :=
  .error { code := code, info := info, mem := s.mem }

/-! ### Completion -/

/-- Clear the arena: `node[i].valid <- 0` for every `i`, TREE_STATE EMPTY (42_tree.md R212, 60_exceptions.md R287). -/
def Tree.clear (t : Tree) : Tree :=
  { t with state := .empty, arena := t.arena.map (fun n => { n with valid := false }) }

/-- `complete(code, info)` (60_exceptions.md R287); `codec` says that the command is ENCODE or DECODE, whose arena is
cleared on every completion but STATE. -/
def complete (codec : Bool) (code : ErrCode) (info : Word) (s : State) : State :=
  { s with
    tree := if codec && code != .state then s.tree.clear else s.tree
    buildStage := .notBegun
    errCode := code
    errInfo := info
    err := code != .none
    done := true
    phase := .idle
    donePending := true }

/-- The end of a command's run (60_exceptions.md R287, R288): the committed state completes with no error; a raise
keeps every register and RAM of the state the command started from, and the memory written before it. -/
def conclude (codec : Bool) (s : State) (r : Except Raise State) : Host.Outcome State Fault Refusal :=
  .next
    (match r with
    | .ok t => complete codec .none 0#32 t
    | .error e => complete codec e.code e.info { s with mem := e.mem })

/-! ### Reset -/

/-- The reset values of R320 for the engine's state; the platform and shared memory are not engine state, and the
model's own fields are not the engine's (70_reset_and_hazards.md R320). -/
def resetEngine (s : State) : State :=
  { State.reset with
    cfg := s.cfg, mem := s.mem, agenda := s.agenda, busData := s.busData, draws := s.draws }

/-- Memory with the `n` bytes from `addr` replaced by free values, the first of them draw `k`. -/
def Memory.havoc : Memory → (addr n k : Nat) → Memory
  | m, _, 0, _ => m
  | m, addr, n + 1, k => Memory.havoc (m.write addr (Config.freeDstByte k)) (addr + 1) n (k + 1)

end Sys2Proof.Machine
end

