-- ==== Sys2Proof/Machine/Operands.lean ====
section
/-! DEFINITION. Operand assembly (30_encoding.md R111): the regions (20_memory.md R88 to R90), the prologue checks
(30_encoding.md R117), which command uses which region (R116), and the code RAM as codes (10_state.md R54, R55). -/

namespace Sys2Proof.Machine

/-- A code: its bits from the root (00_scope.md R23 CodeTable). -/
abbrev Code := List Bool

/-- The command reads SRC (30_encoding.md R116). -/
def usesSrc : Instr → Bool
  | .encode | .decode | .bitsPack | .bitsUnpack | .freqBuild | .freqDecompress | .hdrParse => true
  | .decodeOne | .bodyEncode | .bodyDecode => true
  | .freqCompress | .hdrWrite | .treeBuild | .codesDerive | .treeDestroy => false

/-- The command writes DST (30_encoding.md R116). -/
def usesDst : Instr → Bool
  | .encode | .decode | .bitsPack | .bitsUnpack | .freqCompress | .hdrWrite | .bodyEncode | .bodyDecode => true
  | .freqBuild | .freqDecompress | .hdrParse | .treeBuild | .codesDerive | .treeDestroy | .decodeOne => false

/-- `a` is a byte of SRC = `[SRC_ADDR, SRC_ADDR + SRC_LEN)` (20_memory.md R88). -/
def State.inSrc (s : State) (a : Nat) : Bool :=
  decide (s.srcAddr.toNat ≤ a) && decide (a < s.srcAddr.toNat + s.srcLen.toNat)

/-- `a` is a byte of DST = `[DST_ADDR, DST_ADDR + DST_CAP)` (20_memory.md R88). -/
def State.inDst (s : State) (a : Nat) : Bool :=
  decide (s.dstAddr.toNat ≤ a) && decide (a < s.dstAddr.toNat + s.dstCap.toNat)

/-- SRC is in range, computed exactly (20_memory.md R89). -/
def State.srcInRange (s : State) : Bool :=
  decide (s.srcAddr.toNat + s.srcLen.toNat ≤ s.cfg.memSize)

/-- DST is in range, computed exactly (20_memory.md R89). -/
def State.dstInRange (s : State) : Bool :=
  decide (s.dstAddr.toNat + s.dstCap.toNat ≤ s.cfg.memSize)

/-- Both regions are non-empty and intersect (20_memory.md R90). -/
def State.regionsOverlap (s : State) : Bool :=
  decide (0 < s.srcLen.toNat) && decide (0 < s.dstCap.toNat) &&
    decide (s.srcAddr.toNat < s.dstAddr.toNat + s.dstCap.toNat) &&
    decide (s.dstAddr.toNat < s.srcAddr.toNat + s.srcLen.toNat)

/-- `check_src()` (30_encoding.md R117). -/
def checkSrc (s : State) : Except Raise Unit :=
  if s.srcInRange then .ok () else s.raise .bounds 0#32

/-- `check_dst()` (30_encoding.md R117). -/
def checkDst (s : State) : Except Raise Unit :=
  if s.dstInRange then .ok () else s.raise .bounds 1#32

/-- `check_overlap()` (30_encoding.md R117). -/
def checkOverlap (s : State) : Except Raise Unit :=
  if s.regionsOverlap then s.raise .overlap 0#32 else .ok ()

/-- `check_src(); check_dst(); check_overlap()` (30_encoding.md R117). -/
def checkRegions (s : State) : Except Raise Unit := do
  checkSrc s
  checkDst s
  checkOverlap s

/-- `require_tree(EMPTY)` (30_encoding.md R117). -/
def requireEmpty (s : State) : Except Raise Unit :=
  if s.tree.state = .empty then .ok () else s.raise .state 1#32

/-- `require_tree(ROOTED)` (30_encoding.md R117). -/
def requireRooted (s : State) : Except Raise Unit :=
  if s.tree.state = .rooted then .ok () else s.raise .state 2#32

/-- `require_codes()` (30_encoding.md R117). -/
def requireCodes (s : State) : Except Raise Unit :=
  if s.codesValid then .ok () else s.raise .state 3#32

/-- `data <- [rd_u8(SRC_ADDR + i) for i in 0 .. SRC_LEN-1]` (41_frequency.md R169, 43_codec.md R242, R244). -/
def readSrc (s : State) : Except Raise (List Byte) :=
  readBytes s.cfg s.mem s.srcAddr.toNat s.srcLen.toNat

/-- `if n > DST_CAP: raise DST_OVERFLOW(sat32(n))` (10_state.md R45, 60_exceptions.md R280, R282). -/
def checkCapacity (s : State) (n : Nat) : Except Raise Unit :=
  if n > s.dstCap.toNat then s.raise .dstOverflow (sat32 n) else .ok ()

/-- `MemWrite(DST_ADDR + j, 1, out[j])` for every `j` in ascending order (20_memory.md R93). -/
def writeDst (s : State) (out : List Byte) : Except Raise Memory :=
  writeBytes s.cfg s.mem s.dstAddr.toNat out

/-- The code of a symbol in the code RAM: CODE_BITS[s] bits 0 to CODE_LEN[s] - 1 (10_state.md R55, 43_codec.md
R242). -/
def State.ramCode (s : State) (sym : Fin 256) : Code :=
  (List.range s.codeLen[sym].toNat).map (fun k => s.codeBits[sym].getLsbD k)

/-- The byte as the index of its symbol (00_scope.md R23: a symbol is a byte value). -/
def symbolOf (b : Byte) : Fin 256 := b.toFin

/-- CODE_LEN and CODE_BITS written from a code table (10_state.md R54, R55; 42_tree.md R211): bit `k` of CODE_BITS is
code bit `k`, and the bits above the length are 0. -/
def State.commitCodes (s : State) (codes : Vector Code 256) : State :=
  { s with
    codeLen := codes.map (fun c => BitVec.ofNat 8 c.length)
    codeBits := codes.map (fun c => BitVec.ofNat 256 (bitsValue c))
    codesValid := true }

end Sys2Proof.Machine
end

