-- ==== Sys2Proof/Machine/Flags.lean ====
section
/-! DEFINITION. The flags (10_state.md R62): the STATUS word (R36 to R41), what acceptance clears (30_encoding.md R113),
what a write while busy sets (R41, R114), and the interrupt output (60_exceptions.md R292). The engine has no arithmetic
flags. -/

namespace Sys2Proof.Machine

/-- STATUS.BUSY (10_state.md R32, R37). -/
def State.busy (s : State) : Bool := s.phase == .run

/-- The encoding of STATUS.TREE_STATE (10_state.md R40). -/
def TreeState.code : TreeState → BitVec 2
  | .empty => 0#2
  | .seeding => 1#2
  | .merging => 2#2
  | .rooted => 3#2

/-- The encoding of STATUS.ERRCODE (60_exceptions.md R280). -/
def ErrCode.code : ErrCode → BitVec 4
  | .none => 0#4
  | .illegalCmd => 1#4
  | .bounds => 2#4
  | .overlap => 3#4
  | .state => 4#4
  | .dstOverflow => 5#4
  | .malformedHeader => 6#4
  | .invalidFrequencyData => 7#4
  | .truncatedStream => 8#4
  | .memFault => 9#4

/-- The STATUS word with the given TREE_STATE field (10_state.md R36): bits [31:12] read 0. -/
def State.statusWith (s : State) (treeField : BitVec 2) : Word :=
  0#20 ++ s.errCode.code ++ BitVec.ofBool s.cmdDropped ++ BitVec.ofBool s.wrIgnored ++ treeField ++
    BitVec.ofBool s.codesValid ++ BitVec.ofBool s.err ++ BitVec.ofBool s.done ++ BitVec.ofBool s.busy

/-- CTRL as read: bit 0 IRQ_EN, bit 1 and the reserved bits 0 (10_state.md R35). -/
def State.ctrlWord (s : State) : Word := (BitVec.ofBool s.irqEn).setWidth 32

/-- IRQ_STATUS as read: bit 0 DONE_PENDING, the rest 0 (10_state.md R42). -/
def State.irqStatusWord (s : State) : Word := (BitVec.ofBool s.donePending).setWidth 32

/-- The interrupt output `irq = CTRL.IRQ_EN AND IRQ_STATUS.DONE_PENDING` (60_exceptions.md R292). -/
def State.irq (s : State) : Bool := s.irqEn && s.donePending

/-- `accept(w)` up to the check of the word (30_encoding.md R113). -/
def latch (w : Word) (s : State) : State :=
  { s with
    curCmd := w
    done := false
    err := false
    errCode := .none
    wrIgnored := false
    cmdDropped := false
    errInfo := 0#32
    resultLen := 0#32
    phase := .run }

/-- `accept(w)` up to the command's pseudocode (30_encoding.md R113): a word that is no command completes at once with
ILLEGAL_CMD and the word (R118, 60_exceptions.md R282 (1)). -/
def accept (w : Word) (s : State) : State :=
  match decodeWord w with
  | .ok _ => latch w s
  | .error _ => complete false .illegalCmd w (latch w s)

end Sys2Proof.Machine
end

