-- ==== Sys2Proof/Machine/BitPacker.lean ====
section
/-! DEFINITION. The BitPacker primitives and commands BITS_PACK and BITS_UNPACK (40_bitpacker.md R140 to R144). -/

namespace Sys2Proof.Machine

/-- `pack(bits)`: byte `j` bit `k` is `bits[8j + k]`, or 0 past the end (40_bitpacker.md R140). -/
def pack (bits : List Bool) : List Byte :=
  (List.range (ceil8 bits.length)).map (fun j =>
    BitVec.ofNat 8 (bitsValue ((List.range 8).map (fun k => bits.getD (8 * j + k) false))))

/-- The eight bits of a byte, bit 0 first (20_memory.md R83). -/
def unpackByte (b : Byte) : List Bool :=
  (List.range 8).map (fun k => b.getLsbD k)

/-- `unpack(bytes)`: element `i` is bit `i mod 8` of `bytes[i div 8]` (40_bitpacker.md R141). -/
def unpack (bytes : List Byte) : List Bool :=
  bytes.flatMap unpackByte

/-- A bit as the byte BITS_UNPACK writes, 0x00 or 0x01 (40_bitpacker.md R144). -/
def bitByte (b : Bool) : Byte := BitVec.ofNat 8 b.toNat

/-- The pseudocode of BITS_PACK (40_bitpacker.md R143). -/
def runBitsPack (s : State) : Except Raise State := do
  checkRegions s
  let n := s.srcLen.toNat
  let olen := ceil8 n
  checkCapacity s olen
  let data ← readSrc s
  let out := pack (data.map (fun b => b != 0#8))
  let mem ← writeDst s out
  pure { s with mem := mem, resultLen := BitVec.ofNat 32 olen, bitCount := BitVec.ofNat 40 n }

/-- BITS_PACK (40_bitpacker.md R143). -/
def execBitsPack (s : State) : Host.Outcome State Fault Refusal :=
  conclude false s (runBitsPack s)

/-- The loop of BITS_UNPACK over the `n` source bytes from `src`: each is read, then its eight bits are written from
`dst` on (40_bitpacker.md R144). -/
def unpackInto (c : Config) : Memory → (src dst n : Nat) → Except Raise Memory
  | m, _, _, 0 => .ok m
  | m, src, dst, n + 1 => do
    let b ← memRead c m src
    let m' ← writeBytes c m dst ((unpackByte b).map bitByte)
    unpackInto c m' (src + 1) (dst + 8) n

/-- The pseudocode of BITS_UNPACK (40_bitpacker.md R144). -/
def runBitsUnpack (s : State) : Except Raise State := do
  checkRegions s
  let n := 8 * s.srcLen.toNat
  checkCapacity s n
  let mem ← unpackInto s.cfg s.mem s.srcAddr.toNat s.dstAddr.toNat s.srcLen.toNat
  pure { s with mem := mem, resultLen := BitVec.ofNat 32 n, bitCount := BitVec.ofNat 40 n }

/-- BITS_UNPACK (40_bitpacker.md R144). -/
def execBitsUnpack (s : State) : Host.Outcome State Fault Refusal :=
  conclude false s (runBitsUnpack s)

end Sys2Proof.Machine
end

