-- ==== Sys2Proof/Machine/Frequency.lean ====
section
/-! DEFINITION. The FrequencyTable primitives and commands FREQ_BUILD, FREQ_COMPRESS, FREQ_DECOMPRESS, HDR_WRITE and
HDR_PARSE (41_frequency.md R160 to R173). -/

namespace Sys2Proof.Machine

/-- A table of 256 u32 counters (00_scope.md R23 FrequencyTable). -/
abbrev FreqTable := Vector Word 256

/-- `count(bytes)`: entry `s` is the number of positions holding `s` (41_frequency.md R160). -/
def count (bytes : List Byte) : FreqTable :=
  Vector.ofFn (fun sym => BitVec.ofNat 32 (bytes.count (BitVec.ofNat 8 sym.val)))

/-- The bucket classes (41_frequency.md R161). -/
inductive Bucket where
  | none
  | byte
  | short
  | int
  deriving DecidableEq, Repr

/-- The bytes of a count in the bucket (41_frequency.md R161). -/
def Bucket.width : Bucket → Nat
  | .none => 0
  | .byte => 1
  | .short => 2
  | .int => 4

/-- `bucket(c)`, the thresholds as written (41_frequency.md R161, 90_conflicts.md C2). -/
def bucketOf (c : Nat) : Bucket :=
  if c = 0 then .none else if c < 255 then .byte else if c < 65535 then .short else .int

/-- The symbols whose count is in the bucket, ascending (41_frequency.md R162). -/
def bucketSymbols (F : FreqTable) (cls : Bucket) : List (Fin 256) :=
  symbols.filter (fun sym => bucketOf F[sym].toNat == cls)

/-- One bucket serialized: the entry count, then the pairs (41_frequency.md R162). -/
def bucketBytes (F : FreqTable) (cls : Bucket) : List Byte :=
  le (bucketSymbols F cls).length 4 ++
    (bucketSymbols F cls).flatMap (fun sym => BitVec.ofNat 8 sym.val :: le F[sym].toNat cls.width)

/-- `compress(F)` (41_frequency.md R162). -/
def compress (F : FreqTable) : List Byte :=
  bucketBytes F .byte ++ bucketBytes F .short ++ bucketBytes F .int

/-- `header_bytes(F, dl)` (41_frequency.md R164). -/
def headerBytes (F : FreqTable) (dl : Nat) : List Byte :=
  le (8 + (compress F).length) 4 ++ le dl 4 ++ compress F

/-- `[0] * 256` (41_frequency.md R165). -/
def zeroTable : FreqTable := Vector.replicate 256 0#32

/-- The inner loop of `decompress`: `k` entries of width `w` at `base + p`; each assigns, so the last wins
(41_frequency.md R165, R166). -/
def readEntries (c : Config) (m : Memory) (base w : Nat) : (k p : Nat) → FreqTable → Except Raise FreqTable
  | 0, _, F => .ok F
  | k + 1, p, F => do
    let sym ← memRead c m (base + p)
    let cnt ← readField c m (base + p + 1) w
    readEntries c m base w k (p + 1 + w) (F.set (symbolOf sym).val (BitVec.ofNat 32 cnt) (symbolOf sym).isLt)

/-- One round of `decompress`: the entry count of the bucket, the check that its entries fit, its entries; the
offset of an error is counted from SRC_ADDR (41_frequency.md R165). -/
def readBucket (s : State) (base limit w : Nat) (F : FreqTable) (p : Nat) : Except Raise (FreqTable × Nat) :=
  if p + 4 > limit then s.raise .invalidFrequencyData (sat32 (base - s.srcAddr.toNat + p))
  else do
    let k ← readField s.cfg s.mem (base + p) 4
    if p + 4 + k * (1 + w) > limit then
      s.raise .invalidFrequencyData (sat32 (base - s.srcAddr.toNat + (p + 4)))
    else do
      let F' ← readEntries s.cfg s.mem base w k (p + 4) F
      pure (F', p + 4 + k * (1 + w))

/-- `decompress(base, limit)`: the table and the bytes used (41_frequency.md R165). -/
def decompress (s : State) (base limit : Nat) : Except Raise (FreqTable × Nat) := do
  let (F1, p1) ← readBucket s base limit 1 zeroTable 0
  let (F2, p2) ← readBucket s base limit 2 F1 p1
  readBucket s base limit 4 F2 p2

/-- What `parse_header()` returns (41_frequency.md R167). -/
structure Header where
  dataLength : Nat
  table : FreqTable
  headerLength : Nat
  deriving DecidableEq, Repr

/-- `parse_header()` (41_frequency.md R167). -/
def parseHeader (s : State) : Except Raise Header :=
  if s.srcLen.toNat < 8 then s.raise .malformedHeader 0#32
  else do
    let hl ← readField s.cfg s.mem s.srcAddr.toNat 4
    let dl ← readField s.cfg s.mem (s.srcAddr.toNat + 4) 4
    if hl < 8 then s.raise .malformedHeader 1#32
    else if hl > s.srcLen.toNat then s.raise .malformedHeader 2#32
    else do
      let (F, _) ← decompress s (s.srcAddr.toNat + 8) (hl - 8)
      pure { dataLength := dl, table := F, headerLength := hl }

/-- The pseudocode of FREQ_BUILD (41_frequency.md R169). -/
def runFreqBuild (s : State) : Except Raise State := do
  checkSrc s
  let data ← readSrc s
  pure { s with freq := count data, dataLen := s.srcLen }

/-- FREQ_BUILD (41_frequency.md R169). -/
def execFreqBuild (s : State) : Host.Outcome State Fault Refusal :=
  conclude false s (runFreqBuild s)

/-- The pseudocode of FREQ_COMPRESS (41_frequency.md R170). -/
def runFreqCompress (s : State) : Except Raise State := do
  checkDst s
  let c := compress s.freq
  checkCapacity s c.length
  let mem ← writeDst s c
  pure { s with mem := mem, resultLen := BitVec.ofNat 32 c.length }

/-- FREQ_COMPRESS (41_frequency.md R170). -/
def execFreqCompress (s : State) : Host.Outcome State Fault Refusal :=
  conclude false s (runFreqCompress s)

/-- The pseudocode of FREQ_DECOMPRESS (41_frequency.md R171). -/
def runFreqDecompress (s : State) : Except Raise State := do
  checkSrc s
  let (F, _) ← decompress s s.srcAddr.toNat s.srcLen.toNat
  pure { s with freq := F }

/-- FREQ_DECOMPRESS (41_frequency.md R171). -/
def execFreqDecompress (s : State) : Host.Outcome State Fault Refusal :=
  conclude false s (runFreqDecompress s)

/-- The pseudocode of HDR_WRITE (41_frequency.md R172). -/
def runHdrWrite (s : State) : Except Raise State := do
  checkDst s
  let h := headerBytes s.freq s.dataLen.toNat
  checkCapacity s h.length
  let mem ← writeDst s h
  pure { s with mem := mem, hdrLen := BitVec.ofNat 32 h.length, resultLen := BitVec.ofNat 32 h.length }

/-- HDR_WRITE (41_frequency.md R172). -/
def execHdrWrite (s : State) : Host.Outcome State Fault Refusal :=
  conclude false s (runHdrWrite s)

/-- The pseudocode of HDR_PARSE (41_frequency.md R173). -/
def runHdrParse (s : State) : Except Raise State := do
  checkSrc s
  let h ← parseHeader s
  pure { s with
    freq := h.table, dataLen := BitVec.ofNat 32 h.dataLength, hdrLen := BitVec.ofNat 32 h.headerLength }

/-- HDR_PARSE (41_frequency.md R173). -/
def execHdrParse (s : State) : Host.Outcome State Fault Refusal :=
  conclude false s (runHdrParse s)

end Sys2Proof.Machine
end

