-- ==== Sys2Proof/Machine/Tree.lean ====
section
/-! DEFINITION. The HuffmanTree primitives and commands TREE_BUILD, CODES_DERIVE, TREE_DESTROY and DECODE_ONE
(42_tree.md R200 to R214). -/

namespace Sys2Proof.Machine

/-! ### Building the tree -/

/-- The leaf of a symbol is the node of the same index (10_state.md R57). -/
def leafId (sym : Fin 256) : NodeId := sym.castLE (by decide)

/-- The leaf created for a symbol by seeding (42_tree.md R201). -/
def leafNode (F : FreqTable) (sym : Fin 256) : Node :=
  { valid := true
    kind := .leaf (BitVec.ofNat 8 sym.val)
    freq := F[sym].setWidth 40
    id := leafId sym
    parent := none }

/-- The order of `PQ`: by frequency, then by identity, the lower winning (10_state.md R59). -/
def PqEntry.before (a b : PqEntry) : Bool :=
  decide (a.freq < b.freq) || (a.freq == b.freq && decide (a.node < b.node))

/-- `PQ` with a member more, in the order of R59. -/
def pqInsert (e : PqEntry) : List PqEntry → List PqEntry
  | [] => [e]
  | x :: xs => if e.before x then e :: x :: xs else x :: pqInsert e xs

/-- Seeding: the 256 leaves are created and inserted, NEXT_ID becomes 256 (42_tree.md R201). The entries above the
leaves keep what they held. -/
def Tree.seed (F : FreqTable) (t : Tree) : Tree :=
  { t with
    state := .seeding
    arena := Vector.ofFn (fun i : NodeId => if h : i.val < 256 then leafNode F ⟨i.val, h⟩ else t.arena[i])
    pq := symbols.foldr (fun sym q => pqInsert { freq := F[sym].setWidth 40, node := leafId sym } q) []
    nextId := 256 }

/-- `node[n].parent <- m` (42_tree.md R202). -/
def setParent (arena : Vector Node 511) (n m : NodeId) : Vector Node 511 :=
  arena.set n.val { arena[n] with parent := some m } n.isLt

/-- One merge: the two least members of PQ are removed, the first the left child, and their parent, NEXT_ID, is
created and inserted (42_tree.md R202; the side by 92_eei_decisions.md D11). -/
def Tree.merge (t : Tree) : Tree :=
  match t.pq with
  | a :: b :: rest =>
    if h : t.nextId < 511 then
      let m : NodeId := ⟨t.nextId, h⟩
      let f := a.freq + b.freq
      let node : Node :=
        { valid := true, kind := .internal a.node b.node, freq := f, id := m, parent := none }
      { t with
        arena := setParent (setParent (t.arena.set m.val node m.isLt) a.node m) b.node m
        pq := pqInsert { freq := f, node := m } rest
        nextId := t.nextId + 1 }
    else t
  | _ => t

/-- `while |PQ| > 1`: at most `n` merges (42_tree.md R204). -/
def Tree.mergeAll : Nat → Tree → Tree
  | 0, t => t
  | n + 1, t => (t.merge).mergeAll n

/-- The single member of PQ becomes ROOT and the tree is ROOTED (42_tree.md R203). -/
def Tree.setRoot (t : Tree) : Tree :=
  match t.pq with
  | [e] => { t with root := e.node, pq := [], state := .rooted }
  | _ => t

/-- `build_tree(F)` (42_tree.md R204); 255 merges leave one member of 256 (R205). -/
def buildTree (F : FreqTable) (t : Tree) : Tree :=
  (Tree.mergeAll 255 { Tree.seed F t with state := .merging }).setRoot

/-! ### Codes -/

/-- `n` is the right child of `p` (42_tree.md R207). -/
def isRightChild (arena : Vector Node 511) (p n : NodeId) : Bool :=
  match arena[p].kind with
  | .internal _ right => right == n
  | .leaf _ => false

/-- The walk from `n` along `parent` to the root, at most `fuel` links (a code has at most 255 bits, 42_tree.md
R205), putting each bit before those found earlier, so that the bits come out root first (R207 `reverse(up)`). -/
def climb (arena : Vector Node 511) : (fuel : Nat) → NodeId → Code → Code
  | 0, _, acc => acc
  | fuel + 1, n, acc =>
    match arena[n].parent with
    | none => acc
    | some p => climb arena fuel p (isRightChild arena p n :: acc)

/-- `code[s]` of `derive_codes()` (42_tree.md R207). -/
def codeOf (arena : Vector Node 511) (sym : Fin 256) : Code :=
  climb arena 255 (leafId sym) []

/-- `derive_codes()` (42_tree.md R207). -/
def deriveCodes (arena : Vector Node 511) : Vector Code 256 :=
  Vector.ofFn (fun sym => codeOf arena sym)

/-! ### Walking the tree -/

/-- The loop of `decode_one` at node `n` with the cursor at `c` and `fuel` bits left before `nbits`
(42_tree.md R209). -/
def walk (cfg : Config) (m : Memory) (arena : Vector Node 511) (base k : Nat) :
    (fuel c : Nat) → NodeId → Except Raise (Byte × Nat)
  | 0, c, n =>
    match arena[n].kind with
    | .leaf sym => .ok (sym, c)
    | .internal _ _ => .error { code := .truncatedStream, info := BitVec.ofNat 32 k, mem := m }
  | fuel + 1, c, n =>
    match arena[n].kind with
    | .leaf sym => .ok (sym, c)
    | .internal left right => do
      let b ← memRead cfg m (base + c / 8)
      walk cfg m arena base k fuel (c + 1) (if b.getLsbD (c % 8) then right else left)

/-- `decode_one(base, c, nbits, k)` (42_tree.md R209): bits are left while `c < nbits`. -/
def decodeOneAt (cfg : Config) (m : Memory) (t : Tree) (base c nbits k : Nat) : Except Raise (Byte × Nat) :=
  walk cfg m t.arena base k (nbits - c) c t.root

/-! ### Commands -/

/-- The pseudocode of TREE_BUILD (42_tree.md R210). -/
def runTreeBuild (s : State) : Except Raise State := do
  requireEmpty s
  pure { s with tree := buildTree s.freq s.tree }

/-- TREE_BUILD (42_tree.md R210). -/
def execTreeBuild (s : State) : Host.Outcome State Fault Refusal :=
  conclude false s (runTreeBuild s)

/-- The pseudocode of CODES_DERIVE (42_tree.md R211). -/
def runCodesDerive (s : State) : Except Raise State := do
  requireRooted s
  pure (s.commitCodes (deriveCodes s.tree.arena))

/-- CODES_DERIVE (42_tree.md R211). -/
def execCodesDerive (s : State) : Host.Outcome State Fault Refusal :=
  conclude false s (runCodesDerive s)

/-- The pseudocode of TREE_DESTROY (42_tree.md R212). -/
def runTreeDestroy (s : State) : Except Raise State := do
  requireRooted s
  pure { s with tree := s.tree.clear }

/-- TREE_DESTROY (42_tree.md R212). -/
def execTreeDestroy (s : State) : Host.Outcome State Fault Refusal :=
  conclude false s (runTreeDestroy s)

/-- The pseudocode of DECODE_ONE (42_tree.md R213). -/
def runDecodeOne (s : State) : Except Raise State := do
  requireRooted s
  checkSrc s
  let (sym, c) ← decodeOneAt s.cfg s.mem s.tree s.srcAddr.toNat s.bitCursor.toNat (8 * s.srcLen.toNat) 0
  pure { s with symbol := sym, bitCursor := BitVec.ofNat 35 c }

/-- DECODE_ONE (42_tree.md R213). -/
def execDecodeOne (s : State) : Host.Outcome State Fault Refusal :=
  conclude false s (runDecodeOne s)

end Sys2Proof.Machine
end

