-- ==== Sys2Proof/Machine/Codec.lean ====
section
/-! DEFINITION. The Codec primitives and commands BODY_ENCODE, BODY_DECODE, ENCODE and DECODE (43_codec.md R240 to
R245). -/

namespace Sys2Proof.Machine

/-- `encode_bits(data, code)` (43_codec.md R240). -/
def encodeBits (data : List Byte) (code : Fin 256 → Code) : List Bool :=
  data.flatMap (fun b => code (symbolOf b))

/-- The loop of `decode_body` with `n` symbols left, `k` decoded and the cursor at `c`: symbol `k` is written to
`dst + k` as soon as it is decoded (43_codec.md R241). -/
def decodeBody (cfg : Config) (t : Tree) (base nbits dst : Nat) :
    (n k c : Nat) → Memory → Except Raise (Nat × Memory)
  | 0, _, c, m => .ok (c, m)
  | n + 1, k, c, m => do
    let (sym, c') ← decodeOneAt cfg m t base c nbits k
    let m' ← memWrite cfg m (dst + k) sym
    decodeBody cfg t base nbits dst n (k + 1) c' m'

/-- The pseudocode of BODY_ENCODE (43_codec.md R242). -/
def runBodyEncode (s : State) : Except Raise State := do
  requireCodes s
  checkRegions s
  let data ← readSrc s
  let nbits := (data.map (fun b => s.codeLen[symbolOf b].toNat)).sum
  let olen := ceil8 nbits
  checkCapacity s olen
  let bits := encodeBits data s.ramCode
  let mem ← writeDst s (pack bits)
  pure { s with mem := mem, bitCount := BitVec.ofNat 40 nbits, resultLen := BitVec.ofNat 32 olen }

/-- BODY_ENCODE (43_codec.md R242). -/
def execBodyEncode (s : State) : Host.Outcome State Fault Refusal :=
  conclude false s (runBodyEncode s)

/-- The pseudocode of BODY_DECODE (43_codec.md R243). -/
def runBodyDecode (s : State) : Except Raise State := do
  requireRooted s
  checkRegions s
  let dl := s.dataLen.toNat
  checkCapacity s dl
  let (c, mem) ← decodeBody s.cfg s.tree s.srcAddr.toNat (8 * s.srcLen.toNat) s.dstAddr.toNat dl 0 0 s.mem
  pure { s with mem := mem, bitCursor := BitVec.ofNat 35 c, resultLen := BitVec.ofNat 32 dl }

/-- BODY_DECODE (43_codec.md R243). -/
def execBodyDecode (s : State) : Host.Outcome State Fault Refusal :=
  conclude false s (runBodyDecode s)

/-- ENCODE up to `build_tree`: its checks and its source bytes (43_codec.md R244). -/
def encodeInput (s : State) : Except Raise (List Byte) := do
  requireEmpty s
  checkRegions s
  readSrc s

/-- The pseudocode of ENCODE (43_codec.md R244). -/
def runEncode (s : State) : Except Raise State := do
  let data ← encodeInput s
  let F := count data
  let built := buildTree F s.tree
  let codes := deriveCodes built.arena
  let h := headerBytes F s.srcLen.toNat
  let nbits := (symbols.map (fun sym => F[sym].toNat * codes[sym].length)).sum
  let total := h.length + ceil8 nbits
  checkCapacity s total
  let mem ← writeDst s (h ++ pack (encodeBits data (fun sym => codes[sym])))
  pure
    { s.commitCodes codes with
      mem := mem
      tree := built.clear
      freq := F
      dataLen := s.srcLen
      hdrLen := BitVec.ofNat 32 h.length
      bitCount := BitVec.ofNat 40 nbits
      resultLen := BitVec.ofNat 32 total }

/-- ENCODE (43_codec.md R244). -/
def execEncode (s : State) : Host.Outcome State Fault Refusal :=
  conclude true s (runEncode s)

/-- DECODE up to `build_tree`: its checks and the header (43_codec.md R245). -/
def decodeInput (s : State) : Except Raise Header := do
  requireEmpty s
  checkRegions s
  let h ← parseHeader s
  checkCapacity s h.dataLength
  pure h

/-- The pseudocode of DECODE (43_codec.md R245). -/
def runDecode (s : State) : Except Raise State := do
  let h ← decodeInput s
  let built := buildTree h.table s.tree
  let (c, mem) ← decodeBody s.cfg built (s.srcAddr.toNat + h.headerLength)
    (8 * (s.srcLen.toNat - h.headerLength)) s.dstAddr.toNat h.dataLength 0 0 s.mem
  pure
    { s with
      mem := mem
      tree := built.clear
      freq := h.table
      dataLen := BitVec.ofNat 32 h.dataLength
      hdrLen := BitVec.ofNat 32 h.headerLength
      bitCursor := BitVec.ofNat 35 c
      resultLen := BitVec.ofNat 32 h.dataLength }

/-- DECODE (43_codec.md R245). -/
def execDecode (s : State) : Host.Outcome State Fault Refusal :=
  conclude true s (runDecode s)

end Sys2Proof.Machine
end

