-- ==== Sys2Proof/Machine/Dispatch.lean ====
section
/-! DEFINITION. The meaning of each command, one arm per constructor of Instr (30_encoding.md R112). -/

namespace Sys2Proof.Machine

/-- The run of a command from acceptance to completion (30_encoding.md R113). -/
def exec (i : Instr) (s : State) : Host.Outcome State Fault Refusal :=
  match i with
  | .encode => Sys2Proof.Machine.execEncode s
  | .decode => Sys2Proof.Machine.execDecode s
  | .bitsPack => Sys2Proof.Machine.execBitsPack s
  | .bitsUnpack => Sys2Proof.Machine.execBitsUnpack s
  | .freqBuild => Sys2Proof.Machine.execFreqBuild s
  | .freqCompress => Sys2Proof.Machine.execFreqCompress s
  | .freqDecompress => Sys2Proof.Machine.execFreqDecompress s
  | .hdrWrite => Sys2Proof.Machine.execHdrWrite s
  | .hdrParse => Sys2Proof.Machine.execHdrParse s
  | .treeBuild => Sys2Proof.Machine.execTreeBuild s
  | .codesDerive => Sys2Proof.Machine.execCodesDerive s
  | .treeDestroy => Sys2Proof.Machine.execTreeDestroy s
  | .decodeOne => Sys2Proof.Machine.execDecodeOne s
  | .bodyEncode => Sys2Proof.Machine.execBodyEncode s
  | .bodyDecode => Sys2Proof.Machine.execBodyDecode s

end Sys2Proof.Machine
end

