-- ==== Sys2Proof/WellFormed.lean ====
section
/-! DEFINITION. Well-formedness: of a command (it has no operand, so every one is), of the platform's parameters and
of a control-port access. -/

namespace Sys2Proof

/-- A command holds no register number and no immediate (30_encoding.md R111), so each is well formed as it stands. -/
def Instr.wellFormed : Instr → Bool
  | .encode | .decode => true
  | .bitsPack | .bitsUnpack => true
  | .freqBuild | .freqCompress | .freqDecompress | .hdrWrite | .hdrParse => true
  | .treeBuild | .codesDerive | .treeDestroy | .decodeOne => true
  | .bodyEncode | .bodyDecode => true

/-- `MEM_SIZE` is 1 to 2^32 (00_scope.md R13); a bus error or a device stands at a byte of the 32-bit address space
(20_memory.md R80). -/
def Config.wellFormed (c : Config) : Bool :=
  decide (1 ≤ c.memSize) && decide (c.memSize ≤ 2 ^ 32) &&
    c.memFaults.all (fun f => decide (f.1 < 2 ^ 32)) && c.devices.all (fun a => decide (a < 2 ^ 32))

/-- The size of the control port in bytes (10_state.md R34, 20_memory.md R81). -/
def portBytes : Nat := 0x4000

/-- A host address lies in the control port `[CSR_BASE, CSR_BASE + 16 KiB)` (20_memory.md R81). -/
def Config.inPort (c : Config) (addr : Nat) : Bool :=
  decide (c.csrBase ≤ addr) && decide (addr < c.csrBase + portBytes)

/-- A control-port access is defined only as a 32-bit access (size 4 bytes) at a 4-byte-aligned offset from
`CSR_BASE` (20_memory.md R87). -/
def Config.portAccessDefined (c : Config) (addr size : Nat) : Bool :=
  size == 4 && (addr - c.csrBase) % 4 == 0

end Sys2Proof
end

