-- ==== Sys2Proof/Machine/Port.lean ====
section
/-! DEFINITION. The host's side: the control-port map with its reads and writes (10_state.md R33 to R55, 20_memory.md R87,
70_reset_and_hazards.md R331), the tree build as STATUS shows it (42_tree.md R200), the host's accesses to shared memory
(70_reset_and_hazards.md R330), and reset (R320 to R322). -/

namespace Sys2Proof.Machine

/-- What stands at an offset of the control port (10_state.md R34). -/
inductive PortReg where
  | id
  | ctrl
  | status
  | irqStatus
  | cmd
  | srcAddr
  | srcLen
  | dstAddr
  | dstCap
  | resultLen
  | dataLen
  | hdrLen
  | bitCursorLo
  | bitCursorHi
  | bitCountLo
  | bitCountHi
  | symbol
  | errInfo
  | freq (sym : Fin 256)
  | codeLen (sym : Fin 256)
  | codeBits (sym : Fin 256) (word : Fin 8)
  | reserved
  deriving DecidableEq, Repr

/-- The register at a named offset below 0x400 (10_state.md R34); the rest are reserved. -/
def namedReg (off : Nat) : PortReg :=
  match off with
  | 0x000 => .id
  | 0x008 => .ctrl
  | 0x00C => .status
  | 0x010 => .irqStatus
  | 0x014 => .cmd
  | 0x018 => .srcAddr
  | 0x01C => .srcLen
  | 0x020 => .dstAddr
  | 0x024 => .dstCap
  | 0x028 => .resultLen
  | 0x02C => .dataLen
  | 0x030 => .hdrLen
  | 0x034 => .bitCursorLo
  | 0x038 => .bitCursorHi
  | 0x03C => .bitCountLo
  | 0x040 => .bitCountHi
  | 0x044 => .symbol
  | 0x048 => .errInfo
  | _ => .reserved

/-- The control-port map at a 4-byte-aligned offset (10_state.md R34, R53 to R55). -/
def portReg (off : Nat) : PortReg :=
  if off < 0x400 then namedReg off
  else if off < 0x800 then .freq (Fin.ofNat 256 ((off - 0x400) / 4))
  else if off < 0xC00 then .codeLen (Fin.ofNat 256 ((off - 0x800) / 4))
  else if off < 0x1000 then .reserved
  else if off < 0x3000 then
    .codeBits (Fin.ofNat 256 ((off - 0x1000) / 32)) (Fin.ofNat 8 ((off - 0x1000) / 4))
  else .reserved

/-- The value of ID, "HUFF" (10_state.md R33). -/
def idWord : Word := 0x46465548#32

/-! ### The build as STATUS shows it -/

/-- The command's run reaches `build_tree` (42_tree.md R210, 43_codec.md R244, R245). -/
def reachesBuild (i : Instr) (s : State) : Bool :=
  match i with
  | .encode => (encodeInput s).isOk
  | .decode => (decodeInput s).isOk
  | .treeBuild => (requireEmpty s).isOk
  | .bitsPack | .bitsUnpack | .freqBuild | .freqCompress | .freqDecompress | .hdrWrite | .hdrParse => false
  | .codesDerive | .treeDestroy | .decodeOne | .bodyEncode | .bodyDecode => false

/-- The command in flight builds a tree, so TREE_STATE moves while it runs (30_encoding.md R115). A command that ends
before `build_tree` leaves TREE_STATE as it is (DEDUCED, notes/assumptions/10.md). -/
def State.treeInMotion (s : State) : Bool :=
  s.busy &&
    (match decodeWord s.curCmd with
    | .ok i => reachesBuild i s
    | .error _ => false)

/-- The place of a stage in the order of a build (42_tree.md R200). -/
def BuildStage.rank : BuildStage → Nat
  | .notBegun => 0
  | .seeding => 1
  | .merging => 2
  | .rooted => 3
  | .destroyed => 4

/-- The stage at a place of the order. -/
def BuildStage.ofRank : Nat → BuildStage
  | 0 => .notBegun
  | 1 => .seeding
  | 2 => .merging
  | 3 => .rooted
  | _ => .destroyed

/-- What TREE_STATE is at a stage: EMPTY before the build and after the destroy (42_tree.md R200). -/
def BuildStage.shows : BuildStage → TreeState
  | .notBegun => .empty
  | .seeding => .seeding
  | .merging => .merging
  | .rooted => .rooted
  | .destroyed => .empty

/-- The last stage that the command passes while it runs: ENCODE and DECODE destroy their tree (43_codec.md R244,
R245), TREE_BUILD leaves it ROOTED (42_tree.md R210). -/
def lastStage (i : Instr) : BuildStage :=
  match i with
  | .encode | .decode => .destroyed
  | .treeBuild => .rooted
  | .bitsPack | .bitsUnpack | .freqBuild | .freqCompress | .freqDecompress | .hdrWrite | .hdrParse => .notBegun
  | .codesDerive | .treeDestroy | .decodeOne | .bodyEncode | .bodyDecode => .notBegun

/-- The stage at a host read of STATUS: how far the build has come by then is a free value, not before the stage of an
earlier read and not past the command's last (42_tree.md R200; notes/assumptions/9.md). -/
def State.stageNow (s : State) : BuildStage :=
  match decodeWord s.curCmd with
  | .ok i =>
    if s.treeInMotion then
      .ofRank (max s.buildStage.rank (min (lastStage i).rank (Config.freeBuildProgress s.draws)))
    else s.buildStage
  | .error _ => s.buildStage

/-- STATUS as a host read returns it now (10_state.md R36, R40): TREE_STATE is that of the build in flight while there
is one (70_reset_and_hazards.md R331). -/
def State.statusWord (s : State) : Word :=
  s.statusWith (if s.treeInMotion then s.stageNow.shows else s.tree.state).code

/-! ### Reads -/

/-- Whether reading the register draws a free value: a code window while CODES_VALID = 0 (10_state.md R54, R55), or
TREE_STATE while a tree is being built (30_encoding.md R115). -/
def State.readDraws (s : State) : PortReg → Bool
  | .codeLen _ => !s.codesValid
  | .codeBits _ _ => !s.codesValid
  | .status => s.treeInMotion
  | _ => false

/-- What a host read of a register returns now (10_state.md R33 to R55; while a command runs, R331). -/
def State.readReg (s : State) : PortReg → Word
  | .id => idWord
  | .ctrl => s.ctrlWord
  | .status => s.statusWord
  | .irqStatus => s.irqStatusWord
  | .cmd => s.curCmd
  | .srcAddr => s.srcAddr
  | .srcLen => s.srcLen
  | .dstAddr => s.dstAddr
  | .dstCap => s.dstCap
  | .resultLen => s.resultLen
  | .dataLen => s.dataLen
  | .hdrLen => s.hdrLen
  | .bitCursorLo => s.bitCursor.setWidth 32
  | .bitCursorHi => (s.bitCursor.extractLsb' 32 3).setWidth 32
  | .bitCountLo => s.bitCount.setWidth 32
  | .bitCountHi => (s.bitCount.extractLsb' 32 8).setWidth 32
  | .symbol => s.symbol.setWidth 32
  | .errInfo => s.errInfo
  | .freq sym => s.freq[sym]
  | .codeLen sym => if s.codesValid then (s.codeLen[sym]).setWidth 32 else Config.freeWindowWord s.draws
  | .codeBits sym w =>
    if s.codesValid then (s.codeBits[sym]).extractLsb' (32 * w.val) 32 else Config.freeWindowWord s.draws
  | .reserved => 0#32

/-- A host read: the value goes to the host, a free value drawn is not drawn again, and a build that STATUS has shown
to have come so far does not go back. -/
def hostReadReg (s : State) (r : PortReg) : State :=
  { s with
    busData := s.readReg r
    buildStage := if r = .status then s.stageNow else s.buildStage
    draws := if s.readDraws r then s.draws + 1 else s.draws }

/-! ### Reset and writes -/

/-- The command in flight may have written DST: it writes DST, and its precondition and prologue checks pass, else it
writes nothing (70_reset_and_hazards.md R321, 60_exceptions.md R289). -/
def State.mayHaveWritten (s : State) : Bool :=
  s.busy &&
    (match decodeWord s.curCmd with
    | .ok i =>
      usesDst i && s.dstInRange && (!usesSrc i || (s.srcInRange && !s.regionsOverlap)) &&
        (match i with
        | .encode | .decode => s.tree.state == .empty
        | .bodyDecode => s.tree.state == .rooted
        | .bodyEncode => s.codesValid
        | .bitsPack | .bitsUnpack | .freqCompress | .hdrWrite => true
        | .freqBuild | .freqDecompress | .hdrParse => true
        | .treeBuild | .codesDerive | .treeDestroy | .decodeOne => true)
    | .error _ => false)

/-- Reset, by `rst` or by CTRL.SOFT_RESET, at any time (70_reset_and_hazards.md R320 to R322): the command in flight is
abandoned without a completion, and each DST byte it might have written holds a free value (notes/assumptions/11.md). -/
def assertReset (s : State) : State :=
  if s.mayHaveWritten then
    resetEngine { s with
      mem := s.mem.havoc s.dstAddr.toNat s.dstCap.toNat s.draws
      draws := s.draws + s.dstCap.toNat }
  else resetEngine s

/-- A host write to CTRL, at any time (10_state.md R35): bit 1 resets and the IRQ_EN bit of the same write is
discarded. -/
def writeCtrl (s : State) (v : Word) : State :=
  if v.getLsbD 1 then assertReset s else { s with irqEn := v.getLsbD 0 }

/-- A host write to IRQ_STATUS, at any time: writing 1 to bit 0 clears DONE_PENDING (10_state.md R42). -/
def writeIrqStatus (s : State) (v : Word) : State :=
  if v.getLsbD 0 then { s with donePending := false } else s

/-- A host write to a register while no command runs (10_state.md R33 to R55; a CMD write is accepted, 30_encoding.md
R113). -/
def writeIdle (s : State) (r : PortReg) (v : Word) : State :=
  match r with
  | .ctrl => writeCtrl s v
  | .irqStatus => writeIrqStatus s v
  | .cmd => accept v s
  | .srcAddr => { s with srcAddr := v }
  | .srcLen => { s with srcLen := v }
  | .dstAddr => { s with dstAddr := v }
  | .dstCap => { s with dstCap := v }
  | .dataLen => { s with dataLen := v }
  | .bitCursorLo => { s with bitCursor := s.bitCursor.extractLsb' 32 3 ++ v }
  | .bitCursorHi => { s with bitCursor := v.setWidth 3 ++ s.bitCursor.setWidth 32 }
  | .freq sym => { s with freq := s.freq.set sym.val v sym.isLt }
  | .id | .status | .resultLen | .hdrLen | .bitCountLo | .bitCountHi | .symbol | .errInfo => s
  | .codeLen _ | .codeBits _ _ | .reserved => s

/-- A host write to a register while a command runs (10_state.md R41, 30_encoding.md R114, 70_reset_and_hazards.md R331):
all but CTRL and IRQ_STATUS is dropped and flagged; a reserved offset holds no register (93 U10;
DEDUCED, notes/assumptions/12.md), and a dropped CMD write sets both flags (DEDUCED, notes/assumptions/8.md). -/
def writeBusy (s : State) (r : PortReg) (v : Word) : State :=
  match r with
  | .ctrl => writeCtrl s v
  | .irqStatus => writeIrqStatus s v
  | .cmd => { s with wrIgnored := true, cmdDropped := true }
  | .id | .status | .srcAddr | .srcLen | .dstAddr | .dstCap | .resultLen | .dataLen | .hdrLen =>
    { s with wrIgnored := true }
  | .bitCursorLo | .bitCursorHi | .bitCountLo | .bitCountHi | .symbol | .errInfo => { s with wrIgnored := true }
  | .freq _ | .codeLen _ | .codeBits _ _ => { s with wrIgnored := true }
  | .reserved => s

/-- A host write to a register. -/
def hostWriteReg (s : State) (r : PortReg) (v : Word) : State :=
  if s.busy then writeBusy s r v else writeIdle s r v

/-- A control-port read (20_memory.md R81, R87). -/
def portRead (s : State) (addr size : Nat) : Host.Outcome State Fault Refusal :=
  if !s.cfg.inPort addr then .refused (.outsidePort addr)
  else if !s.cfg.portAccessDefined addr size then .refused (.narrowPortAccess addr size)
  else .next (hostReadReg s (portReg (addr - s.cfg.csrBase)))

/-- A control-port write (20_memory.md R81, R87). -/
def portWrite (s : State) (addr size : Nat) (v : Word) : Host.Outcome State Fault Refusal :=
  if !s.cfg.inPort addr then .refused (.outsidePort addr)
  else if !s.cfg.portAccessDefined addr size then .refused (.narrowPortAccess addr size)
  else .next (hostWriteReg s (portReg (addr - s.cfg.csrBase)) v)

/-- `a` is a byte of a region that the command uses (20_memory.md R88, 30_encoding.md R116). -/
def State.usesByte (s : State) (i : Instr) (a : Nat) : Bool :=
  (usesSrc i && s.inSrc a) || (usesDst i && s.inDst a)

/-- `a` is a byte of the running command's SRC or DST, so no other agent may touch it (70_reset_and_hazards.md R330,
93_implementation_defined.md U6). -/
def State.regionInUse (s : State) (a : Nat) : Bool :=
  s.busy &&
    (match decodeWord s.curCmd with
    | .ok i => s.usesByte i a
    | .error _ => false)

/-- An access of the host or another agent to a byte of shared memory, which leads to `t` where it may take place
(20_memory.md R80, R91, 70_reset_and_hazards.md R330; notes/assumptions/13.md, 14.md, 15.md). -/
def hostMemAccess (s : State) (a : Nat) (t : State) : Host.Outcome State Fault Refusal :=
  if ¬ a < s.cfg.memSize then .fault (.hostByteOutsideMemory a)
  else if s.cfg.devices.contains a then .refused .deviceInMemory
  else if s.regionInUse a then .refused (.regionInUse a)
  else .next t

/-- A read of a byte of shared memory by the host or another agent (20_memory.md R80). -/
def hostMemRead (s : State) (a : Nat) : Host.Outcome State Fault Refusal :=
  hostMemAccess s a { s with busData := (s.mem.read a).setWidth 32 }

/-- A write of a byte of shared memory by the host or another agent (20_memory.md R80). -/
def hostMemWrite (s : State) (a : Nat) (v : Byte) : Host.Outcome State Fault Refusal :=
  hostMemAccess s a { s with mem := s.mem.write a v }

/-- A region of the command covers a device with read side effects: outside the spec (20_memory.md R91, 93 U14;
DESIGN CHOICE, notes/assumptions/15.md). -/
def State.coversDevice (s : State) (i : Instr) : Bool :=
  s.cfg.devices.any (s.usesByte i)

end Sys2Proof.Machine
end

