-- ==== Sys2Proof/Machine/Step.lean ====
section
/-! DEFINITION. One step of the block and its surroundings (00_scope.md R11, R12; 30_encoding.md R113 to R115): the agenda
says who moves. A CMD write that is accepted is one step, which latches the command and sets BUSY, or completes a word
that is no command; the engine's turn is one step, which runs the latched command to its completion; between the two the
host's accesses of the busy interval may stand. -/

namespace Sys2Proof.Machine

/-- The engine runs the latched command word from acceptance to completion (30_encoding.md R113, R115). A word that is
no command has completed at acceptance (R118), so none is latched here; the arm for it, which no run reaches, completes it
in the same way. -/
def runLatched (s : State) : Host.Outcome State Fault Refusal :=
  match decodeBytes (bytesOfWord s.curCmd) with
  | .error _ => conclude false s (s.raise .illegalCmd s.curCmd)
  | .ok (i, _) => if s.coversDevice i then .refused .deviceInMemory else exec i s

/-- The engine's turn: while PHASE is IDLE it does nothing and keeps its state (60_exceptions.md R301). -/
def engineTurn (s : State) : Host.Outcome State Fault Refusal :=
  if s.busy then runLatched s else .next s

/-- One step: the oldest entry of the agenda takes place; with nothing on it the engine has the turn (DESIGN CHOICE,
notes/assumptions/2.md, 16.md). -/
def step (s : State) : Host.Outcome State Fault Refusal :=
  match s.agenda with
  | [] => engineTurn s
  | .engine :: rest => engineTurn { s with agenda := rest }
  | .portRead addr size :: rest => portRead { s with agenda := rest } addr size
  | .portWrite addr size v :: rest => portWrite { s with agenda := rest } addr size v
  | .memRead a :: rest => hostMemRead { s with agenda := rest } a
  | .memWrite a v :: rest => hostMemWrite { s with agenda := rest } a v
  | .rst :: rest => .next (assertReset { s with agenda := rest })

/-- `s` just after the acceptance of the command word that an instruction's bits make, with the engine to move: a
command reaches the engine only through the command latch (20_memory.md R100, 30_encoding.md R113). -/
def State.withFetchWord (s : State) (nbits w : Nat) : State :=
  accept (tableWord nbits w) { s with agenda := .engine :: s.agenda }

end Sys2Proof.Machine
end

