-- ==== Sys2Proof/Safety.lean ====
section
/-! DEFINITION. The terms in which the claims are written: the completion of a command, regions and the bytes a claim reads,
a built tree and the walks in it, the contents of a header, and the invariant of the machine. -/

namespace Sys2Proof.Machine

/-! ### Completion and regions -/

/-- `s` with the completion fields of `complete(code, info)` and nothing else changed (60_exceptions.md R287). -/
def State.completed (s : State) (code : ErrCode) (info : Word) : State :=
  { s with
    errCode := code, errInfo := info, err := !(code == .none), done := true, phase := .idle, donePending := true
    buildStage := .notBegun }

/-- The platform rejects no access of the kind in `[lo, lo + n)` (20_memory.md R92). -/
def NoFault (c : Config) (kind : AccessKind) (lo n : Nat) : Prop :=
  ∀ a, lo ≤ a → a < lo + n → (a, kind) ∉ c.memFaults

/-- The platform as it would be with no access rejected (20_memory.md R92, the default parameter). -/
def unrejected (c : Config) : Config :=
  { c with memFaults := [] }

/-- SRC is in range (20_memory.md R89) and every byte of it can be read. -/
def State.srcReady (s : State) : Prop :=
  s.srcAddr.toNat + s.srcLen.toNat ≤ s.cfg.memSize ∧ NoFault s.cfg .read s.srcAddr.toNat s.srcLen.toNat

/-- DST is in range (20_memory.md R89), it has room for `n` bytes, and its first `n` bytes can be written. -/
def State.dstReady (s : State) (n : Nat) : Prop :=
  s.dstAddr.toNat + s.dstCap.toNat ≤ s.cfg.memSize ∧ n ≤ s.dstCap.toNat ∧ NoFault s.cfg .write s.dstAddr.toNat n

/-- SRC and DST share no byte (20_memory.md R90). -/
abbrev State.disjoint (s : State) : Prop :=
  s.srcLen = 0#32 ∨ s.dstCap = 0#32 ∨ s.dstAddr.toNat + s.dstCap.toNat ≤ s.srcAddr.toNat ∨
    s.srcAddr.toNat + s.srcLen.toNat ≤ s.dstAddr.toNat

/-- Every byte outside `[lo, lo + n)` reads as before. -/
def SameOutside (m m' : Memory) (lo n : Nat) : Prop :=
  ∀ a, ¬ (lo ≤ a ∧ a < lo + n) → m'.read a = m.read a

/-- The bytes `bs` stand at `a`, `a + 1`, … -/
def HoldsAt (m : Memory) (a : Nat) (bs : List Byte) : Prop :=
  ∀ i, (h : i < bs.length) → m.read (a + i) = bs[i]

/-- The bytes of SRC (20_memory.md R88). -/
def State.srcBytes (s : State) : List Byte :=
  (List.range s.srcLen.toNat).map (fun i => s.mem.read (s.srcAddr.toNat + i))

/-- Bit `i` of the packed stream at `base`: bit `i mod 8` of byte `i div 8` (20_memory.md R83). -/
def streamBit (m : Memory) (base i : Nat) : Bool :=
  (m.read (base + i / 8)).getLsbD (i % 8)

/-- The packed stream at `base` goes on with `bits` from bit `c` on. -/
def StreamHas (m : Memory) (base c : Nat) (bits : List Bool) : Prop :=
  ∀ i, (h : i < bits.length) → streamBit m base (c + i) = bits[i]

/-- The platform rejects no read of a byte that holds one of the `n` stream bits from bit `c` on (20_memory.md R92). -/
def BitsReadable (cfg : Config) (base c n : Nat) : Prop :=
  ∀ j, c ≤ j → j < c + n → (base + j / 8, AccessKind.read) ∉ cfg.memFaults

/-! ### Trees -/

/-- Going from node `n` left on 0 and right on 1 along the bits ends at the leaf of `sym` (42_tree.md R209). -/
def Leads (arena : Vector Node 511) : NodeId → Code → Byte → Prop
  | n, [], sym => arena[n].kind = .leaf sym
  | n, b :: bs, sym => ∃ l r, arena[n].kind = .internal l r ∧ Leads arena (if b then r else l) bs sym

/-- No leaf is reached from node `n` along the bits, or by any part of them from their start. -/
def Astray (arena : Vector Node 511) : NodeId → Code → Prop
  | n, [] => ∃ l r, arena[n].kind = .internal l r
  | n, b :: bs => ∃ l r, arena[n].kind = .internal l r ∧ Astray arena (if b then r else l) bs

/-- The order of `PQ` on arena nodes: by frequency, then by identity (10_state.md R59). -/
def NodeBefore (arena : Vector Node 511) (a b : NodeId) : Prop :=
  arena[a].freq.toNat < arena[b].freq.toNat ∨ (arena[a].freq = arena[b].freq ∧ a < b)

/-- What every ROOTED tree is (10_state.md R57 to R61, 42_tree.md R205, R206). -/
structure Tree.Built (t : Tree) : Prop where
  rooted : t.state = .rooted
  root : t.root = 510
  pq : t.pq = []
  valid : ∀ i : NodeId, t.arena[i].valid = true
  id : ∀ i : NodeId, t.arena[i].id = i
  leaf : ∀ sym : Fin 256, t.arena[leafId sym].kind = .leaf (BitVec.ofNat 8 sym.val)
  internal : ∀ i : NodeId, 256 ≤ i.val → ∃ l r, t.arena[i].kind = .internal l r ∧ l ≠ r ∧ l < i ∧ r < i ∧
    t.arena[l].parent = some i ∧ t.arena[r].parent = some i ∧
    t.arena[i].freq.toNat = t.arena[l].freq.toNat + t.arena[r].freq.toNat
  parent : ∀ i : NodeId, i.val < 510 → ∃ p l r, t.arena[i].parent = some p ∧ 256 ≤ p.val ∧ i < p ∧
    t.arena[p].kind = .internal l r ∧ (i = l ∨ i = r)
  rootParent : t.arena[(510 : NodeId)].parent = none

/-- No arena entry is valid and PQ is empty (10_state.md R61). -/
structure Tree.Vacant (t : Tree) : Prop where
  empty : t.state = .empty
  pq : t.pq = []
  valid : ∀ i : NodeId, t.arena[i].valid = false

/-- Node `x` stands unmerged when node `m` is made: it is older than `m` and its parent is `m` or a younger node
(42_tree.md R202). -/
def Unmerged (arena : Vector Node 511) (m x : NodeId) : Prop :=
  x < m ∧ ∀ p, arena[x].parent = some p → m ≤ p

/-- Every merge took the least unmerged node as left child and the least of the rest as right child
(42_tree.md R202). -/
def MergesLeast (arena : Vector Node 511) : Prop :=
  ∀ m l r : NodeId, arena[m].kind = .internal l r → 256 ≤ m.val →
    Unmerged arena m l ∧ Unmerged arena m r ∧ NodeBefore arena l r ∧
      ∀ x, Unmerged arena m x → x ≠ l → x ≠ r → NodeBefore arena r x

/-! ### Tables and headers -/

/-- The entries of one bucket as bytes: their number, then each symbol and its count in `w` bytes
(20_memory.md R102). -/
def entryBytes (w : Nat) (es : List (Byte × Nat)) : List Byte :=
  le es.length 4 ++ es.flatMap (fun e => e.1 :: le e.2 w)

/-- A compressed table of three lists of entries (20_memory.md R102); unlike `compress` it takes any entries. -/
def tableBytes (eB eS eI : List (Byte × Nat)) : List Byte :=
  entryBytes 1 eB ++ entryBytes 2 eS ++ entryBytes 4 eI

/-- Every count fits the width of its bucket. -/
def CountsFit (eB eS eI : List (Byte × Nat)) : Prop :=
  (∀ e ∈ eB, e.2 < 2 ^ 8) ∧ (∀ e ∈ eS, e.2 < 2 ^ 16) ∧ (∀ e ∈ eI, e.2 < 2 ^ 32)

/-- The table after the entries are assigned in order to an all-zero table: the last entry of a symbol wins
(41_frequency.md R165, R166). -/
def assigned (es : List (Byte × Nat)) : FreqTable :=
  Vector.ofFn (fun sym : Fin 256 =>
    match es.reverse.find? (fun e => e.1.toNat == sym.val) with
    | some e => BitVec.ofNat 32 e.2
    | none => 0#32)

/-- The number of symbols below `n` whose count `c` has `lo ≤ c < hi` (41_frequency.md R162). -/
def countsIn (F : FreqTable) (lo hi n : Nat) : Nat :=
  (symbols.filter (fun sym => decide (sym.val < n) && decide (lo ≤ F[sym].toNat ∧ F[sym].toNat < hi))).length

/-! ### Preconditions -/

/-- The command's precondition on engine state, and the information word of STATE when it fails
(60_exceptions.md R283). -/
def stateError (i : Instr) (s : State) : Option Word :=
  match i with
  | .encode | .decode | .treeBuild => if s.tree.state = .empty then none else some 1#32
  | .codesDerive | .treeDestroy | .decodeOne | .bodyDecode => if s.tree.state = .rooted then none else some 2#32
  | .bodyEncode => if s.codesValid then none else some 3#32
  | .bitsPack | .bitsUnpack | .freqBuild | .freqCompress | .freqDecompress | .hdrWrite | .hdrParse => none

/-- The error the checks before a command's own work report, in their order (60_exceptions.md R282 (2) to (5)). -/
def prologueError (i : Instr) (s : State) : Option (ErrCode × Word) :=
  match stateError i s with
  | some w => some (.state, w)
  | none =>
    if usesSrc i ∧ s.cfg.memSize < s.srcAddr.toNat + s.srcLen.toNat then some (.bounds, 0#32)
    else if usesDst i ∧ s.cfg.memSize < s.dstAddr.toNat + s.dstCap.toNat then some (.bounds, 1#32)
    else if usesSrc i ∧ usesDst i ∧ ¬ s.disjoint then some (.overlap, 0#32)
    else none

/-- The run of the command gets as far as `build_tree`: its checks pass; ENCODE can read all of SRC; DECODE's header reads
without an error, as HDR_PARSE would read it, and its data length fits DST_CAP (42_tree.md R210, 43_codec.md R244, R245). -/
def State.buildsTree (s : State) (i : Instr) : Prop :=
  prologueError i s = none ∧
    match i with
    | .encode => NoFault s.cfg .read s.srcAddr.toNat s.srcLen.toNat
    | .decode => ∃ u, exec .hdrParse s = .next u ∧ u.err = false ∧ u.dataLen.toNat ≤ s.dstCap.toNat
    | .treeBuild => True
    | .bitsPack | .bitsUnpack | .freqBuild | .freqCompress | .freqDecompress | .hdrWrite | .hdrParse => False
    | .codesDerive | .treeDestroy | .decodeOne | .bodyEncode | .bodyDecode => False

/-- `a` is a byte that the command may access and whose access the platform rejects (20_memory.md R88, R92). -/
def State.rejects (s : State) (i : Instr) (a : Nat) : Prop :=
  (usesSrc i = true ∧ s.inSrc a = true ∧ (a, AccessKind.read) ∈ s.cfg.memFaults) ∨
    (usesDst i = true ∧ s.inDst a = true ∧ (a, AccessKind.write) ∈ s.cfg.memFaults)

/-- The errors a command can report (60_exceptions.md R284). -/
def mayReport : Instr → List ErrCode
  | .encode => [.bounds, .overlap, .state, .dstOverflow, .memFault]
  | .decode =>
    [.bounds, .overlap, .state, .dstOverflow, .malformedHeader, .invalidFrequencyData, .truncatedStream, .memFault]
  | .bitsPack | .bitsUnpack => [.bounds, .overlap, .dstOverflow, .memFault]
  | .freqBuild => [.bounds, .memFault]
  | .freqCompress | .hdrWrite => [.bounds, .dstOverflow, .memFault]
  | .freqDecompress => [.bounds, .invalidFrequencyData, .memFault]
  | .hdrParse => [.bounds, .malformedHeader, .invalidFrequencyData, .memFault]
  | .treeBuild | .codesDerive | .treeDestroy => [.state]
  | .decodeOne => [.bounds, .state, .truncatedStream, .memFault]
  | .bodyEncode => [.bounds, .overlap, .state, .dstOverflow, .memFault]
  | .bodyDecode => [.bounds, .overlap, .state, .dstOverflow, .truncatedStream, .memFault]

/-- The stages of a tree build with their places in its order (42_tree.md R200). -/
def buildOrder : List (BuildStage × Nat) :=
  [(.notBegun, 0), (.seeding, 1), (.merging, 2), (.rooted, 3), (.destroyed, 4)]

/-! ### The invariant -/

/-- What holds of the machine between steps. -/
structure Invariant (s : State) : Prop where
  /-- Memory is in its canonical form. -/
  memWf : s.mem.wf
  /-- Only bytes of the address space 0 to `MEM_SIZE` - 1 are listed (20_memory.md R80). -/
  memRange : ∀ c ∈ s.mem, c.1 < s.cfg.memSize
  /-- While BUSY, DONE, ERR, ERRCODE, RESULT_LEN and ERR_INFO are 0 (70_reset_and_hazards.md R331). -/
  busyClear : s.phase = .run →
    s.done = false ∧ s.err = false ∧ s.errCode = .none ∧ s.resultLen = 0#32 ∧ s.errInfo = 0#32
  /-- ERR = 1 exactly when DONE = 1 and ERRCODE ≠ 0 (10_state.md R38). -/
  errExact : s.err = true ↔ s.done = true ∧ s.errCode ≠ .none
  /-- A command that succeeds leaves ERR_INFO 0 (10_state.md R52). -/
  infoClear : s.errCode = .none → s.errInfo = 0#32
  /-- A command that fails leaves RESULT_LEN 0 (10_state.md R46). -/
  resultClear : s.err = true → s.resultLen = 0#32
  /-- Between steps the tree is EMPTY with no valid entry, or ROOTED and built (10_state.md R40, R61). -/
  tree : s.tree.Vacant ∨ s.tree.Built
  /-- With CODES_VALID = 1 every code has 1 to 255 bits and the RAM bits above it are 0 (10_state.md R54, R55). -/
  codes : s.codesValid = true → ∀ sym : Fin 256,
    1 ≤ (s.codeLen[sym]).toNat ∧ ∀ k, (s.codeLen[sym]).toNat ≤ k → (s.codeBits[sym]).getLsbD k = false
  /-- Only a command's word runs: an illegal word completes at acceptance (30_encoding.md R113, R118). -/
  runsCommand : s.phase = .run → ∃ i, s.curCmd = encode i
  /-- While no command runs no build is in flight (10_state.md R40). -/
  noBuild : s.phase = .idle → s.buildStage = .notBegun

/-- The word in the command latch is a command's. -/
def State.running (s : State) (i : Instr) : Prop :=
  s.phase = .run ∧ s.curCmd = encode i

end Sys2Proof.Machine
end

