-- ==== Sys2Proof/Certificates/Slice0/Obligations.lean ====
section
/-! DEFINITION. The statements for the provers. Each docstring names the rule it formalises; where a clause rests on a
choice of the model, the docstring names the log entry. -/

open Sys2Proof Sys2Proof.Machine

/-! ### Encoding -/

/-- 30_encoding.md R112: each of the fifteen words selects the command of its row. -/
def Obligations.OpcodeMapWordsDecode : Prop :=
  decodeWord 0x00000001#32 = .ok .encode ∧ decodeWord 0x00000002#32 = .ok .decode ∧
  decodeWord 0x00000010#32 = .ok .bitsPack ∧ decodeWord 0x00000011#32 = .ok .bitsUnpack ∧
  decodeWord 0x00000020#32 = .ok .freqBuild ∧ decodeWord 0x00000021#32 = .ok .freqCompress ∧
  decodeWord 0x00000022#32 = .ok .freqDecompress ∧ decodeWord 0x00000023#32 = .ok .hdrWrite ∧
  decodeWord 0x00000024#32 = .ok .hdrParse ∧ decodeWord 0x00000030#32 = .ok .treeBuild ∧
  decodeWord 0x00000031#32 = .ok .codesDerive ∧ decodeWord 0x00000032#32 = .ok .treeDestroy ∧
  decodeWord 0x00000033#32 = .ok .decodeOne ∧ decodeWord 0x00000040#32 = .ok .bodyEncode ∧
  decodeWord 0x00000041#32 = .ok .bodyDecode

/-- Decoding the bytes of an encoded command gives it back with the bytes after it, and every word that is no
command's is rejected (30_encoding.md R112, R118, R119). -/
def Obligations.DecodeAndEncodeAgree : Prop :=
  (∀ i rest, decodeBytes (bytesOfWord (encode i) ++ rest) = .ok (i, rest)) ∧
  (∀ w, (∀ i, w ≠ encode i) → decodeWord w = .error (.notACommand w)) ∧
  (∀ w i, decodeWord w = .ok i → w = encode i)

/-! ### Acceptance, the engine's turn and completion -/

/-- A step is exec of the latched command (30_encoding.md R113, R115); while idle the engine keeps all its state
(60_exceptions.md R301). An illegal word has completed at acceptance (R118), so none is latched in a state that meets the
invariant; the engine's turn on one would complete it. The agenda entry `engine` and the empty agenda are the model's
(notes/assumptions/2.md). -/
def Obligations.EngineTurnRunsTheLatchedCommand : Prop :=
  ∀ s : State,
    (∀ i, s.running i → s.coversDevice i = false →
      (s.agenda = [] → step s = exec i s) ∧
      (∀ rest, s.agenda = .engine :: rest → step s = exec i { s with agenda := rest })) ∧
    (s.phase = .run → (∀ i, s.curCmd ≠ encode i) →
      (s.agenda = [] → step s = .next (s.completed .illegalCmd s.curCmd)) ∧
      (∀ rest, s.agenda = .engine :: rest →
        step s = .next (State.completed { s with agenda := rest } .illegalCmd s.curCmd))) ∧
    (s.phase = .idle →
      (s.agenda = [] → step s = .next s) ∧
      (∀ rest, s.agenda = .engine :: rest → step s = .next { s with agenda := rest }))

/-- 30_encoding.md R113, R118, 60_exceptions.md R282 (1): a CMD write while BUSY = 0, whatever accesses wait behind it, is
accepted (what it clears and sets). A word that selects no command completes in that step with ILLEGAL_CMD and the word; a
command's word is latched, and the engine's turn runs the command. -/
def Obligations.CmdWriteIsAcceptedAndRuns : Prop :=
  ∀ (s : State) (w : Word) (rest : List HostOp), s.phase = .idle →
    s.agenda = .portWrite (s.cfg.csrBase + 0x014) 4 w :: rest →
    ∃ a : State,
      a = { s with
            agenda := rest, curCmd := w, done := false, err := false, errCode := .none, wrIgnored := false,
            cmdDropped := false, errInfo := 0#32, resultLen := 0#32, phase := .run } ∧
      ((∀ i, w ≠ encode i) → step s = .next (a.completed .illegalCmd w)) ∧
      (∀ i, w = encode i → step s = .next a ∧
        (a.coversDevice i = false → (rest = [] → step a = exec i a) ∧
          ∀ more, rest = .engine :: more → step a = exec i { a with agenda := more }))

/-- 60_exceptions.md R287, R292: every command ends with a completion: DONE, BUSY = 0, DONE_PENDING, `irq` exactly when
IRQ_EN = 1, ERR exactly when the code is not 0, and after ENCODE and DECODE the arena EMPTY unless the code is STATE. -/
def Obligations.EveryCommandCompletes : Prop :=
  ∀ (i : Instr) (s : State), ∃ t, exec i s = .next t ∧ t.irq = s.irqEn ∧
    t.done = true ∧ t.phase = .idle ∧ t.donePending = true ∧ (t.err = true ↔ t.errCode ≠ .none) ∧
    ((i = .encode ∨ i = .decode) → t.errCode ≠ .state →
      t.tree.state = .empty ∧ ∀ n : NodeId, (t.tree.arena[n]).valid = false)

/-- 60_exceptions.md R288, R20: a command that fails changes the completion fields and shared memory alone. -/
def Obligations.FailedCommandKeepsRegisters : Prop :=
  ∀ (i : Instr) (s t : State), Invariant s → exec i s = .next t → t.err = true →
    t = State.completed { s with mem := t.mem } t.errCode t.errInfo

/-- 60_exceptions.md R284: the error codes each command can raise. -/
def Obligations.CommandsReportOnlyTheirErrors : Prop :=
  ∀ (i : Instr) (s t : State), exec i s = .next t → t.err = true → t.errCode ∈ mayReport i

/-- 60_exceptions.md R282 (2) to (5), R283, R89, R90, R117: the STATE precondition, then BOUNDS(0), BOUNDS(1) and
OVERLAP(0), the first that fails being reported with nothing else changed. -/
def Obligations.PrologueErrorsInOrder : Prop :=
  ∀ (i : Instr) (s : State) (e : ErrCode) (info : Word), Invariant s → prologueError i s = some (e, info) →
    exec i s = .next (s.completed e info)

/-- 10_state.md R44, R45: the engine never writes SRC_ADDR, SRC_LEN, DST_ADDR and DST_CAP; nor does a command write the
platform, CTRL, the busy-write flags, the command latch or the host's side. -/
def Obligations.CommandsKeepOperandRegisters : Prop :=
  ∀ (i : Instr) (s t : State), exec i s = .next t →
    t.srcAddr = s.srcAddr ∧ t.srcLen = s.srcLen ∧ t.dstAddr = s.dstAddr ∧ t.dstCap = s.dstCap ∧
    t.cfg = s.cfg ∧ t.irqEn = s.irqEn ∧ t.wrIgnored = s.wrIgnored ∧ t.cmdDropped = s.cmdDropped ∧
    t.curCmd = s.curCmd ∧ t.agenda = s.agenda ∧ t.busData = s.busData ∧ t.draws = s.draws

/-- 20_memory.md R88, 60_exceptions.md R289: a command writes only bytes of DST, a command without DST writes none, and
a failure other than TRUNCATED_STREAM and MEM_FAULT writes none. -/
def Obligations.CommandsWriteOnlyDst : Prop :=
  ∀ (i : Instr) (s t : State), exec i s = .next t →
    SameOutside s.mem t.mem s.dstAddr.toNat s.dstCap.toNat ∧
    (usesDst i = false → t.mem = s.mem) ∧
    (t.err = true → t.errCode ≠ .truncatedStream → t.errCode ≠ .memFault → t.mem = s.mem)

/-- 20_memory.md R93, 10_state.md R46: a command that succeeds wrote RESULT_LEN bytes at most from DST_ADDR on, and
every other byte keeps its value. -/
def Obligations.SuccessWritesResultLenBytes : Prop :=
  ∀ (i : Instr) (s t : State), s.resultLen = 0#32 → exec i s = .next t → t.err = false →
    t.resultLen.toNat ≤ s.dstCap.toNat ∧ SameOutside s.mem t.mem s.dstAddr.toNat t.resultLen.toNat ∧
    (usesDst i = false → t.resultLen = 0#32)

/-- 20_memory.md R88: a command reads only bytes of SRC, and a command without SRC reads none: memories that agree on SRC,
or any two for a command without SRC, give the same registers, RAMs, tree and completion. -/
def Obligations.CommandsReadOnlySrc : Prop :=
  ∀ (i : Instr) (s t t' : State) (m : Memory),
    (usesSrc i = true → ∀ a, s.inSrc a = true → m.read a = s.mem.read a) →
    exec i s = .next t → exec i { s with mem := m } = .next t' →
    t' = { t with mem := t'.mem }

/-- 30_encoding.md R114, 70_reset_and_hazards.md R331: the flags that dropped writes set do not change what the command
in flight does. -/
def Obligations.DroppedWritesDoNotDisturbTheCommand : Prop :=
  ∀ (i : Instr) (s t : State) (a b : Bool), exec i s = .next t →
    exec i { s with wrIgnored := a, cmdDropped := b } = .next { t with wrIgnored := a, cmdDropped := b }

/-! ### BitPacker -/

/-- 40_bitpacker.md R143: BITS_PACK. -/
def Obligations.BitsPackPacksSrc : Prop :=
  ∀ s : State, s.srcReady → s.dstReady ((s.srcLen.toNat + 7) / 8) → s.disjoint →
    ∃ m, exec .bitsPack s = .next (State.completed
        { s with
          mem := m
          resultLen := BitVec.ofNat 32 ((s.srcLen.toNat + 7) / 8)
          bitCount := BitVec.ofNat 40 s.srcLen.toNat } .none 0#32) ∧
      (∀ i, i < 8 * ((s.srcLen.toNat + 7) / 8) → streamBit m s.dstAddr.toNat i =
        (decide (i < s.srcLen.toNat) && s.mem.read (s.srcAddr.toNat + i) != 0#8)) ∧
      SameOutside s.mem m s.dstAddr.toNat ((s.srcLen.toNat + 7) / 8)

/-- 40_bitpacker.md R144: BITS_UNPACK. -/
def Obligations.BitsUnpackUnpacksSrc : Prop :=
  ∀ s : State, s.srcReady → s.dstReady (8 * s.srcLen.toNat) → s.disjoint →
    ∃ m, exec .bitsUnpack s = .next (State.completed
        { s with
          mem := m
          resultLen := BitVec.ofNat 32 (8 * s.srcLen.toNat)
          bitCount := BitVec.ofNat 40 (8 * s.srcLen.toNat) } .none 0#32) ∧
      (∀ i, i < 8 * s.srcLen.toNat → m.read (s.dstAddr.toNat + i) =
        if streamBit s.mem s.srcAddr.toNat i then 0x01#8 else 0x00#8) ∧
      SameOutside s.mem m s.dstAddr.toNat (8 * s.srcLen.toNat)

/-- 40_bitpacker.md R142: the laws of `pack` and `unpack`. -/
def Obligations.PackAndUnpackLaws : Prop :=
  (∀ b : List Bool, unpack (pack b) = b ++ List.replicate (8 * ((b.length + 7) / 8) - b.length) false) ∧
  (∀ bs : List Byte, pack (unpack bs) = bs) ∧
  (∀ b : List Bool, (pack b).length = (b.length + 7) / 8)

/-! ### FrequencyTable -/

/-- 41_frequency.md R169, R160: FREQ_BUILD counts each symbol of SRC and sets DATA_LEN to SRC_LEN, to which the counters
sum. -/
def Obligations.FreqBuildCountsSrc : Prop :=
  ∀ s : State, s.srcReady →
    ∃ F : FreqTable, exec .freqBuild s = .next (State.completed { s with freq := F, dataLen := s.srcLen } .none 0#32) ∧
      (symbols.map (fun sym => (F[sym]).toNat)).sum = s.srcLen.toNat ∧
      ∀ sym : Fin 256, (F[sym]).toNat =
        ((List.range s.srcLen.toNat).filter
          (fun i => (s.mem.read (s.srcAddr.toNat + i)).toNat == sym.val)).length

/-- 41_frequency.md R161, R162, R163: a compressed table has a bucket of one-byte counts `0 < c < 255`, one of two-byte
counts `255 ≤ c < 65535` and one of four-byte counts `65535 ≤ c`; where each of its fields stands: the entry count of a
bucket, then its symbols in ascending order, each with its count in the bucket's width; and the table's length, from 12
(all counts zero) to 1292 (every count at least 65535). -/
def Obligations.CompressedTableLayout : Prop :=
  (∀ (F : FreqTable) (nB nS nI : Nat), nB = countsIn F 1 255 256 → nS = countsIn F 255 65535 256 →
    nI = countsIn F 65535 (2 ^ 32) 256 →
    (compress F).length = 12 + 2 * nB + 3 * nS + 5 * nI ∧ 12 ≤ (compress F).length ∧ (compress F).length ≤ 1292 ∧
    ∀ lo hi w p : Nat,
      (lo, hi, w, p) ∈ [(1, 255, 1, 0), (255, 65535, 2, 4 + 2 * nB), (65535, 2 ^ 32, 4, 8 + 2 * nB + 3 * nS)] →
      (∀ j, j < 4 → (compress F)[p + j]? = some (BitVec.ofNat 8 (countsIn F lo hi 256 / 256 ^ j))) ∧
      ∀ (sym : Fin 256) (q : Nat), lo ≤ (F[sym]).toNat → (F[sym]).toNat < hi →
        q = p + 4 + countsIn F lo hi sym.val * (1 + w) →
        (compress F)[q]? = some (BitVec.ofNat 8 sym.val) ∧
        ∀ j, j < w → (compress F)[q + 1 + j]? = some (BitVec.ofNat 8 ((F[sym]).toNat / 256 ^ j))) ∧
  (∀ F : FreqTable, (∀ sym : Fin 256, F[sym] = 0#32) → (compress F).length = 12) ∧
  ∀ F : FreqTable, (∀ sym : Fin 256, 65535 ≤ (F[sym]).toNat) → (compress F).length = 1292

/-- 41_frequency.md R170: FREQ_COMPRESS writes the compressed FREQ. -/
def Obligations.FreqCompressWritesTable : Prop :=
  ∀ s : State, s.dstReady (compress s.freq).length →
    ∃ m, exec .freqCompress s = .next (State.completed
        { s with mem := m, resultLen := BitVec.ofNat 32 (compress s.freq).length } .none 0#32) ∧
      HoldsAt m s.dstAddr.toNat (compress s.freq) ∧
      SameOutside s.mem m s.dstAddr.toNat (compress s.freq).length

/-- 41_frequency.md R172, R164: HDR_WRITE writes the header length, DATA_LEN and the compressed FREQ, 20 to 1300
bytes. -/
def Obligations.HdrWriteWritesHeader : Prop :=
  ∀ s : State, s.dstReady (8 + (compress s.freq).length) →
    20 ≤ 8 + (compress s.freq).length ∧ 8 + (compress s.freq).length ≤ 1300 ∧
    ∃ m, exec .hdrWrite s = .next (State.completed
        { s with
          mem := m
          hdrLen := BitVec.ofNat 32 (8 + (compress s.freq).length)
          resultLen := BitVec.ofNat 32 (8 + (compress s.freq).length) } .none 0#32) ∧
      (∀ j, j < 4 → m.read (s.dstAddr.toNat + j) = BitVec.ofNat 8 ((8 + (compress s.freq).length) / 256 ^ j)) ∧
      (∀ j, j < 4 → m.read (s.dstAddr.toNat + 4 + j) = BitVec.ofNat 8 (s.dataLen.toNat / 256 ^ j)) ∧
      HoldsAt m (s.dstAddr.toNat + 8) (compress s.freq) ∧
      SameOutside s.mem m s.dstAddr.toNat (8 + (compress s.freq).length)

/-- 41_frequency.md R171, R165, R166: FREQ_DECOMPRESS accepts any entries in any order and any bytes after them; the
last entry of a symbol wins, and a symbol without an entry counts 0. -/
def Obligations.FreqDecompressReadsTable : Prop :=
  ∀ (s : State) (eB eS eI : List (Byte × Nat)) (tail : List Byte), s.srcReady → CountsFit eB eS eI →
    s.srcBytes = tableBytes eB eS eI ++ tail →
    exec .freqDecompress s = .next (State.completed { s with freq := assigned (eB ++ eS ++ eI) } .none 0#32)

/-- 41_frequency.md R173, R167, R166: HDR_PARSE takes `headerLength`, `dataLength` and the table; bytes between the
table and `headerLength`, and after it, are ignored. -/
def Obligations.HdrParseReadsHeader : Prop :=
  ∀ (s : State) (eB eS eI : List (Byte × Nat)) (dl : Nat) (gap tail : List Byte), s.srcReady → CountsFit eB eS eI →
    dl < 2 ^ 32 →
    s.srcBytes = le (8 + (tableBytes eB eS eI ++ gap).length) 4 ++ le dl 4 ++ tableBytes eB eS eI ++ gap ++ tail →
    exec .hdrParse s = .next (State.completed
      { s with
        freq := assigned (eB ++ eS ++ eI)
        dataLen := BitVec.ofNat 32 dl
        hdrLen := BitVec.ofNat 32 (8 + (tableBytes eB eS eI ++ gap).length) } .none 0#32)

/-- 41_frequency.md R165: FREQ_DECOMPRESS reports the offset of the first field that does not fit: a bucket's count, or
its entries. -/
def Obligations.FreqDecompressReportsOffset : Prop :=
  ∀ (s : State) (eB eS : List (Byte × Nat)) (w : Nat) (pre rest : List Byte), s.srcReady →
    (w, pre) ∈ [(1, []), (2, entryBytes 1 eB), (4, entryBytes 1 eB ++ entryBytes 2 eS)] →
    s.srcBytes = pre ++ rest →
    (rest.length < 4 →
      exec .freqDecompress s = .next (s.completed .invalidFrequencyData (BitVec.ofNat 32 pre.length))) ∧
    (∀ (k : Nat) (more : List Byte), k < 2 ^ 32 → rest = le k 4 ++ more → more.length < k * (1 + w) →
      exec .freqDecompress s = .next (s.completed .invalidFrequencyData (BitVec.ofNat 32 (pre.length + 4))))

/-- 41_frequency.md R167: the three ways the fixed header fields are malformed, at HDR_PARSE and at DECODE. -/
def Obligations.MalformedHeaderReported : Prop :=
  ∀ (i : Instr) (s : State), i = .hdrParse ∨ (i = .decode ∧ s.tree.Vacant ∧ s.disjoint ∧
      s.dstAddr.toNat + s.dstCap.toNat ≤ s.cfg.memSize) → s.srcReady →
    (s.srcLen.toNat < 8 → exec i s = .next (s.completed .malformedHeader 0#32)) ∧
    (∀ (hl dl : Nat) (tail : List Byte), hl < 2 ^ 32 → dl < 2 ^ 32 → s.srcBytes = le hl 4 ++ le dl 4 ++ tail →
      (hl < 8 → exec i s = .next (s.completed .malformedHeader 1#32)) ∧
      (8 ≤ hl → s.srcLen.toNat < hl → exec i s = .next (s.completed .malformedHeader 2#32)))

/-- 41_frequency.md R173, 43_codec.md R245: HDR_PARSE and DECODE report a table that does not fit `headerLength` by
the offset from SRC_ADDR of the field. -/
def Obligations.HeaderTableErrorReported : Prop :=
  ∀ (i : Instr) (s : State) (eB eS : List (Byte × Nat)) (w dl : Nat) (pre rest tail : List Byte),
    i = .hdrParse ∨ (i = .decode ∧ s.tree.Vacant ∧ s.disjoint ∧
      s.dstAddr.toNat + s.dstCap.toNat ≤ s.cfg.memSize) → s.srcReady → dl < 2 ^ 32 →
    (w, pre) ∈ [(1, []), (2, entryBytes 1 eB), (4, entryBytes 1 eB ++ entryBytes 2 eS)] →
    s.srcBytes = le (8 + (pre ++ rest).length) 4 ++ le dl 4 ++ pre ++ rest ++ tail →
    (rest.length < 4 →
      exec i s = .next (s.completed .invalidFrequencyData (BitVec.ofNat 32 (8 + pre.length)))) ∧
    (∀ (k : Nat) (more : List Byte), k < 2 ^ 32 → rest = le k 4 ++ more → more.length < k * (1 + w) →
      exec i s = .next (s.completed .invalidFrequencyData (BitVec.ofNat 32 (8 + pre.length + 4))))

/-- 41_frequency.md R168: what FREQ_COMPRESS or HDR_WRITE writes, FREQ_DECOMPRESS or HDR_PARSE reads back. -/
def Obligations.FrequencyRoundTrip : Prop :=
  (∀ s t u : State, exec .freqCompress s = .next t → t.err = false → u.srcReady →
    t.resultLen.toNat ≤ u.srcLen.toNat →
    (∀ i, i < t.resultLen.toNat → u.mem.read (u.srcAddr.toNat + i) = t.mem.read (s.dstAddr.toNat + i)) →
    exec .freqDecompress u = .next (State.completed { u with freq := s.freq } .none 0#32)) ∧
  (∀ s t u : State, exec .hdrWrite s = .next t → t.err = false → u.srcReady →
    t.resultLen.toNat ≤ u.srcLen.toNat →
    (∀ i, i < t.resultLen.toNat → u.mem.read (u.srcAddr.toNat + i) = t.mem.read (s.dstAddr.toNat + i)) →
    exec .hdrParse u = .next (State.completed
      { u with freq := s.freq, dataLen := s.dataLen, hdrLen := t.hdrLen } .none 0#32))

/-! ### HuffmanTree -/

/-- 42_tree.md R210, R201, R205, R206: TREE_BUILD on an EMPTY arena leaves a built tree of 511 nodes whose leaves carry
the counts of FREQ. -/
def Obligations.TreeBuildBuildsTree : Prop :=
  ∀ s : State, s.tree.state = .empty →
    ∃ t : Tree, exec .treeBuild s = .next (State.completed { s with tree := t } .none 0#32) ∧ t.Built ∧
      ∀ sym : Fin 256, (t.arena[leafId sym]).freq.toNat = (s.freq[sym]).toNat

/-- 42_tree.md R202: every merge of TREE_BUILD takes the least unmerged node as the left child and the least of the
rest as the right child. -/
def Obligations.TreeBuildMergesTheTwoLeast : Prop :=
  ∀ s t : State, exec .treeBuild s = .next t → t.err = false → MergesLeast t.tree.arena

/-- 42_tree.md R204, R208: the built tree is a function of the table alone: two builds from the same FREQ give the same
arena and the same codes. -/
def Obligations.TreeBuildIsDeterministic : Prop :=
  ∀ s s' t t' : State, s.freq = s'.freq → exec .treeBuild s = .next t → exec .treeBuild s' = .next t' →
    t.err = false → t'.err = false →
    t.tree.arena = t'.tree.arena ∧ t.tree.root = t'.tree.root

/-- 42_tree.md R211, R207, R208: CODES_DERIVE writes for every symbol the code of 1 to 255 bits that leads from the
root to its leaf, bit `k` at CODE_BITS bit `k`, the rest 0. -/
def Obligations.CodesDeriveWritesCodes : Prop :=
  ∀ s : State, s.tree.Built →
    ∃ (L : Vector (BitVec 8) 256) (B : Vector (BitVec 256) 256),
      exec .codesDerive s = .next (State.completed
        { s with codeLen := L, codeBits := B, codesValid := true } .none 0#32) ∧
      ∀ sym : Fin 256, 1 ≤ (L[sym]).toNat ∧
        Leads s.tree.arena s.tree.root ((List.range (L[sym]).toNat).map (fun k => (B[sym]).getLsbD k))
          (BitVec.ofNat 8 sym.val) ∧
        ∀ k, (L[sym]).toNat ≤ k → (B[sym]).getLsbD k = false

/-- 42_tree.md R208: in a tree built from any table every symbol has its code, of 1 to 255 bits, which leads from the
root to the symbol's leaf; no code is the beginning of another; and two builds from one table give the same codes. -/
def Obligations.CodesArePrefixFree : Prop :=
  ∀ (F : FreqTable) (old old' T T' : Tree) (a b : Fin 256), T = buildTree F old → T' = buildTree F old' →
    1 ≤ (codeOf T.arena a).length ∧ (codeOf T.arena a).length ≤ 255 ∧
    Leads T.arena T.root (codeOf T.arena a) (BitVec.ofNat 8 a.val) ∧
    codeOf T'.arena a = codeOf T.arena a ∧
    (a ≠ b → ¬ (codeOf T.arena a <+: codeOf T.arena b))

/-- 42_tree.md R212: TREE_DESTROY clears every `valid` bit and leaves the arena EMPTY, the codes as they are. -/
def Obligations.TreeDestroyClearsArena : Prop :=
  ∀ s : State, s.tree.state = .rooted →
    ∃ A : Vector Node 511,
      exec .treeDestroy s = .next (State.completed
        { s with tree := { s.tree with state := .empty, arena := A } } .none 0#32) ∧
      ∀ n : NodeId, A[n] = { s.tree.arena[n] with valid := false }

/-- 42_tree.md R213, R209: DECODE_ONE follows the bits from BIT_CURSOR to a leaf, returns its symbol and leaves the
cursor after the bits it took. -/
def Obligations.DecodeOneFollowsBits : Prop :=
  ∀ (s : State) (path : Code) (sym : Byte), s.tree.state = .rooted → s.srcReady →
    Leads s.tree.arena s.tree.root path sym →
    s.bitCursor.toNat + path.length ≤ 8 * s.srcLen.toNat →
    StreamHas s.mem s.srcAddr.toNat s.bitCursor.toNat path →
    exec .decodeOne s = .next (State.completed
      { s with symbol := sym, bitCursor := BitVec.ofNat 35 (s.bitCursor.toNat + path.length) } .none 0#32)

/-- 42_tree.md R213, R209: DECODE_ONE reports TRUNCATED_STREAM(0) when the bits end before a leaf, the cursor past the
end included, and changes neither SYMBOL nor BIT_CURSOR. -/
def Obligations.DecodeOneReportsTruncation : Prop :=
  ∀ (s : State) (bits : Code), s.tree.state = .rooted → s.srcReady →
    bits.length = 8 * s.srcLen.toNat - s.bitCursor.toNat →
    StreamHas s.mem s.srcAddr.toNat s.bitCursor.toNat bits →
    Astray s.tree.arena s.tree.root bits →
    exec .decodeOne s = .next (s.completed .truncatedStream 0#32)

/-! ### Codec -/

/-- 43_codec.md R242, R240, 20_memory.md R104: BODY_ENCODE writes the codes of the source bytes, in input order, packed
and padded with zeros. -/
def Obligations.BodyEncodeWritesBody : Prop :=
  ∀ (s : State) (bits : List Bool), s.codesValid = true → s.srcReady → s.disjoint →
    bits = s.srcBytes.flatMap (fun b =>
      (List.range (s.codeLen[symbolOf b]).toNat).map (fun k => (s.codeBits[symbolOf b]).getLsbD k)) →
    s.dstReady ((bits.length + 7) / 8) →
    ∃ m, exec .bodyEncode s = .next (State.completed
        { s with
          mem := m
          bitCount := BitVec.ofNat 40 bits.length
          resultLen := BitVec.ofNat 32 ((bits.length + 7) / 8) } .none 0#32) ∧
      (∀ i, i < 8 * ((bits.length + 7) / 8) → streamBit m s.dstAddr.toNat i = bits.getD i false) ∧
      SameOutside s.mem m s.dstAddr.toNat ((bits.length + 7) / 8)

/-- 43_codec.md R243, R241: BODY_DECODE decodes DATA_LEN symbols from bit 0 of SRC and leaves the final cursor. -/
def Obligations.BodyDecodeWritesSymbols : Prop :=
  ∀ (s : State) (found : List (Code × Byte)), s.tree.state = .rooted → s.srcReady → s.disjoint →
    s.dstReady s.dataLen.toNat → found.length = s.dataLen.toNat →
    (∀ f ∈ found, Leads s.tree.arena s.tree.root f.1 f.2) →
    (found.flatMap Prod.fst).length ≤ 8 * s.srcLen.toNat →
    StreamHas s.mem s.srcAddr.toNat 0 (found.flatMap Prod.fst) →
    ∃ m, exec .bodyDecode s = .next (State.completed
        { s with
          mem := m
          bitCursor := BitVec.ofNat 35 (found.flatMap Prod.fst).length
          resultLen := s.dataLen } .none 0#32) ∧
      HoldsAt m s.dstAddr.toNat (found.map Prod.snd) ∧
      SameOutside s.mem m s.dstAddr.toNat s.dataLen.toNat

/-- 43_codec.md R243, R245, 60_exceptions.md R289, R287: when symbol `k` runs out of bits BODY_DECODE and DECODE report
TRUNCATED_STREAM(k), with symbols 0 to `k - 1` written, no register committed and, after DECODE, the arena EMPTY. -/
def Obligations.BodyDecodeTruncatedKeepsPrefix : Prop :=
  (∀ (s : State) (found : List (Code × Byte)) (rest : Code), s.tree.state = .rooted → s.srcReady → s.disjoint →
    s.dstReady s.dataLen.toNat → found.length < s.dataLen.toNat →
    (∀ f ∈ found, Leads s.tree.arena s.tree.root f.1 f.2) → Astray s.tree.arena s.tree.root rest →
    (found.flatMap Prod.fst ++ rest).length = 8 * s.srcLen.toNat →
    StreamHas s.mem s.srcAddr.toNat 0 (found.flatMap Prod.fst ++ rest) →
    ∃ m, exec .bodyDecode s = .next (State.completed { s with mem := m } .truncatedStream
        (BitVec.ofNat 32 found.length)) ∧
      HoldsAt m s.dstAddr.toNat (found.map Prod.snd) ∧
      SameOutside s.mem m s.dstAddr.toNat found.length) ∧
  ∀ (s : State) (eB eS eI : List (Byte × Nat)) (dl : Nat) (gap body : List Byte) (T : Tree)
    (found : List (Code × Byte)) (rest : Code),
    s.tree.Vacant → s.srcReady → s.disjoint → s.dstReady dl → CountsFit eB eS eI → dl < 2 ^ 32 →
    s.srcBytes =
      le (8 + (tableBytes eB eS eI ++ gap).length) 4 ++ le dl 4 ++ tableBytes eB eS eI ++ gap ++ body →
    T = buildTree (assigned (eB ++ eS ++ eI)) s.tree → found.length < dl →
    (∀ f ∈ found, Leads T.arena T.root f.1 f.2) → Astray T.arena T.root rest →
    found.flatMap Prod.fst ++ rest = unpack body →
    ∃ m, exec .decode s = .next (State.completed { s with mem := m } .truncatedStream
        (BitVec.ofNat 32 found.length)) ∧
      HoldsAt m s.dstAddr.toNat (found.map Prod.snd) ∧
      SameOutside s.mem m s.dstAddr.toNat found.length

/-- 43_codec.md R244: ENCODE writes the header of the counts of SRC followed by the packed codes of the tree built from
them, commits the table, the codes and the lengths, and leaves the arena EMPTY. -/
def Obligations.EncodeWritesStream : Prop :=
  ∀ (s : State) (F : FreqTable) (code : Fin 256 → Code) (bits : List Bool) (out : List Byte),
    s.tree.state = .empty → s.srcReady → s.disjoint →
    F = count s.srcBytes → code = codeOf (buildTree F s.tree).arena →
    bits = s.srcBytes.flatMap (fun b => code (symbolOf b)) →
    out = headerBytes F s.srcLen.toNat ++ pack bits → s.dstReady out.length →
    ∃ (m : Memory) (tr : Tree) (L : Vector (BitVec 8) 256) (B : Vector (BitVec 256) 256),
      exec .encode s = .next (State.completed
        { s with
          mem := m, tree := tr, freq := F, dataLen := s.srcLen
          hdrLen := BitVec.ofNat 32 (8 + (compress F).length)
          codeLen := L, codeBits := B, codesValid := true
          bitCount := BitVec.ofNat 40 bits.length
          resultLen := BitVec.ofNat 32 out.length } .none 0#32) ∧
      tr.Vacant ∧ HoldsAt m s.dstAddr.toNat out ∧ SameOutside s.mem m s.dstAddr.toNat out.length ∧
      ∀ sym : Fin 256, (L[sym]).toNat = (code sym).length ∧ ∀ k, (B[sym]).getLsbD k = (code sym).getD k false

/-- 70_reset_and_hazards.md R335: a DST_CAP of 1300 + 32 × SRC_LEN always suffices for ENCODE, and 32 × SRC_LEN for
BODY_ENCODE. -/
def Obligations.CapacityBoundSuffices : Prop :=
  ∀ s : State, s.srcReady → s.disjoint → s.dstReady s.dstCap.toNat →
    (s.tree.state = .empty → 1300 + 32 * s.srcLen.toNat ≤ s.dstCap.toNat →
      ∃ t, exec .encode s = .next t ∧ t.err = false) ∧
    (s.codesValid = true → 32 * s.srcLen.toNat ≤ s.dstCap.toNat →
      ∃ t, exec .bodyEncode s = .next t ∧ t.err = false)

/-- 43_codec.md R245: DECODE parses the header, builds the tree of its table, decodes `dataLength` symbols from the
body that starts at `headerLength`, commits, and leaves the arena EMPTY. -/
def Obligations.DecodeWritesData : Prop :=
  ∀ (s : State) (eB eS eI : List (Byte × Nat)) (gap body : List Byte) (T : Tree) (found : List (Code × Byte)),
    s.tree.state = .empty → s.srcReady → s.disjoint → s.dstReady found.length → CountsFit eB eS eI →
    s.srcBytes =
      le (8 + (tableBytes eB eS eI ++ gap).length) 4 ++ le found.length 4 ++ tableBytes eB eS eI ++ gap ++ body →
    T = buildTree (assigned (eB ++ eS ++ eI)) s.tree →
    (∀ f ∈ found, Leads T.arena T.root f.1 f.2) → found.flatMap Prod.fst <+: unpack body →
    ∃ (m : Memory) (tr : Tree),
      exec .decode s = .next (State.completed
        { s with
          mem := m, tree := tr, freq := assigned (eB ++ eS ++ eI)
          dataLen := BitVec.ofNat 32 found.length
          hdrLen := BitVec.ofNat 32 (8 + (tableBytes eB eS eI ++ gap).length)
          bitCursor := BitVec.ofNat 35 (found.flatMap Prod.fst).length
          resultLen := BitVec.ofNat 32 found.length } .none 0#32) ∧
      tr.Vacant ∧ HoldsAt m s.dstAddr.toNat (found.map Prod.snd) ∧
      SameOutside s.mem m s.dstAddr.toNat found.length

/-- 43_codec.md R246: DECODE of the stream that an ENCODE wrote gives back its input. -/
def Obligations.DecodeInvertsEncode : Prop :=
  ∀ s t u : State, exec .encode s = .next t → t.err = false →
    u.tree.state = .empty → u.srcReady → u.disjoint → u.dstReady s.srcLen.toNat →
    u.srcLen = t.resultLen →
    (∀ i, i < t.resultLen.toNat → u.mem.read (u.srcAddr.toNat + i) = t.mem.read (s.dstAddr.toNat + i)) →
    ∃ v, exec .decode u = .next v ∧ v.err = false ∧ v.resultLen = s.srcLen ∧
      ∀ i, i < s.srcLen.toNat → v.mem.read (u.dstAddr.toNat + i) = s.mem.read (s.srcAddr.toNat + i)

/-! ### Errors of the memory port and the destination -/

/-- 60_exceptions.md R280 (code 5), R282, 10_state.md R45: the output does not fit DST_CAP: DST_OVERFLOW with the bytes
needed, nothing written and nothing committed; FREQ_COMPRESS and HDR_WRITE whatever the SRC registers hold, for they use
no SRC (30_encoding.md R116). -/
def Obligations.OverflowReportsBytesNeeded : Prop :=
  (∀ s : State, s.dstReady 0 →
    (s.dstCap.toNat < (compress s.freq).length →
      exec .freqCompress s = .next (s.completed .dstOverflow (BitVec.ofNat 32 (compress s.freq).length))) ∧
    (s.dstCap.toNat < 8 + (compress s.freq).length →
      exec .hdrWrite s = .next (s.completed .dstOverflow (BitVec.ofNat 32 (8 + (compress s.freq).length))))) ∧
  ∀ s : State, s.srcReady → s.dstReady 0 → s.disjoint →
    (s.dstCap.toNat < (s.srcLen.toNat + 7) / 8 →
      exec .bitsPack s = .next (s.completed .dstOverflow (BitVec.ofNat 32 ((s.srcLen.toNat + 7) / 8)))) ∧
    (s.dstCap.toNat < 8 * s.srcLen.toNat →
      exec .bitsUnpack s =
        .next (s.completed .dstOverflow (BitVec.ofNat 32 (min (8 * s.srcLen.toNat) 0xFFFFFFFF)))) ∧
    (s.tree.state = .rooted → s.dstCap.toNat < s.dataLen.toNat →
      exec .bodyDecode s = .next (s.completed .dstOverflow s.dataLen)) ∧
    (∀ n, n = (s.srcBytes.map (fun b => (s.codeLen[symbolOf b]).toNat)).sum → s.codesValid = true →
      s.dstCap.toNat < (n + 7) / 8 →
      exec .bodyEncode s = .next (s.completed .dstOverflow (BitVec.ofNat 32 (min ((n + 7) / 8) 0xFFFFFFFF))))

/-- 43_codec.md R244, R245, 60_exceptions.md R287: ENCODE and DECODE whose output does not fit DST_CAP report the bytes
needed, write nothing, commit nothing and leave the arena EMPTY. -/
def Obligations.CodecOverflowReportsBytesNeeded : Prop :=
  ∀ s : State, s.tree.Vacant → s.srcReady → s.dstReady 0 → s.disjoint →
    (∀ (F : FreqTable) (n : Nat), F = count s.srcBytes →
      n = (headerBytes F s.srcLen.toNat).length +
        ((s.srcBytes.map (fun b => (codeOf (buildTree F s.tree).arena (symbolOf b)).length)).sum + 7) / 8 →
      s.dstCap.toNat < n →
      exec .encode s = .next (s.completed .dstOverflow (BitVec.ofNat 32 (min n 0xFFFFFFFF)))) ∧
    (∀ (eB eS eI : List (Byte × Nat)) (dl : Nat) (gap tail : List Byte), CountsFit eB eS eI → dl < 2 ^ 32 →
      s.srcBytes = le (8 + (tableBytes eB eS eI ++ gap).length) 4 ++ le dl 4 ++ tableBytes eB eS eI ++ gap ++ tail →
      s.dstCap.toNat < dl →
      exec .decode s = .next (s.completed .dstOverflow (BitVec.ofNat 32 dl)))

/-- 20_memory.md R92, 60_exceptions.md R289: MEM_FAULT is reported with the address of an access to SRC or DST that the
platform rejects (every command). Then the first rejected access, by how the commands read and write: a command that reads
all of SRC at first; BITS_UNPACK; a table; a header; a walk; the bodies of BODY_DECODE and DECODE; and, for every command
with DST, the first rejected byte of the output that the command writes where nothing is rejected. What the command wrote
before it stays, and nothing is committed. The order of a command's accesses is that of its pseudocode
(notes/assumptions/17.md). -/
def Obligations.RejectedAccessRaisesMemFault : Prop :=
  (∀ (i : Instr) (s t : State), exec i s = .next t → t.errCode = .memFault →
    ∃ a, s.rejects i a ∧ t.errInfo = BitVec.ofNat 32 a) ∧
  (∀ (i : Instr) (s : State) (j : Nat), i ∈ [.freqBuild, .bitsPack, .encode, .bodyEncode] → Invariant s →
    prologueError i s = none → (i = .bitsPack → (s.srcLen.toNat + 7) / 8 ≤ s.dstCap.toNat) → j < s.srcLen.toNat →
    NoFault s.cfg .read s.srcAddr.toNat j → (s.srcAddr.toNat + j, AccessKind.read) ∈ s.cfg.memFaults →
    exec i s = .next (s.completed .memFault (BitVec.ofNat 32 (s.srcAddr.toNat + j)))) ∧
  (∀ (s : State) (j : Nat), prologueError .bitsUnpack s = none → 8 * s.srcLen.toNat ≤ s.dstCap.toNat →
    j < s.srcLen.toNat → NoFault s.cfg .read s.srcAddr.toNat j →
    (s.srcAddr.toNat + j, AccessKind.read) ∈ s.cfg.memFaults → NoFault s.cfg .write s.dstAddr.toNat (8 * j) →
    ∃ m, exec .bitsUnpack s = .next (State.completed { s with mem := m } .memFault
        (BitVec.ofNat 32 (s.srcAddr.toNat + j))) ∧
      (∀ k, k < 8 * j → m.read (s.dstAddr.toNat + k) =
        if streamBit s.mem s.srcAddr.toNat k then 0x01#8 else 0x00#8) ∧
      SameOutside s.mem m s.dstAddr.toNat (8 * j)) ∧
  (∀ (s : State) (eB eS eI : List (Byte × Nat)) (tail : List Byte) (j : Nat), CountsFit eB eS eI →
    prologueError .freqDecompress s = none → s.srcBytes = tableBytes eB eS eI ++ tail →
    j < (tableBytes eB eS eI).length → NoFault s.cfg .read s.srcAddr.toNat j →
    (s.srcAddr.toNat + j, AccessKind.read) ∈ s.cfg.memFaults →
    exec .freqDecompress s = .next (s.completed .memFault (BitVec.ofNat 32 (s.srcAddr.toNat + j)))) ∧
  (∀ (i : Instr) (s : State) (eB eS eI : List (Byte × Nat)) (dl : Nat) (gap tail : List Byte) (j : Nat),
    i = .hdrParse ∨ i = .decode → Invariant s → prologueError i s = none → CountsFit eB eS eI → dl < 2 ^ 32 →
    s.srcBytes = le (8 + (tableBytes eB eS eI ++ gap).length) 4 ++ le dl 4 ++ tableBytes eB eS eI ++ gap ++ tail →
    j < 8 + (tableBytes eB eS eI).length → NoFault s.cfg .read s.srcAddr.toNat j →
    (s.srcAddr.toNat + j, AccessKind.read) ∈ s.cfg.memFaults →
    exec i s = .next (s.completed .memFault (BitVec.ofNat 32 (s.srcAddr.toNat + j)))) ∧
  (∀ (s : State) (bits : Code) (c : Nat), prologueError .decodeOne s = none →
    Astray s.tree.arena s.tree.root bits → c = s.bitCursor.toNat + bits.length → c < 8 * s.srcLen.toNat →
    StreamHas s.mem s.srcAddr.toNat s.bitCursor.toNat bits →
    BitsReadable s.cfg s.srcAddr.toNat s.bitCursor.toNat bits.length →
    (s.srcAddr.toNat + c / 8, AccessKind.read) ∈ s.cfg.memFaults →
    exec .decodeOne s = .next (s.completed .memFault (BitVec.ofNat 32 (s.srcAddr.toNat + c / 8)))) ∧
  (∀ (s : State) (found : List (Code × Byte)) (rest : Code) (c : Nat), prologueError .bodyDecode s = none →
    s.dataLen.toNat ≤ s.dstCap.toNat → found.length < s.dataLen.toNat →
    (∀ f ∈ found, Leads s.tree.arena s.tree.root f.1 f.2) → Astray s.tree.arena s.tree.root rest →
    c = (found.flatMap Prod.fst ++ rest).length → c < 8 * s.srcLen.toNat →
    StreamHas s.mem s.srcAddr.toNat 0 (found.flatMap Prod.fst ++ rest) → BitsReadable s.cfg s.srcAddr.toNat 0 c →
    (s.srcAddr.toNat + c / 8, AccessKind.read) ∈ s.cfg.memFaults →
    NoFault s.cfg .write s.dstAddr.toNat found.length →
    ∃ m, exec .bodyDecode s = .next (State.completed { s with mem := m } .memFault
        (BitVec.ofNat 32 (s.srcAddr.toNat + c / 8))) ∧
      HoldsAt m s.dstAddr.toNat (found.map Prod.snd) ∧ SameOutside s.mem m s.dstAddr.toNat found.length) ∧
  (∀ (s : State) (eB eS eI : List (Byte × Nat)) (dl hl : Nat) (gap body : List Byte) (T : Tree)
    (found : List (Code × Byte)) (rest more : Code) (c : Nat),
    Invariant s → prologueError .decode s = none → CountsFit eB eS eI → dl < 2 ^ 32 → dl ≤ s.dstCap.toNat →
    hl = 8 + (tableBytes eB eS eI ++ gap).length →
    s.srcBytes = le hl 4 ++ le dl 4 ++ tableBytes eB eS eI ++ gap ++ body →
    T = buildTree (assigned (eB ++ eS ++ eI)) s.tree → found.length < dl →
    (∀ f ∈ found, Leads T.arena T.root f.1 f.2) → Astray T.arena T.root rest →
    found.flatMap Prod.fst ++ rest ++ more = unpack body → c = (found.flatMap Prod.fst ++ rest).length → more ≠ [] →
    NoFault s.cfg .read s.srcAddr.toNat hl → BitsReadable s.cfg (s.srcAddr.toNat + hl) 0 c →
    (s.srcAddr.toNat + hl + c / 8, AccessKind.read) ∈ s.cfg.memFaults →
    NoFault s.cfg .write s.dstAddr.toNat found.length →
    ∃ m, exec .decode s = .next (State.completed { s with mem := m } .memFault
        (BitVec.ofNat 32 (s.srcAddr.toNat + hl + c / 8))) ∧
      HoldsAt m s.dstAddr.toNat (found.map Prod.snd) ∧ SameOutside s.mem m s.dstAddr.toNat found.length) ∧
  (∀ (i : Instr) (s t : State) (j : Nat), usesDst i = true → Invariant s →
    (usesSrc i = true → NoFault s.cfg .read s.srcAddr.toNat s.srcLen.toNat) →
    exec i { s with cfg := unrejected s.cfg } = .next t → t.err = false → j < t.resultLen.toNat →
    NoFault s.cfg .write s.dstAddr.toNat j → (s.dstAddr.toNat + j, AccessKind.write) ∈ s.cfg.memFaults →
    ∃ m, exec i s = .next (State.completed { s with mem := m } .memFault
        (BitVec.ofNat 32 (s.dstAddr.toNat + j))) ∧
      (∀ k, k < j → m.read (s.dstAddr.toNat + k) = t.mem.read (s.dstAddr.toNat + k)) ∧
      SameOutside s.mem m s.dstAddr.toNat j)

/-! ### The control port -/

/-- 10_state.md R36: the layout of STATUS. -/
def Obligations.StatusWordLayout : Prop :=
  ∀ (s : State) (f : BitVec 2),
    (s.statusWith f).getLsbD 0 = decide (s.phase = .run) ∧ (s.statusWith f).getLsbD 1 = s.done ∧
    (s.statusWith f).getLsbD 2 = s.err ∧ (s.statusWith f).getLsbD 3 = s.codesValid ∧
    (s.statusWith f).extractLsb' 4 2 = f ∧ (s.statusWith f).getLsbD 6 = s.wrIgnored ∧
    (s.statusWith f).getLsbD 7 = s.cmdDropped ∧ (s.statusWith f).extractLsb' 8 4 = s.errCode.code ∧
    (s.statusWith f).extractLsb' 12 20 = 0#20

/-- 10_state.md R33 to R52: what a read of each named register returns, whatever the engine does. STATUS is R36's word with
TREE_STATE encoded as R40 says and ERRCODE as 60_exceptions.md R280 says; while a tree is being built
(AccessesWhileBusy says when, and what STATUS shows then) its TREE_STATE moves, and that case stands there. That it shows
as it was while a command runs that builds no tree is DEDUCED (notes/assumptions/10.md). -/
def Obligations.RegisterReads : Prop :=
  ∀ (s : State) (rest : List HostOp),
    (∀ (off : Nat) (v : Word), s.agenda = .portRead (s.cfg.csrBase + off) 4 :: rest →
      (off, v) ∈ [(0x000, 0x46465548#32), (0x008, (BitVec.ofBool s.irqEn).setWidth 32),
        (0x010, (BitVec.ofBool s.donePending).setWidth 32), (0x014, s.curCmd), (0x018, s.srcAddr), (0x01C, s.srcLen),
        (0x020, s.dstAddr), (0x024, s.dstCap), (0x028, s.resultLen), (0x02C, s.dataLen), (0x030, s.hdrLen),
        (0x034, BitVec.ofNat 32 s.bitCursor.toNat), (0x038, BitVec.ofNat 32 (s.bitCursor.toNat / 2 ^ 32)),
        (0x03C, BitVec.ofNat 32 s.bitCount.toNat), (0x040, BitVec.ofNat 32 (s.bitCount.toNat / 2 ^ 32)),
        (0x044, s.symbol.setWidth 32), (0x048, s.errInfo)] →
      step s = .next { s with agenda := rest, busData := v }) ∧
    (∀ tree code : Nat, s.agenda = .portRead (s.cfg.csrBase + 0x00C) 4 :: rest → s.treeInMotion = false →
      (s.tree.state, tree) ∈ [(TreeState.empty, 0), (.seeding, 1), (.merging, 2), (.rooted, 3)] →
      (s.errCode, code) ∈ [(ErrCode.none, 0), (.illegalCmd, 1), (.bounds, 2), (.overlap, 3), (.state, 4),
        (.dstOverflow, 5), (.malformedHeader, 6), (.invalidFrequencyData, 7), (.truncatedStream, 8), (.memFault, 9)] →
      step s = .next { s with
        agenda := rest
        busData := BitVec.ofNat 32 ((if s.phase = .run then 1 else 0) + 2 * s.done.toNat + 4 * s.err.toNat +
          8 * s.codesValid.toNat + 16 * tree + 64 * s.wrIgnored.toNat + 128 * s.cmdDropped.toNat + 256 * code) })

/-- 10_state.md R44 to R49 and the access column of R34: what a write of each register with storage does while no
command runs. -/
def Obligations.OperandRegisterWrites : Prop :=
  ∀ (s t : State) (off : Nat) (v : Word) (rest : List HostOp), s.phase = .idle →
    s.agenda = .portWrite (s.cfg.csrBase + off) 4 v :: rest →
    (off, t) ∈ [(0x018, { s with agenda := rest, srcAddr := v }), (0x01C, { s with agenda := rest, srcLen := v }),
      (0x020, { s with agenda := rest, dstAddr := v }), (0x024, { s with agenda := rest, dstCap := v }),
      (0x02C, { s with agenda := rest, dataLen := v }),
      (0x034, { s with
        agenda := rest, bitCursor := BitVec.ofNat 35 (s.bitCursor.toNat / 2 ^ 32 * 2 ^ 32 + v.toNat) }),
      (0x038, { s with
        agenda := rest, bitCursor := BitVec.ofNat 35 (v.toNat % 8 * 2 ^ 32 + s.bitCursor.toNat % 2 ^ 32) })] →
    step s = .next t

/-- 10_state.md R34: writes to the read-only registers and windows are ignored while no command runs, and reserved
offsets read 0 and ignore writes at any time (20_memory.md R87). -/
def Obligations.ReadOnlyAndReservedOffsets : Prop :=
  ∀ (s : State) (off : Nat) (v : Word) (rest : List HostOp), off % 4 = 0 →
    (s.phase = .idle → off ∈ [0x000, 0x00C, 0x028, 0x030, 0x03C, 0x040, 0x044, 0x048] ∨
        (0x800 ≤ off ∧ off < 0xC00) ∨ (0x1000 ≤ off ∧ off < 0x3000) →
      s.agenda = .portWrite (s.cfg.csrBase + off) 4 v :: rest → step s = .next { s with agenda := rest }) ∧
    (off = 0x004 ∨ (0x04C ≤ off ∧ off < 0x400) ∨ (0xC00 ≤ off ∧ off < 0x1000) ∨ (0x3000 ≤ off ∧ off < 0x4000) →
      (s.agenda = .portRead (s.cfg.csrBase + off) 4 :: rest →
        step s = .next { s with agenda := rest, busData := 0#32 }) ∧
      (s.agenda = .portWrite (s.cfg.csrBase + off) 4 v :: rest → step s = .next { s with agenda := rest }))

/-- 10_state.md R53 to R55: the FREQ window reads and writes entry `s` at 0x400 + 4 s; the CODE_LEN window reads at
0x800 + 4 s and the CODE_BITS window bits [32 w + 31 : 32 w] at 0x1000 + 32 s + 4 w once CODES_VALID = 1. -/
def Obligations.WindowAccesses : Prop :=
  ∀ (s : State) (sym : Fin 256) (w : Fin 8) (v : Word) (rest : List HostOp),
    (s.agenda = .portRead (s.cfg.csrBase + (0x400 + 4 * sym.val)) 4 :: rest →
      step s = .next { s with agenda := rest, busData := s.freq[sym] }) ∧
    (s.phase = .idle → s.agenda = .portWrite (s.cfg.csrBase + (0x400 + 4 * sym.val)) 4 v :: rest →
      ∃ F : FreqTable, step s = .next { s with agenda := rest, freq := F } ∧ F[sym] = v ∧
        ∀ other : Fin 256, other ≠ sym → F[other] = s.freq[other]) ∧
    (s.codesValid = true → s.agenda = .portRead (s.cfg.csrBase + (0x800 + 4 * sym.val)) 4 :: rest →
      step s = .next { s with agenda := rest, busData := BitVec.ofNat 32 (s.codeLen[sym]).toNat }) ∧
    (s.codesValid = true → s.agenda = .portRead (s.cfg.csrBase + (0x1000 + 32 * sym.val + 4 * w.val)) 4 :: rest →
      step s = .next { s with
        agenda := rest, busData := BitVec.ofNat 32 ((s.codeBits[sym]).toNat / 2 ^ (32 * w.val)) })

/-- 20_memory.md R87: an access to the control port that is not a 32-bit access at a 4-byte-aligned offset is
refused. -/
def Obligations.NarrowPortAccessRefused : Prop :=
  ∀ (s : State) (off size : Nat) (v : Word) (rest : List HostOp), off < 0x4000 → size ≠ 4 ∨ off % 4 ≠ 0 →
    (s.agenda = .portRead (s.cfg.csrBase + off) size :: rest ∨
      s.agenda = .portWrite (s.cfg.csrBase + off) size v :: rest) →
    step s = .refused (.narrowPortAccess (s.cfg.csrBase + off) size)

/-- 10_state.md R35, R42: a write to CTRL without SOFT_RESET sets IRQ_EN, and a write to IRQ_STATUS with bit 0 = 1
clears DONE_PENDING, both also while a command runs. -/
def Obligations.InterruptRegisterWrites : Prop :=
  ∀ (s : State) (v : Word) (rest : List HostOp),
    (v.getLsbD 1 = false → s.agenda = .portWrite (s.cfg.csrBase + 0x008) 4 v :: rest →
      step s = .next { s with agenda := rest, irqEn := v.getLsbD 0 }) ∧
    (s.agenda = .portWrite (s.cfg.csrBase + 0x010) 4 v :: rest →
      step s = .next { s with agenda := rest, donePending := s.donePending && !v.getLsbD 0 })

/-- 10_state.md R41, 30_encoding.md R114, 70_reset_and_hazards.md R331: while a command runs, a write to any register or
window but CTRL and IRQ_STATUS is dropped and sets WR_IGNORED, and a write to CMD sets CMD_DROPPED; a STATUS read shows
BUSY = 1, DONE = 0, ERR = 0 and ERRCODE = 0, and RESULT_LEN and ERR_INFO read 0. That a dropped CMD write sets
WR_IGNORED too is DEDUCED (notes/assumptions/8.md).

TREE_STATE as STATUS shows it: while a command runs that builds no tree, or ends before `build_tree`, it shows as it was,
so ROOTED while TREE_DESTROY runs (DEDUCED, no rule of the spec, notes/assumptions/10.md). While a command runs that gets
to `build_tree`, also one that fails after it, it is EMPTY, SEEDING, MERGING, ROOTED and, in ENCODE and DECODE, EMPTY
again, in that order over the reads of one run (42_tree.md R200, 10_state.md R40); which of them a read shows is a free
value (DESIGN CHOICE, notes/assumptions/9.md). A success, ENCODE's DST_OVERFLOW and DECODE's TRUNCATED_STREAM come after
`build_tree`; the prologue errors, an error in a header and DECODE's DST_OVERFLOW before it; a MEM_FAULT before it
exactly where ENCODE reads its SRC or DECODE its header (`State.buildsTree`). -/
def Obligations.AccessesWhileBusy : Prop :=
  (∀ (s : State) (off : Nat) (v : Word) (rest : List HostOp), Invariant s → s.phase = .run → off % 4 = 0 →
    (s.agenda = .portWrite (s.cfg.csrBase + off) 4 v :: rest →
      (off = 0x014 → step s = .next { s with agenda := rest, wrIgnored := true, cmdDropped := true }) ∧
      (off ∈ [0x000, 0x00C, 0x018, 0x01C, 0x020, 0x024, 0x028, 0x02C, 0x030, 0x034, 0x038, 0x03C, 0x040, 0x044,
            0x048] ∨
          (0x400 ≤ off ∧ off < 0xC00) ∨ (0x1000 ≤ off ∧ off < 0x3000) →
        step s = .next { s with agenda := rest, wrIgnored := true })) ∧
    (s.agenda = .portRead (s.cfg.csrBase + off) 4 :: rest →
      (off = 0x00C → ∃ t, step s = .next t ∧ t.busData.getLsbD 0 = true ∧ t.busData.getLsbD 1 = false ∧
        t.busData.getLsbD 2 = false ∧ t.busData.extractLsb' 8 4 = 0#4) ∧
      (off = 0x028 ∨ off = 0x048 → step s = .next { s with agenda := rest, busData := 0#32 }))) ∧
  (∀ (s : State) (i : Instr) (rest : List HostOp), s.running i →
    s.agenda = .portRead (s.cfg.csrBase + 0x00C) 4 :: rest →
    (¬ s.buildsTree i →
      ∃ w, step s = .next { s with agenda := rest, busData := w } ∧
        (s.tree.state = .empty → w.extractLsb' 4 2 = 0#2) ∧ (s.tree.state = .rooted → w.extractLsb' 4 2 = 3#2)) ∧
    (s.buildsTree i →
      ∀ n, (s.buildStage, n) ∈ buildOrder → ∃ w stage m,
        step s = .next { s with agenda := rest, busData := w, buildStage := stage, draws := s.draws + 1 } ∧
        (stage, m) ∈ buildOrder ∧ n ≤ m ∧ (i = .treeBuild → n ≤ 3 → m ≤ 3) ∧
        w.extractLsb' 4 2 = BitVec.ofNat 2 (if m = 4 then 0 else m))) ∧
  (∀ (i : Instr) (s u : State), exec i s = .next u →
    ((i ∈ [.encode, .decode, .treeBuild] ∧ u.err = false) ∨ (i = .encode ∧ u.errCode = .dstOverflow) ∨
        (i = .decode ∧ u.errCode = .truncatedStream) → s.buildsTree i) ∧
    (u.errCode ∈ [.bounds, .overlap, .state, .malformedHeader, .invalidFrequencyData] ∨
        (i = .decode ∧ u.errCode = .dstOverflow) → ¬ s.buildsTree i)) ∧
  (∀ (s t : State) (n m : Nat), step s = .next t → s.phase = .run → t.phase = .run →
    (s.buildStage, n) ∈ buildOrder → (t.buildStage, m) ∈ buildOrder → n ≤ m ∧ t.curCmd = s.curCmd)

/-! ### Shared memory and the host -/

/-- 70_reset_and_hazards.md R330 and 93_implementation_defined.md U6: while a command runs, a read or a write of a byte of
its SRC or DST takes no step; every other byte of shared memory may be used, that of a region the command does not use
(30_encoding.md R116; DEDUCED, notes/assumptions/13.md) among them (platform without devices). -/
def Obligations.HostMemoryAccesses : Prop :=
  ∀ (s : State) (a : Nat) (v : Byte) (rest : List HostOp), a < s.cfg.memSize → s.cfg.devices = [] →
    (∀ i, s.running i → (usesSrc i = true ∧ s.inSrc a = true) ∨ (usesDst i = true ∧ s.inDst a = true) →
      s.agenda = .memRead a :: rest ∨ s.agenda = .memWrite a v :: rest → step s = .refused (.regionInUse a)) ∧
    (s.phase = .idle ∨ (s.inSrc a = false ∧ s.inDst a = false) ∨
        (∃ i, s.running i ∧ (usesSrc i = false ∨ s.inSrc a = false) ∧ (usesDst i = false ∨ s.inDst a = false)) →
      (s.agenda = .memRead a :: rest →
        step s = .next { s with agenda := rest, busData := (s.mem.read a).setWidth 32 }) ∧
      (s.agenda = .memWrite a v :: rest →
        ∃ m, step s = .next { s with agenda := rest, mem := m } ∧ m.read a = v ∧ SameOutside s.mem m a 1))

/-! ### Reset -/

/-- 70_reset_and_hazards.md R320: what reset puts into each register, flag and the frequency RAM, the arena and PQ;
shared memory is not changed by a reset while no command runs; and the engine's turns after it keep all of that. -/
def Obligations.ResetValues : Prop :=
  ∀ (s : State) (rest : List HostOp), s.agenda = .rst :: rest → ∃ t, step s = .next t ∧
    t.irqEn = false ∧ t.phase = .idle ∧ t.done = false ∧ t.err = false ∧ t.codesValid = false ∧
    t.tree.state = .empty ∧ t.wrIgnored = false ∧ t.cmdDropped = false ∧ t.errCode = .none ∧
    t.donePending = false ∧ t.irq = false ∧ t.curCmd = 0#32 ∧ t.srcAddr = 0#32 ∧ t.srcLen = 0#32 ∧
    t.dstAddr = 0#32 ∧ t.dstCap = 0#32 ∧ t.resultLen = 0#32 ∧ t.dataLen = 0#32 ∧ t.hdrLen = 0#32 ∧
    t.bitCursor = 0#35 ∧ t.bitCount = 0#40 ∧ t.symbol = 0#8 ∧ t.errInfo = 0#32 ∧
    (∀ sym : Fin 256, t.freq[sym] = 0#32) ∧ (∀ n : NodeId, (t.tree.arena[n]).valid = false) ∧ t.tree.pq = [] ∧
    (s.phase = .idle → t.mem = s.mem) ∧
    (rest = [] → step t = .next t) ∧ (∀ more, rest = .engine :: more → step t = .next { t with agenda := more })

/-- 70_reset_and_hazards.md R322: a CTRL write with SOFT_RESET = 1 is the reset of `rst`, also while a command runs and
whatever its IRQ_EN bit. -/
def Obligations.SoftResetIsReset : Prop :=
  ∀ (s : State) (v : Word) (rest : List HostOp), v.getLsbD 1 = true →
    step { s with agenda := .portWrite (s.cfg.csrBase + 0x008) 4 v :: rest } = step { s with agenda := .rst :: rest } ∧
    ∃ t, step { s with agenda := .rst :: rest } = .next t ∧ t.irqEn = false ∧ ∀ sym : Fin 256, t.freq[sym] = 0#32

/-- 70_reset_and_hazards.md R321: a reset while a command runs abandons it: no completion, DONE = 0 and DONE_PENDING =
0, and no byte outside the DST of the command changes; SRC is unchanged. -/
def Obligations.ResetAbandonsTheCommand : Prop :=
  ∀ (s : State) (i : Instr) (rest : List HostOp), s.running i → s.agenda = .rst :: rest → ∃ t, step s = .next t ∧
    t.done = false ∧ t.donePending = false ∧ t.err = false ∧
    SameOutside s.mem t.mem s.dstAddr.toNat s.dstCap.toNat ∧
    (usesDst i = false → t.mem = s.mem) ∧
    (usesSrc i = true → ∀ a, s.inSrc a = true → t.mem.read a = s.mem.read a)

/-! ### Whole-machine rules -/

/-- 10_state.md R39, 70_reset_and_hazards.md R334: the code RAM and CODES_VALID change only by a successful CODES_DERIVE
or ENCODE, which set CODES_VALID, and by a reset, which clears it. -/
def Obligations.CodesChangeOnlyByDeriveEncodeOrReset : Prop :=
  ∀ s t : State, step s = .next t →
    (t.codesValid = s.codesValid ∧ t.codeLen = s.codeLen ∧ t.codeBits = s.codeBits) ∨
    ((s.running .codesDerive ∨ s.running .encode) ∧ t.phase = .idle ∧ t.done = true ∧ t.err = false ∧
      t.codesValid = true) ∨
    ((∃ rest, s.agenda = .rst :: rest) ∨
        (∃ v rest, s.agenda = .portWrite (s.cfg.csrBase + 0x008) 4 v :: rest ∧ v.getLsbD 1 = true)) ∧
      t.codesValid = false

/-- 42_tree.md R214, 70_reset_and_hazards.md R332: a ROOTED tree stays as it is until TREE_DESTROY or a reset. -/
def Obligations.RootedTreeLastsUntilDestroyed : Prop :=
  ∀ s t : State, step s = .next t → s.tree.state = .rooted →
    t.tree = s.tree ∨ (s.running .treeDestroy ∧ t.phase = .idle ∧ t.done = true ∧ t.err = false ∧
      t.tree.state = .empty ∧ ∀ n : NodeId, t.tree.arena[n].valid = false) ∨
    ((∃ rest, s.agenda = .rst :: rest) ∨
      (∃ v rest, s.agenda = .portWrite (s.cfg.csrBase + 0x008) 4 v :: rest ∧ v.getLsbD 1 = true))

/-- The invariant holds after reset. -/
def Obligations.ResetStateMeetsInvariant : Prop := Invariant State.reset

/-- Every step keeps the invariant: memory's canonical form and range, the STATUS and result registers (10_state.md R38,
R46, R52; 70_reset_and_hazards.md R331), the tree EMPTY or ROOTED and built (10_state.md R40, R57 to R61), the code RAM
(R54, R55), a command alone running (30_encoding.md R113, R118) and no build in flight while none does; and no step
changes the platform's parameters (00_scope.md R14). -/
def Obligations.StepKeepsInvariant : Prop :=
  ∀ s t : State, Invariant s → step s = .next t → Invariant t ∧ t.cfg = s.cfg
end

