-- ==== Sys2Proof/Laws/Memory.lean ====
section
/-! SUPPORT. What shared memory and the engine's accesses to it do: read after write, the canonical form, and one lemma per
operation of Machine/Ops.lean that says everything it can do. -/

namespace Sys2Proof.Machine

/-! ### One byte -/

@[simp] theorem Memory.read_nil (a : Nat) : Memory.read [] a = Memory.background := rfl

theorem Memory.read_erase (m : Memory) (a b : Nat) :
    (m.erase a).read b = if a = b then Memory.background else m.read b := by
  induction m with
  | nil => simp [Memory.erase]
  | cons c m ih =>
    obtain ⟨d, v⟩ := c
    by_cases h : a = d
    · subst h
      by_cases hb : a = b
      · subst hb; simpa [Memory.erase] using ih
      · simp [Memory.erase, ih, hb, Memory.read, Ne.symm hb]
    · by_cases hb : b = d
      · subst hb; simp [Memory.erase, h, Memory.read]
      · simp [Memory.erase, h, Memory.read, hb, ih]

theorem Memory.read_insert (m : Memory) (a b : Nat) (v : Byte) :
    (m.insert a v).read b = if a = b then v else m.read b := by
  induction m with
  | nil => simp [Memory.insert, Memory.read, eq_comm]
  | cons c m ih =>
    obtain ⟨d, w⟩ := c
    simp only [Memory.insert]
    split
    · simp only [Memory.read, eq_comm]
    · split
      · subst_vars
        by_cases h : d = b
        · subst h; simp [Memory.read]
        · simp [Memory.read, h, Ne.symm h]
      · by_cases hb : b = d
        · subst hb; simp [Memory.read, *]
        · simp [Memory.read, hb, ih]

/-- Read after write: the byte written, and every other byte as before. -/
theorem Memory.read_write (m : Memory) (a b : Nat) (v : Byte) :
    (m.write a v).read b = if a = b then v else m.read b := by
  unfold Memory.write
  split
  · subst_vars; exact m.read_erase a b
  · exact m.read_insert a b v

@[simp] theorem Memory.read_write_same (m : Memory) (a : Nat) (v : Byte) : (m.write a v).read a = v := by
  simp [Memory.read_write]

theorem Memory.read_write_other (m : Memory) {a b : Nat} (v : Byte) (h : a ≠ b) :
    (m.write a v).read b = m.read b := by
  simp [Memory.read_write, h]

/-! ### The canonical form -/

theorem Memory.mem_erase {m : Memory} {a : Nat} {c : Host.Cell} (h : c ∈ m.erase a) : c ∈ m := by
  induction m with
  | nil => simp [Memory.erase] at h
  | cons d m ih =>
    obtain ⟨b, w⟩ := d
    simp only [Memory.erase] at h
    split at h
    · exact List.mem_cons_of_mem _ (ih h)
    · rcases List.mem_cons.1 h with h | h
      · exact h ▸ List.mem_cons_self
      · exact List.mem_cons_of_mem _ (ih h)

theorem Memory.mem_insert {m : Memory} {a : Nat} {v : Byte} {c : Host.Cell} (h : c ∈ m.insert a v) :
    c = (a, v) ∨ c ∈ m := by
  induction m with
  | nil => left; exact List.mem_singleton.1 h
  | cons d m ih =>
    obtain ⟨b, w⟩ := d
    simp only [Memory.insert] at h
    split at h
    · simpa using h
    · split at h
      · rcases List.mem_cons.1 h with h | h
        · exact .inl h
        · exact .inr (List.mem_cons_of_mem _ h)
      · rcases List.mem_cons.1 h with h | h
        · exact .inr (h ▸ List.mem_cons_self)
        · exact (ih h).imp id (List.mem_cons_of_mem _)

theorem Memory.mem_write {m : Memory} {a : Nat} {v : Byte} {c : Host.Cell} (h : c ∈ m.write a v) :
    c = (a, v) ∨ c ∈ m := by
  unfold Memory.write at h
  split at h
  · exact .inr (Memory.mem_erase h)
  · exact Memory.mem_insert h

theorem Memory.sorted_erase {m : Memory} (a : Nat) (h : m.Pairwise (fun c d => c.1 < d.1)) :
    (m.erase a).Pairwise (fun c d => c.1 < d.1) := by
  induction m with
  | nil => simp [Memory.erase]
  | cons c m ih =>
    obtain ⟨b, w⟩ := c
    rw [List.pairwise_cons] at h
    simp only [Memory.erase]
    split
    · exact ih h.2
    · exact List.pairwise_cons.2 ⟨fun d hd => h.1 d (Memory.mem_erase hd), ih h.2⟩

theorem Memory.sorted_insert {m : Memory} (a : Nat) (v : Byte) (h : m.Pairwise (fun c d => c.1 < d.1)) :
    (m.insert a v).Pairwise (fun c d => c.1 < d.1) := by
  induction m with
  | nil => simp [Memory.insert]
  | cons c m ih =>
    obtain ⟨b, w⟩ := c
    have h' := List.pairwise_cons.1 h
    simp only [Memory.insert]
    split
    · rename_i hlt
      refine List.pairwise_cons.2 ⟨fun d hd => ?_, h⟩
      rcases List.mem_cons.1 hd with hd | hd
      · subst hd; exact hlt
      · exact lt_trans hlt (h'.1 d hd)
    · split
      · rename_i heq; subst heq
        exact List.pairwise_cons.2 ⟨h'.1, h'.2⟩
      · rename_i hlt hne
        refine List.pairwise_cons.2 ⟨fun d hd => ?_, ih h'.2⟩
        rcases Memory.mem_insert hd with hd | hd
        · subst hd; show b < a; omega
        · exact h'.1 d hd

/-- A write keeps the canonical form. -/
theorem Memory.wf_write {m : Memory} (a : Nat) (v : Byte) (h : m.wf) : (m.write a v).wf := by
  unfold Memory.write
  split
  · exact ⟨Memory.sorted_erase a h.1, fun c hc => h.2 c (Memory.mem_erase hc)⟩
  · rename_i hv
    refine ⟨Memory.sorted_insert a v h.1, fun c hc => ?_⟩
    rcases Memory.mem_insert hc with hc | hc
    · subst hc; exact hv
    · exact h.2 c hc

/-! ### What a sequence of writes keeps

`Touches m m' lo n`: `m'` comes from `m` by writes of bytes of `[lo, lo + n)` alone. -/

/-- Only bytes of `[lo, lo + n)` were written, and the canonical form and the listed range are kept. -/
structure Touches (m m' : Memory) (lo n : Nat) : Prop where
  outside : SameOutside m m' lo n
  wf : m.wf → m'.wf
  range : ∀ size, lo + n ≤ size → (∀ c ∈ m, c.1 < size) → ∀ c ∈ m', c.1 < size

theorem Touches.refl (m : Memory) (lo n : Nat) : Touches m m lo n :=
  ⟨fun _ _ => rfl, id, fun _ _ h => h⟩

theorem Touches.trans {m m' m'' : Memory} {lo n : Nat} (h : Touches m m' lo n) (h' : Touches m' m'' lo n) :
    Touches m m'' lo n :=
  ⟨fun a ha => (h'.outside a ha).trans (h.outside a ha), fun hw => h'.wf (h.wf hw),
    fun size hs hr => h'.range size hs (h.range size hs hr)⟩

theorem Touches.mono {m m' : Memory} {lo n lo' n' : Nat} (h : Touches m m' lo n) (h1 : lo' ≤ lo)
    (h2 : lo + n ≤ lo' + n') : Touches m m' lo' n' :=
  ⟨fun a ha => h.outside a (by omega), h.wf, fun size hs hr => h.range size (by omega) hr⟩

theorem Touches.write (m : Memory) {lo n a : Nat} (v : Byte) (h1 : lo ≤ a) (h2 : a < lo + n) :
    Touches m (m.write a v) lo n := by
  refine ⟨fun b hb => m.read_write_other v (by rintro rfl; exact hb ⟨h1, h2⟩), Memory.wf_write a v, ?_⟩
  intro size hs hr c hc
  rcases Memory.mem_write hc with hc | hc
  · subst hc; show a < size; omega
  · exact hr c hc

/-! ### The engine's accesses -/

theorem memFault_iff (c : Config) (a : Nat) (k : AccessKind) :
    Config.memFault c a k = true ↔ (a, k) ∈ c.memFaults := by
  simp [Config.memFault]

/-- A read answers the byte, or raises MEM_FAULT with the address and the memory as it stands. -/
theorem memRead_cases (c : Config) (m : Memory) (a : Nat) :
    ((a, AccessKind.read) ∉ c.memFaults ∧ memRead c m a = .ok (m.read a)) ∨
      ((a, AccessKind.read) ∈ c.memFaults ∧
        memRead c m a = .error { code := .memFault, info := trunc32 a, mem := m }) := by
  unfold memRead
  by_cases h : (a, AccessKind.read) ∈ c.memFaults
  · right; simp [memFault_iff, h]
  · left; simp [memFault_iff, h]

/-- A write answers the memory written, or raises MEM_FAULT with the address and the memory as it stands. -/
theorem memWrite_cases (c : Config) (m : Memory) (a : Nat) (v : Byte) :
    ((a, AccessKind.write) ∉ c.memFaults ∧ memWrite c m a v = .ok (m.write a v)) ∨
      ((a, AccessKind.write) ∈ c.memFaults ∧
        memWrite c m a v = .error { code := .memFault, info := trunc32 a, mem := m }) := by
  unfold memWrite
  by_cases h : (a, AccessKind.write) ∈ c.memFaults
  · right; simp [memFault_iff, h]
  · left; simp [memFault_iff, h]

theorem NoFault.sub {c : Config} {k : AccessKind} {lo n lo' n' : Nat} (h : NoFault c k lo n) (h1 : lo ≤ lo')
    (h2 : lo' + n' ≤ lo + n) : NoFault c k lo' n' :=
  fun a ha hb => h a (by omega) (by omega)

/-- A raise of a sequence of reads is a MEM_FAULT at the first rejected byte, with memory as it stands. -/
theorem readBytes_error {c : Config} {m : Memory} {a n : Nat} {e : Raise} (h : readBytes c m a n = .error e) :
    ∃ i, i < n ∧ (a + i, AccessKind.read) ∈ c.memFaults ∧ NoFault c .read a i ∧
      e = { code := .memFault, info := trunc32 (a + i), mem := m } := by
  induction n generalizing a with
  | zero => simp [readBytes] at h
  | succ n ih =>
    rcases memRead_cases c m a with ⟨h0, h1⟩ | ⟨h0, h1⟩
    · cases h2 : readBytes c m (a + 1) n with
      | ok bs => simp [readBytes, h1, h2, bind, Except.bind, pure, Except.pure] at h
      | error e' =>
        simp only [readBytes, h1, h2, bind, Except.bind] at h
        cases h
        obtain ⟨i, hi, hf, hn, he⟩ := ih h2
        refine ⟨i + 1, by omega, by rwa [← Nat.add_assoc, Nat.add_right_comm] , ?_, ?_⟩
        · intro b hb hb'
          rcases Nat.eq_or_lt_of_le hb with rfl | hlt
          · exact h0
          · exact hn b (by omega) (by omega)
        · rw [he, ← Nat.add_assoc, Nat.add_right_comm]
    · simp only [readBytes, h1, bind, Except.bind] at h
      cases h
      exact ⟨0, by omega, h0, fun b hb hb' => by omega, rfl⟩

/-- With no byte rejected, `n` reads answer the `n` bytes. -/
theorem readBytes_ok {c : Config} {m : Memory} {a n : Nat} (h : NoFault c .read a n) :
    readBytes c m a n = .ok ((List.range n).map (fun i => m.read (a + i))) := by
  induction n generalizing a with
  | zero => rfl
  | succ n ih =>
    rcases memRead_cases c m a with ⟨_, h1⟩ | ⟨h0, _⟩
    · have := ih (a := a + 1) (h.sub (by omega) (by omega))
      simp only [readBytes, h1, this, bind, Except.bind, pure, Except.pure, List.range_succ_eq_map, List.map_cons,
        List.map_map, Nat.add_zero]
      congr 2
      apply List.map_congr_left
      intro i _
      exact congrArg m.read (by omega : a + 1 + i = a + (i + 1))
    · exact absurd h0 (h a (by omega) (by omega))

/-- The answer of a sequence of reads that did not raise. -/
theorem readBytes_eq {c : Config} {m : Memory} {a n : Nat} {bs : List Byte} (h : readBytes c m a n = .ok bs) :
    NoFault c .read a n ∧ bs = (List.range n).map (fun i => m.read (a + i)) := by
  have hn : NoFault c .read a n := by
    induction n generalizing a bs with
    | zero => intro b hb hb'; omega
    | succ n ih =>
      rcases memRead_cases c m a with ⟨h0, h1⟩ | ⟨_, h1⟩
      · cases h2 : readBytes c m (a + 1) n with
        | ok bs' =>
          intro b hb hb'
          rcases Nat.eq_or_lt_of_le hb with rfl | hlt
          · exact h0
          · exact ih h2 b (by omega) (by omega)
        | error e => simp [readBytes, h1, h2, bind, Except.bind] at h
      · simp [readBytes, h1, bind, Except.bind] at h
  refine ⟨hn, ?_⟩
  rw [readBytes_ok hn] at h
  cases h; rfl

/-- With no byte rejected, a sequence of writes stores its bytes and touches no other. -/
theorem writeBytes_ok {c : Config} {m : Memory} {a : Nat} {bs : List Byte} (h : NoFault c .write a bs.length) :
    ∃ m', writeBytes c m a bs = .ok m' ∧ HoldsAt m' a bs ∧ Touches m m' a bs.length := by
  induction bs generalizing m a with
  | nil => exact ⟨m, rfl, fun i hi => absurd hi (by simp), Touches.refl _ _ _⟩
  | cons b bs ih =>
    rcases memWrite_cases c m a b with ⟨_, h1⟩ | ⟨h0, _⟩
    · obtain ⟨m', h2, h3, h4⟩ := ih (m := m.write a b) (a := a + 1)
        (h.sub (by omega) (by simp only [List.length_cons]; omega))
      refine ⟨m', by simp [writeBytes, h1, bind, Except.bind, h2], ?_, ?_⟩
      · intro i hi
        cases i with
        | zero =>
          have := h4.outside a (by omega)
          simpa using this
        | succ i =>
          have := h3 i (by simpa using hi)
          simpa [Nat.add_assoc, Nat.add_comm 1] using this
      · exact (Touches.write m b (le_refl a) (by simp only [List.length_cons]; omega)).trans
          (h4.mono (by omega) (by simp only [List.length_cons]; omega))
    · exact absurd h0 (h a (le_refl a) (by simp only [List.length_cons]; omega))

/-- Whatever a sequence of writes answers, it touches only its own bytes, and a raise is a MEM_FAULT. -/
theorem writeBytes_touches (c : Config) (m : Memory) (a : Nat) (bs : List Byte) :
    (∃ m', writeBytes c m a bs = .ok m' ∧ Touches m m' a bs.length) ∨
      (∃ e, writeBytes c m a bs = .error e ∧ e.code = .memFault ∧ Touches m e.mem a bs.length) := by
  induction bs generalizing m a with
  | nil => exact .inl ⟨m, rfl, Touches.refl _ _ _⟩
  | cons b bs ih =>
    rcases memWrite_cases c m a b with ⟨_, h1⟩ | ⟨_, h1⟩
    · have hw := Touches.write m (n := (b :: bs).length) b (le_refl a) (by simp only [List.length_cons]; omega)
      rcases ih (m.write a b) (a + 1) with ⟨m', h2, h3⟩ | ⟨e, h2, he, h3⟩
      · exact .inl ⟨m', by simp [writeBytes, h1, bind, Except.bind, h2],
          hw.trans (h3.mono (by omega) (by simp only [List.length_cons]; omega))⟩
      · exact .inr ⟨e, by simp [writeBytes, h1, bind, Except.bind, h2], he,
          hw.trans (h3.mono (by omega) (by simp only [List.length_cons]; omega))⟩
    · exact .inr ⟨{ code := .memFault, info := trunc32 a, mem := m }, by simp [writeBytes, h1, bind, Except.bind], rfl,
        Touches.refl _ _ _⟩

/-- A region of free values touches its own bytes alone. -/
theorem Memory.havoc_touches (m : Memory) (a n k : Nat) : Touches m (m.havoc a n k) a n := by
  induction n generalizing m a k with
  | zero => exact Touches.refl _ _ _
  | succ n ih =>
    exact (Touches.write m (n := n + 1) (Config.freeDstByte k) (le_refl a) (by omega)).trans
      ((ih (m.write a (Config.freeDstByte k)) (a + 1) (k + 1)).mono (by omega) (by omega))

/-- Byte `i` of a region of free values is draw `k + i`. -/
theorem Memory.read_havoc (m : Memory) (a n k i : Nat) (h : i < n) :
    (m.havoc a n k).read (a + i) = Config.freeDstByte (k + i) := by
  induction n generalizing m a k i with
  | zero => omega
  | succ n ih =>
    cases i with
    | zero =>
      have := (Memory.havoc_touches (m.write a (Config.freeDstByte k)) (a + 1) n (k + 1)).outside a (by omega)
      simpa [Memory.havoc] using this
    | succ i =>
      have := ih (m.write a (Config.freeDstByte k)) (a + 1) (k + 1) i (by omega)
      simpa [Memory.havoc, Nat.add_assoc, Nat.add_comm 1] using this

end Sys2Proof.Machine
end

