-- ==== Sys2Proof/Laws/State.lean ====
section
/-! SUPPORT. One lemma per field per named update of State, each true by rfl, so that no later proof unfolds a record
update; and what `conclude` answers. -/

namespace Sys2Proof.Machine

/-! ### `latch` and `accept` -/

@[simp] theorem latch_cfg (s : State) (w : Word) : (latch w s).cfg = s.cfg := rfl
@[simp] theorem latch_mem (s : State) (w : Word) : (latch w s).mem = s.mem := rfl
@[simp] theorem latch_irqEn (s : State) (w : Word) : (latch w s).irqEn = s.irqEn := rfl
@[simp] theorem latch_phase (s : State) (w : Word) : (latch w s).phase = .run := rfl
@[simp] theorem latch_done (s : State) (w : Word) : (latch w s).done = false := rfl
@[simp] theorem latch_err (s : State) (w : Word) : (latch w s).err = false := rfl
@[simp] theorem latch_errCode (s : State) (w : Word) : (latch w s).errCode = .none := rfl
@[simp] theorem latch_codesValid (s : State) (w : Word) : (latch w s).codesValid = s.codesValid := rfl
@[simp] theorem latch_wrIgnored (s : State) (w : Word) : (latch w s).wrIgnored = false := rfl
@[simp] theorem latch_cmdDropped (s : State) (w : Word) : (latch w s).cmdDropped = false := rfl
@[simp] theorem latch_donePending (s : State) (w : Word) : (latch w s).donePending = s.donePending := rfl
@[simp] theorem latch_curCmd (s : State) (w : Word) : (latch w s).curCmd = w := rfl
@[simp] theorem latch_srcAddr (s : State) (w : Word) : (latch w s).srcAddr = s.srcAddr := rfl
@[simp] theorem latch_srcLen (s : State) (w : Word) : (latch w s).srcLen = s.srcLen := rfl
@[simp] theorem latch_dstAddr (s : State) (w : Word) : (latch w s).dstAddr = s.dstAddr := rfl
@[simp] theorem latch_dstCap (s : State) (w : Word) : (latch w s).dstCap = s.dstCap := rfl
@[simp] theorem latch_resultLen (s : State) (w : Word) : (latch w s).resultLen = 0#32 := rfl
@[simp] theorem latch_dataLen (s : State) (w : Word) : (latch w s).dataLen = s.dataLen := rfl
@[simp] theorem latch_hdrLen (s : State) (w : Word) : (latch w s).hdrLen = s.hdrLen := rfl
@[simp] theorem latch_bitCursor (s : State) (w : Word) : (latch w s).bitCursor = s.bitCursor := rfl
@[simp] theorem latch_bitCount (s : State) (w : Word) : (latch w s).bitCount = s.bitCount := rfl
@[simp] theorem latch_symbol (s : State) (w : Word) : (latch w s).symbol = s.symbol := rfl
@[simp] theorem latch_errInfo (s : State) (w : Word) : (latch w s).errInfo = 0#32 := rfl
@[simp] theorem latch_freq (s : State) (w : Word) : (latch w s).freq = s.freq := rfl
@[simp] theorem latch_codeLen (s : State) (w : Word) : (latch w s).codeLen = s.codeLen := rfl
@[simp] theorem latch_codeBits (s : State) (w : Word) : (latch w s).codeBits = s.codeBits := rfl
@[simp] theorem latch_tree (s : State) (w : Word) : (latch w s).tree = s.tree := rfl
@[simp] theorem latch_buildStage (s : State) (w : Word) : (latch w s).buildStage = s.buildStage := rfl
@[simp] theorem latch_agenda (s : State) (w : Word) : (latch w s).agenda = s.agenda := rfl
@[simp] theorem latch_busData (s : State) (w : Word) : (latch w s).busData = s.busData := rfl
@[simp] theorem latch_draws (s : State) (w : Word) : (latch w s).draws = s.draws := rfl

/-- A command's word is latched, and its run is to come. -/
theorem accept_ok {w : Word} {i : Instr} (h : decodeWord w = .ok i) (s : State) : accept w s = latch w s := by
  simp only [accept, h]

/-- An illegal word completes at acceptance. -/
theorem accept_error {w : Word} {e : DecodeReject} (h : decodeWord w = .error e) (s : State) :
    accept w s = (latch w s).completed .illegalCmd w := by
  simp only [accept, h]
  rfl

/-! ### `complete` -/

@[simp] theorem complete_cfg (s : State) (codec : Bool) (code : ErrCode) (info : Word) : (complete codec code info s).cfg = s.cfg := rfl
@[simp] theorem complete_mem (s : State) (codec : Bool) (code : ErrCode) (info : Word) : (complete codec code info s).mem = s.mem := rfl
@[simp] theorem complete_irqEn (s : State) (codec : Bool) (code : ErrCode) (info : Word) : (complete codec code info s).irqEn = s.irqEn := rfl
@[simp] theorem complete_phase (s : State) (codec : Bool) (code : ErrCode) (info : Word) : (complete codec code info s).phase = .idle := rfl
@[simp] theorem complete_done (s : State) (codec : Bool) (code : ErrCode) (info : Word) : (complete codec code info s).done = true := rfl
@[simp] theorem complete_err (s : State) (codec : Bool) (code : ErrCode) (info : Word) : (complete codec code info s).err = (code != .none) := rfl
@[simp] theorem complete_errCode (s : State) (codec : Bool) (code : ErrCode) (info : Word) : (complete codec code info s).errCode = code := rfl
@[simp] theorem complete_codesValid (s : State) (codec : Bool) (code : ErrCode) (info : Word) : (complete codec code info s).codesValid = s.codesValid := rfl
@[simp] theorem complete_wrIgnored (s : State) (codec : Bool) (code : ErrCode) (info : Word) : (complete codec code info s).wrIgnored = s.wrIgnored := rfl
@[simp] theorem complete_cmdDropped (s : State) (codec : Bool) (code : ErrCode) (info : Word) : (complete codec code info s).cmdDropped = s.cmdDropped := rfl
@[simp] theorem complete_donePending (s : State) (codec : Bool) (code : ErrCode) (info : Word) : (complete codec code info s).donePending = true := rfl
@[simp] theorem complete_curCmd (s : State) (codec : Bool) (code : ErrCode) (info : Word) : (complete codec code info s).curCmd = s.curCmd := rfl
@[simp] theorem complete_srcAddr (s : State) (codec : Bool) (code : ErrCode) (info : Word) : (complete codec code info s).srcAddr = s.srcAddr := rfl
@[simp] theorem complete_srcLen (s : State) (codec : Bool) (code : ErrCode) (info : Word) : (complete codec code info s).srcLen = s.srcLen := rfl
@[simp] theorem complete_dstAddr (s : State) (codec : Bool) (code : ErrCode) (info : Word) : (complete codec code info s).dstAddr = s.dstAddr := rfl
@[simp] theorem complete_dstCap (s : State) (codec : Bool) (code : ErrCode) (info : Word) : (complete codec code info s).dstCap = s.dstCap := rfl
@[simp] theorem complete_resultLen (s : State) (codec : Bool) (code : ErrCode) (info : Word) : (complete codec code info s).resultLen = s.resultLen := rfl
@[simp] theorem complete_dataLen (s : State) (codec : Bool) (code : ErrCode) (info : Word) : (complete codec code info s).dataLen = s.dataLen := rfl
@[simp] theorem complete_hdrLen (s : State) (codec : Bool) (code : ErrCode) (info : Word) : (complete codec code info s).hdrLen = s.hdrLen := rfl
@[simp] theorem complete_bitCursor (s : State) (codec : Bool) (code : ErrCode) (info : Word) : (complete codec code info s).bitCursor = s.bitCursor := rfl
@[simp] theorem complete_bitCount (s : State) (codec : Bool) (code : ErrCode) (info : Word) : (complete codec code info s).bitCount = s.bitCount := rfl
@[simp] theorem complete_symbol (s : State) (codec : Bool) (code : ErrCode) (info : Word) : (complete codec code info s).symbol = s.symbol := rfl
@[simp] theorem complete_errInfo (s : State) (codec : Bool) (code : ErrCode) (info : Word) : (complete codec code info s).errInfo = info := rfl
@[simp] theorem complete_freq (s : State) (codec : Bool) (code : ErrCode) (info : Word) : (complete codec code info s).freq = s.freq := rfl
@[simp] theorem complete_codeLen (s : State) (codec : Bool) (code : ErrCode) (info : Word) : (complete codec code info s).codeLen = s.codeLen := rfl
@[simp] theorem complete_codeBits (s : State) (codec : Bool) (code : ErrCode) (info : Word) : (complete codec code info s).codeBits = s.codeBits := rfl
@[simp] theorem complete_tree (s : State) (codec : Bool) (code : ErrCode) (info : Word) : (complete codec code info s).tree = (if codec && code != .state then s.tree.clear else s.tree) := rfl
@[simp] theorem complete_buildStage (s : State) (codec : Bool) (code : ErrCode) (info : Word) : (complete codec code info s).buildStage = .notBegun := rfl
@[simp] theorem complete_agenda (s : State) (codec : Bool) (code : ErrCode) (info : Word) : (complete codec code info s).agenda = s.agenda := rfl
@[simp] theorem complete_busData (s : State) (codec : Bool) (code : ErrCode) (info : Word) : (complete codec code info s).busData = s.busData := rfl
@[simp] theorem complete_draws (s : State) (codec : Bool) (code : ErrCode) (info : Word) : (complete codec code info s).draws = s.draws := rfl

/-! ### `State.completed` -/

@[simp] theorem completed_cfg (s : State) (code : ErrCode) (info : Word) : (s.completed code info).cfg = s.cfg := rfl
@[simp] theorem completed_mem (s : State) (code : ErrCode) (info : Word) : (s.completed code info).mem = s.mem := rfl
@[simp] theorem completed_irqEn (s : State) (code : ErrCode) (info : Word) : (s.completed code info).irqEn = s.irqEn := rfl
@[simp] theorem completed_phase (s : State) (code : ErrCode) (info : Word) : (s.completed code info).phase = .idle := rfl
@[simp] theorem completed_done (s : State) (code : ErrCode) (info : Word) : (s.completed code info).done = true := rfl
@[simp] theorem completed_err (s : State) (code : ErrCode) (info : Word) : (s.completed code info).err = (!(code == .none)) := rfl
@[simp] theorem completed_errCode (s : State) (code : ErrCode) (info : Word) : (s.completed code info).errCode = code := rfl
@[simp] theorem completed_codesValid (s : State) (code : ErrCode) (info : Word) : (s.completed code info).codesValid = s.codesValid := rfl
@[simp] theorem completed_wrIgnored (s : State) (code : ErrCode) (info : Word) : (s.completed code info).wrIgnored = s.wrIgnored := rfl
@[simp] theorem completed_cmdDropped (s : State) (code : ErrCode) (info : Word) : (s.completed code info).cmdDropped = s.cmdDropped := rfl
@[simp] theorem completed_donePending (s : State) (code : ErrCode) (info : Word) : (s.completed code info).donePending = true := rfl
@[simp] theorem completed_curCmd (s : State) (code : ErrCode) (info : Word) : (s.completed code info).curCmd = s.curCmd := rfl
@[simp] theorem completed_srcAddr (s : State) (code : ErrCode) (info : Word) : (s.completed code info).srcAddr = s.srcAddr := rfl
@[simp] theorem completed_srcLen (s : State) (code : ErrCode) (info : Word) : (s.completed code info).srcLen = s.srcLen := rfl
@[simp] theorem completed_dstAddr (s : State) (code : ErrCode) (info : Word) : (s.completed code info).dstAddr = s.dstAddr := rfl
@[simp] theorem completed_dstCap (s : State) (code : ErrCode) (info : Word) : (s.completed code info).dstCap = s.dstCap := rfl
@[simp] theorem completed_resultLen (s : State) (code : ErrCode) (info : Word) : (s.completed code info).resultLen = s.resultLen := rfl
@[simp] theorem completed_dataLen (s : State) (code : ErrCode) (info : Word) : (s.completed code info).dataLen = s.dataLen := rfl
@[simp] theorem completed_hdrLen (s : State) (code : ErrCode) (info : Word) : (s.completed code info).hdrLen = s.hdrLen := rfl
@[simp] theorem completed_bitCursor (s : State) (code : ErrCode) (info : Word) : (s.completed code info).bitCursor = s.bitCursor := rfl
@[simp] theorem completed_bitCount (s : State) (code : ErrCode) (info : Word) : (s.completed code info).bitCount = s.bitCount := rfl
@[simp] theorem completed_symbol (s : State) (code : ErrCode) (info : Word) : (s.completed code info).symbol = s.symbol := rfl
@[simp] theorem completed_errInfo (s : State) (code : ErrCode) (info : Word) : (s.completed code info).errInfo = info := rfl
@[simp] theorem completed_freq (s : State) (code : ErrCode) (info : Word) : (s.completed code info).freq = s.freq := rfl
@[simp] theorem completed_codeLen (s : State) (code : ErrCode) (info : Word) : (s.completed code info).codeLen = s.codeLen := rfl
@[simp] theorem completed_codeBits (s : State) (code : ErrCode) (info : Word) : (s.completed code info).codeBits = s.codeBits := rfl
@[simp] theorem completed_tree (s : State) (code : ErrCode) (info : Word) : (s.completed code info).tree = s.tree := rfl
@[simp] theorem completed_buildStage (s : State) (code : ErrCode) (info : Word) : (s.completed code info).buildStage = .notBegun := rfl
@[simp] theorem completed_agenda (s : State) (code : ErrCode) (info : Word) : (s.completed code info).agenda = s.agenda := rfl
@[simp] theorem completed_busData (s : State) (code : ErrCode) (info : Word) : (s.completed code info).busData = s.busData := rfl
@[simp] theorem completed_draws (s : State) (code : ErrCode) (info : Word) : (s.completed code info).draws = s.draws := rfl

/-! ### `State.commitCodes` -/

@[simp] theorem commitCodes_cfg (s : State) (codes : Vector Code 256) : (s.commitCodes codes).cfg = s.cfg := rfl
@[simp] theorem commitCodes_mem (s : State) (codes : Vector Code 256) : (s.commitCodes codes).mem = s.mem := rfl
@[simp] theorem commitCodes_irqEn (s : State) (codes : Vector Code 256) : (s.commitCodes codes).irqEn = s.irqEn := rfl
@[simp] theorem commitCodes_phase (s : State) (codes : Vector Code 256) : (s.commitCodes codes).phase = s.phase := rfl
@[simp] theorem commitCodes_done (s : State) (codes : Vector Code 256) : (s.commitCodes codes).done = s.done := rfl
@[simp] theorem commitCodes_err (s : State) (codes : Vector Code 256) : (s.commitCodes codes).err = s.err := rfl
@[simp] theorem commitCodes_errCode (s : State) (codes : Vector Code 256) : (s.commitCodes codes).errCode = s.errCode := rfl
@[simp] theorem commitCodes_codesValid (s : State) (codes : Vector Code 256) : (s.commitCodes codes).codesValid = true := rfl
@[simp] theorem commitCodes_wrIgnored (s : State) (codes : Vector Code 256) : (s.commitCodes codes).wrIgnored = s.wrIgnored := rfl
@[simp] theorem commitCodes_cmdDropped (s : State) (codes : Vector Code 256) : (s.commitCodes codes).cmdDropped = s.cmdDropped := rfl
@[simp] theorem commitCodes_donePending (s : State) (codes : Vector Code 256) : (s.commitCodes codes).donePending = s.donePending := rfl
@[simp] theorem commitCodes_curCmd (s : State) (codes : Vector Code 256) : (s.commitCodes codes).curCmd = s.curCmd := rfl
@[simp] theorem commitCodes_srcAddr (s : State) (codes : Vector Code 256) : (s.commitCodes codes).srcAddr = s.srcAddr := rfl
@[simp] theorem commitCodes_srcLen (s : State) (codes : Vector Code 256) : (s.commitCodes codes).srcLen = s.srcLen := rfl
@[simp] theorem commitCodes_dstAddr (s : State) (codes : Vector Code 256) : (s.commitCodes codes).dstAddr = s.dstAddr := rfl
@[simp] theorem commitCodes_dstCap (s : State) (codes : Vector Code 256) : (s.commitCodes codes).dstCap = s.dstCap := rfl
@[simp] theorem commitCodes_resultLen (s : State) (codes : Vector Code 256) : (s.commitCodes codes).resultLen = s.resultLen := rfl
@[simp] theorem commitCodes_dataLen (s : State) (codes : Vector Code 256) : (s.commitCodes codes).dataLen = s.dataLen := rfl
@[simp] theorem commitCodes_hdrLen (s : State) (codes : Vector Code 256) : (s.commitCodes codes).hdrLen = s.hdrLen := rfl
@[simp] theorem commitCodes_bitCursor (s : State) (codes : Vector Code 256) : (s.commitCodes codes).bitCursor = s.bitCursor := rfl
@[simp] theorem commitCodes_bitCount (s : State) (codes : Vector Code 256) : (s.commitCodes codes).bitCount = s.bitCount := rfl
@[simp] theorem commitCodes_symbol (s : State) (codes : Vector Code 256) : (s.commitCodes codes).symbol = s.symbol := rfl
@[simp] theorem commitCodes_errInfo (s : State) (codes : Vector Code 256) : (s.commitCodes codes).errInfo = s.errInfo := rfl
@[simp] theorem commitCodes_freq (s : State) (codes : Vector Code 256) : (s.commitCodes codes).freq = s.freq := rfl
@[simp] theorem commitCodes_codeLen (s : State) (codes : Vector Code 256) : (s.commitCodes codes).codeLen = codes.map (fun c => BitVec.ofNat 8 c.length) := rfl
@[simp] theorem commitCodes_codeBits (s : State) (codes : Vector Code 256) : (s.commitCodes codes).codeBits = codes.map (fun c => BitVec.ofNat 256 (bitsValue c)) := rfl
@[simp] theorem commitCodes_tree (s : State) (codes : Vector Code 256) : (s.commitCodes codes).tree = s.tree := rfl
@[simp] theorem commitCodes_buildStage (s : State) (codes : Vector Code 256) : (s.commitCodes codes).buildStage = s.buildStage := rfl
@[simp] theorem commitCodes_agenda (s : State) (codes : Vector Code 256) : (s.commitCodes codes).agenda = s.agenda := rfl
@[simp] theorem commitCodes_busData (s : State) (codes : Vector Code 256) : (s.commitCodes codes).busData = s.busData := rfl
@[simp] theorem commitCodes_draws (s : State) (codes : Vector Code 256) : (s.commitCodes codes).draws = s.draws := rfl

/-! ### `resetEngine` -/

@[simp] theorem resetEngine_cfg (s : State) : (resetEngine s).cfg = s.cfg := rfl
@[simp] theorem resetEngine_mem (s : State) : (resetEngine s).mem = s.mem := rfl
@[simp] theorem resetEngine_irqEn (s : State) : (resetEngine s).irqEn = State.reset.irqEn := rfl
@[simp] theorem resetEngine_phase (s : State) : (resetEngine s).phase = State.reset.phase := rfl
@[simp] theorem resetEngine_done (s : State) : (resetEngine s).done = State.reset.done := rfl
@[simp] theorem resetEngine_err (s : State) : (resetEngine s).err = State.reset.err := rfl
@[simp] theorem resetEngine_errCode (s : State) : (resetEngine s).errCode = State.reset.errCode := rfl
@[simp] theorem resetEngine_codesValid (s : State) : (resetEngine s).codesValid = State.reset.codesValid := rfl
@[simp] theorem resetEngine_wrIgnored (s : State) : (resetEngine s).wrIgnored = State.reset.wrIgnored := rfl
@[simp] theorem resetEngine_cmdDropped (s : State) : (resetEngine s).cmdDropped = State.reset.cmdDropped := rfl
@[simp] theorem resetEngine_donePending (s : State) : (resetEngine s).donePending = State.reset.donePending := rfl
@[simp] theorem resetEngine_curCmd (s : State) : (resetEngine s).curCmd = State.reset.curCmd := rfl
@[simp] theorem resetEngine_srcAddr (s : State) : (resetEngine s).srcAddr = State.reset.srcAddr := rfl
@[simp] theorem resetEngine_srcLen (s : State) : (resetEngine s).srcLen = State.reset.srcLen := rfl
@[simp] theorem resetEngine_dstAddr (s : State) : (resetEngine s).dstAddr = State.reset.dstAddr := rfl
@[simp] theorem resetEngine_dstCap (s : State) : (resetEngine s).dstCap = State.reset.dstCap := rfl
@[simp] theorem resetEngine_resultLen (s : State) : (resetEngine s).resultLen = State.reset.resultLen := rfl
@[simp] theorem resetEngine_dataLen (s : State) : (resetEngine s).dataLen = State.reset.dataLen := rfl
@[simp] theorem resetEngine_hdrLen (s : State) : (resetEngine s).hdrLen = State.reset.hdrLen := rfl
@[simp] theorem resetEngine_bitCursor (s : State) : (resetEngine s).bitCursor = State.reset.bitCursor := rfl
@[simp] theorem resetEngine_bitCount (s : State) : (resetEngine s).bitCount = State.reset.bitCount := rfl
@[simp] theorem resetEngine_symbol (s : State) : (resetEngine s).symbol = State.reset.symbol := rfl
@[simp] theorem resetEngine_errInfo (s : State) : (resetEngine s).errInfo = State.reset.errInfo := rfl
@[simp] theorem resetEngine_freq (s : State) : (resetEngine s).freq = State.reset.freq := rfl
@[simp] theorem resetEngine_codeLen (s : State) : (resetEngine s).codeLen = State.reset.codeLen := rfl
@[simp] theorem resetEngine_codeBits (s : State) : (resetEngine s).codeBits = State.reset.codeBits := rfl
@[simp] theorem resetEngine_tree (s : State) : (resetEngine s).tree = State.reset.tree := rfl
@[simp] theorem resetEngine_buildStage (s : State) : (resetEngine s).buildStage = .notBegun := rfl
@[simp] theorem resetEngine_agenda (s : State) : (resetEngine s).agenda = s.agenda := rfl
@[simp] theorem resetEngine_busData (s : State) : (resetEngine s).busData = s.busData := rfl
@[simp] theorem resetEngine_draws (s : State) : (resetEngine s).draws = s.draws := rfl

/-! ### `hostReadReg` -/

@[simp] theorem hostReadReg_cfg (s : State) (r : PortReg) : (hostReadReg s r).cfg = s.cfg := rfl
@[simp] theorem hostReadReg_mem (s : State) (r : PortReg) : (hostReadReg s r).mem = s.mem := rfl
@[simp] theorem hostReadReg_irqEn (s : State) (r : PortReg) : (hostReadReg s r).irqEn = s.irqEn := rfl
@[simp] theorem hostReadReg_phase (s : State) (r : PortReg) : (hostReadReg s r).phase = s.phase := rfl
@[simp] theorem hostReadReg_done (s : State) (r : PortReg) : (hostReadReg s r).done = s.done := rfl
@[simp] theorem hostReadReg_err (s : State) (r : PortReg) : (hostReadReg s r).err = s.err := rfl
@[simp] theorem hostReadReg_errCode (s : State) (r : PortReg) : (hostReadReg s r).errCode = s.errCode := rfl
@[simp] theorem hostReadReg_codesValid (s : State) (r : PortReg) : (hostReadReg s r).codesValid = s.codesValid := rfl
@[simp] theorem hostReadReg_wrIgnored (s : State) (r : PortReg) : (hostReadReg s r).wrIgnored = s.wrIgnored := rfl
@[simp] theorem hostReadReg_cmdDropped (s : State) (r : PortReg) : (hostReadReg s r).cmdDropped = s.cmdDropped := rfl
@[simp] theorem hostReadReg_donePending (s : State) (r : PortReg) : (hostReadReg s r).donePending = s.donePending := rfl
@[simp] theorem hostReadReg_curCmd (s : State) (r : PortReg) : (hostReadReg s r).curCmd = s.curCmd := rfl
@[simp] theorem hostReadReg_srcAddr (s : State) (r : PortReg) : (hostReadReg s r).srcAddr = s.srcAddr := rfl
@[simp] theorem hostReadReg_srcLen (s : State) (r : PortReg) : (hostReadReg s r).srcLen = s.srcLen := rfl
@[simp] theorem hostReadReg_dstAddr (s : State) (r : PortReg) : (hostReadReg s r).dstAddr = s.dstAddr := rfl
@[simp] theorem hostReadReg_dstCap (s : State) (r : PortReg) : (hostReadReg s r).dstCap = s.dstCap := rfl
@[simp] theorem hostReadReg_resultLen (s : State) (r : PortReg) : (hostReadReg s r).resultLen = s.resultLen := rfl
@[simp] theorem hostReadReg_dataLen (s : State) (r : PortReg) : (hostReadReg s r).dataLen = s.dataLen := rfl
@[simp] theorem hostReadReg_hdrLen (s : State) (r : PortReg) : (hostReadReg s r).hdrLen = s.hdrLen := rfl
@[simp] theorem hostReadReg_bitCursor (s : State) (r : PortReg) : (hostReadReg s r).bitCursor = s.bitCursor := rfl
@[simp] theorem hostReadReg_bitCount (s : State) (r : PortReg) : (hostReadReg s r).bitCount = s.bitCount := rfl
@[simp] theorem hostReadReg_symbol (s : State) (r : PortReg) : (hostReadReg s r).symbol = s.symbol := rfl
@[simp] theorem hostReadReg_errInfo (s : State) (r : PortReg) : (hostReadReg s r).errInfo = s.errInfo := rfl
@[simp] theorem hostReadReg_freq (s : State) (r : PortReg) : (hostReadReg s r).freq = s.freq := rfl
@[simp] theorem hostReadReg_codeLen (s : State) (r : PortReg) : (hostReadReg s r).codeLen = s.codeLen := rfl
@[simp] theorem hostReadReg_codeBits (s : State) (r : PortReg) : (hostReadReg s r).codeBits = s.codeBits := rfl
@[simp] theorem hostReadReg_tree (s : State) (r : PortReg) : (hostReadReg s r).tree = s.tree := rfl
@[simp] theorem hostReadReg_buildStage (s : State) (r : PortReg) : (hostReadReg s r).buildStage = (if r = .status then s.stageNow else s.buildStage) := rfl
@[simp] theorem hostReadReg_agenda (s : State) (r : PortReg) : (hostReadReg s r).agenda = s.agenda := rfl
@[simp] theorem hostReadReg_busData (s : State) (r : PortReg) : (hostReadReg s r).busData = s.readReg r := rfl
@[simp] theorem hostReadReg_draws (s : State) (r : PortReg) : (hostReadReg s r).draws = (if s.readDraws r then s.draws + 1 else s.draws) := rfl

/-! ### `conclude` -/

/-- A command always answers a next state: it completes. -/
theorem conclude_ok (codec : Bool) (s t : State) : conclude codec s (.ok t) = .next (complete codec .none 0#32 t) := rfl

theorem conclude_error (codec : Bool) (s : State) (e : Raise) :
    conclude codec s (.error e) = .next (complete codec e.code e.info { s with mem := e.mem }) := rfl

/-- Completion of a command other than ENCODE and DECODE changes the completion fields alone. -/
theorem complete_false (code : ErrCode) (info : Word) (s : State) : complete false code info s = s.completed code info :=
  rfl

/-- Clearing a vacant arena changes nothing. -/
theorem Tree.clear_vacant {t : Tree} (h : t.Vacant) : t.clear = t := by
  obtain ⟨st, arena, pq, nextId, root⟩ := t
  have h1 : st = .empty := h.empty
  have h2 : arena.map (fun n => { n with valid := false }) = arena := by
    apply Vector.ext
    intro i hi
    have := h.valid ⟨i, hi⟩
    simp only [Fin.getElem_fin] at this
    rw [Vector.getElem_map]
    generalize arena[i] = n at this
    cases n; simp_all
  simp [Tree.clear, h1, h2]

/-- A cleared arena is vacant when PQ was empty. -/
theorem Tree.vacant_clear {t : Tree} (h : t.pq = []) : t.clear.Vacant :=
  ⟨rfl, h, fun i => by simp [Tree.clear]⟩

/-- Completion of ENCODE or DECODE on a vacant arena changes the completion fields alone. -/
theorem complete_vacant (codec : Bool) (code : ErrCode) (info : Word) {s : State} (h : s.tree.Vacant) :
    complete codec code info s = s.completed code info := by
  unfold complete State.completed
  simp [Tree.clear_vacant h, bne]

end Sys2Proof.Machine
end

