-- ==== Sys2Proof/Laws/Run.lean ====
section
/-! SUPPORT. What a command's run can answer, said once: `RunSpec` holds of the run of every command, and the rules about
all commands are read off it. -/

namespace Sys2Proof.Machine

/-- What a raise of a command leaves: one of its errors, and memory changed in DST alone, and only by TRUNCATED_STREAM
and MEM_FAULT. -/
structure RaiseSpec (i : Instr) (s : State) (e : Raise) : Prop where
  code : e.code ∈ mayReport i
  touches : Touches s.mem e.mem s.dstAddr.toNat s.dstCap.toNat
  range : e.mem ≠ s.mem → usesDst i = true ∧ s.dstInRange = true
  early : e.code ≠ .truncatedStream → e.code ≠ .memFault → e.mem = s.mem

/-- What a command that succeeds leaves. -/
structure CommitSpec (i : Instr) (s t : State) : Prop where
  frame : t = { s with
    mem := t.mem, resultLen := t.resultLen, dataLen := t.dataLen, hdrLen := t.hdrLen, bitCursor := t.bitCursor,
    bitCount := t.bitCount, symbol := t.symbol, freq := t.freq, codeLen := t.codeLen, codeBits := t.codeBits,
    codesValid := t.codesValid, tree := t.tree }
  noDst : usesDst i = false → t.mem = s.mem ∧ t.resultLen = s.resultLen
  dst : usesDst i = true →
    Touches s.mem t.mem s.dstAddr.toNat t.resultLen.toNat ∧ t.resultLen.toNat ≤ s.dstCap.toNat ∧ s.dstInRange = true
  codes : i ≠ .encode → i ≠ .codesDerive →
    t.codesValid = s.codesValid ∧ t.codeLen = s.codeLen ∧ t.codeBits = s.codeBits
  tree : i ≠ .encode → i ≠ .decode → i ≠ .treeBuild → i ≠ .treeDestroy → t.tree = s.tree

/-- What the run of a command answers. -/
def RunSpec (i : Instr) (s : State) (r : Except Raise State) : Prop :=
  match r with
  | .ok t => CommitSpec i s t
  | .error e => RaiseSpec i s e

theorem RunSpec.ok {i : Instr} {s t : State} (h : CommitSpec i s t) : RunSpec i s (pure t) := h

/-- A run that begins with a part that may raise. -/
theorem RunSpec.bind {α : Type} {i : Instr} {s : State} {x : Except Raise α} {f : α → Except Raise State}
    (hx : ∀ e, x = .error e → RaiseSpec i s e) (hf : ∀ a, x = .ok a → RunSpec i s (f a)) : RunSpec i s (x >>= f) := by
  cases x with
  | ok a => exact hf a rfl
  | error e => exact hx e rfl

/-- A raise before any memory write. -/
theorem RaiseSpec.early_raise {i : Instr} {s : State} {e : Raise} (hc : e.code ∈ mayReport i) (hm : e.mem = s.mem) :
    RaiseSpec i s e :=
  ⟨hc, hm ▸ Touches.refl _ _ _, fun h => absurd hm h, fun _ _ => hm⟩

/-! ### The checks -/

theorem srcInRange_iff (s : State) : s.srcInRange = true ↔ s.srcAddr.toNat + s.srcLen.toNat ≤ s.cfg.memSize := by
  simp [State.srcInRange]

theorem dstInRange_iff (s : State) : s.dstInRange = true ↔ s.dstAddr.toNat + s.dstCap.toNat ≤ s.cfg.memSize := by
  simp [State.dstInRange]

theorem regionsOverlap_iff (s : State) : s.regionsOverlap = true ↔ ¬ s.disjoint := by
  simp only [State.regionsOverlap, State.disjoint, Bool.and_eq_true, decide_eq_true_eq, ← BitVec.toNat_inj]
  simp only [BitVec.toNat_ofNat, Nat.zero_mod]
  omega

theorem checkSrc_ok {s : State} (h : s.srcAddr.toNat + s.srcLen.toNat ≤ s.cfg.memSize) : checkSrc s = .ok () := by
  simp [checkSrc, (srcInRange_iff s).2 h]

theorem checkDst_ok {s : State} (h : s.dstAddr.toNat + s.dstCap.toNat ≤ s.cfg.memSize) : checkDst s = .ok () := by
  simp [checkDst, (dstInRange_iff s).2 h]

theorem checkOverlap_ok {s : State} (h : s.disjoint) : checkOverlap s = .ok () := by
  have : s.regionsOverlap = false := by
    rw [← Bool.not_eq_true, regionsOverlap_iff]; exact not_not_intro h
  simp [checkOverlap, this]

theorem checkRegions_ok {s : State} (h1 : s.srcAddr.toNat + s.srcLen.toNat ≤ s.cfg.memSize)
    (h2 : s.dstAddr.toNat + s.dstCap.toNat ≤ s.cfg.memSize) (h3 : s.disjoint) : checkRegions s = .ok () := by
  simp [checkRegions, checkSrc_ok h1, checkDst_ok h2, checkOverlap_ok h3, bind, Except.bind]

theorem checkSrc_error {s : State} {e : Raise} (h : checkSrc s = .error e) :
    s.cfg.memSize < s.srcAddr.toNat + s.srcLen.toNat ∧ e = { code := .bounds, info := 0#32, mem := s.mem } := by
  unfold checkSrc at h
  split at h
  · cases h
  · rename_i hr
    rw [srcInRange_iff] at hr
    cases h; exact ⟨by omega, rfl⟩

theorem checkDst_error {s : State} {e : Raise} (h : checkDst s = .error e) :
    s.cfg.memSize < s.dstAddr.toNat + s.dstCap.toNat ∧ e = { code := .bounds, info := 1#32, mem := s.mem } := by
  unfold checkDst at h
  split at h
  · cases h
  · rename_i hr
    rw [dstInRange_iff] at hr
    cases h; exact ⟨by omega, rfl⟩

theorem checkSrc_pass {s : State} {u : Unit} (h : checkSrc s = .ok u) :
    s.srcAddr.toNat + s.srcLen.toNat ≤ s.cfg.memSize := by
  unfold checkSrc at h
  split at h
  · rename_i hr; exact (srcInRange_iff s).1 hr
  · cases h

theorem checkDst_pass {s : State} {u : Unit} (h : checkDst s = .ok u) :
    s.dstAddr.toNat + s.dstCap.toNat ≤ s.cfg.memSize := by
  unfold checkDst at h
  split at h
  · rename_i hr; exact (dstInRange_iff s).1 hr
  · cases h

/-- The region checks report the first that fails. -/
theorem checkRegions_cases (s : State) :
    (s.srcAddr.toNat + s.srcLen.toNat ≤ s.cfg.memSize ∧ s.dstAddr.toNat + s.dstCap.toNat ≤ s.cfg.memSize ∧
        s.disjoint ∧ checkRegions s = .ok ()) ∨
      (s.cfg.memSize < s.srcAddr.toNat + s.srcLen.toNat ∧ checkRegions s = s.raise .bounds 0#32) ∨
      (s.srcAddr.toNat + s.srcLen.toNat ≤ s.cfg.memSize ∧ s.cfg.memSize < s.dstAddr.toNat + s.dstCap.toNat ∧
        checkRegions s = s.raise .bounds 1#32) ∨
      (s.srcAddr.toNat + s.srcLen.toNat ≤ s.cfg.memSize ∧ s.dstAddr.toNat + s.dstCap.toNat ≤ s.cfg.memSize ∧
        ¬ s.disjoint ∧ checkRegions s = s.raise .overlap 0#32) := by
  by_cases h1 : s.srcAddr.toNat + s.srcLen.toNat ≤ s.cfg.memSize
  · by_cases h2 : s.dstAddr.toNat + s.dstCap.toNat ≤ s.cfg.memSize
    · by_cases h3 : s.disjoint
      · exact .inl ⟨h1, h2, h3, checkRegions_ok h1 h2 h3⟩
      · refine .inr (.inr (.inr ⟨h1, h2, h3, ?_⟩))
        simp [checkRegions, checkSrc_ok h1, checkDst_ok h2, checkOverlap, (regionsOverlap_iff s).2 h3, bind, Except.bind]
    · refine .inr (.inr (.inl ⟨h1, by omega, ?_⟩))
      have : s.dstInRange = false := by rw [← Bool.not_eq_true, dstInRange_iff]; exact h2
      simp [checkRegions, checkSrc_ok h1, checkDst, this, bind, Except.bind, State.raise]
  · refine .inr (.inl ⟨by omega, ?_⟩)
    have : s.srcInRange = false := by rw [← Bool.not_eq_true, srcInRange_iff]; exact h1
    simp [checkRegions, checkSrc, this, bind, Except.bind, State.raise]

theorem checkRegions_pass {s : State} {u : Unit} (h : checkRegions s = .ok u) :
    s.srcAddr.toNat + s.srcLen.toNat ≤ s.cfg.memSize ∧ s.dstAddr.toNat + s.dstCap.toNat ≤ s.cfg.memSize ∧
      s.disjoint := by
  rcases checkRegions_cases s with ⟨h1, h2, h3, _⟩ | ⟨_, h'⟩ | ⟨_, _, h'⟩ | ⟨_, _, _, h'⟩
  · exact ⟨h1, h2, h3⟩
  all_goals rw [h'] at h; cases h

theorem checkRegions_error {s : State} {e : Raise} (h : checkRegions s = .error e) :
    (e.code = .bounds ∨ e.code = .overlap) ∧ e.mem = s.mem := by
  rcases checkRegions_cases s with ⟨_, _, _, h'⟩ | ⟨_, h'⟩ | ⟨_, _, h'⟩ | ⟨_, _, _, h'⟩ <;> rw [h'] at h <;> cases h <;>
    simp

theorem checkCapacity_ok {s : State} {n : Nat} (h : n ≤ s.dstCap.toNat) : checkCapacity s n = .ok () := by
  simp [checkCapacity, Nat.not_lt.2 h]

theorem checkCapacity_over {s : State} {n : Nat} (h : s.dstCap.toNat < n) :
    checkCapacity s n = s.raise .dstOverflow (sat32 n) := by
  simp [checkCapacity, h]

theorem checkCapacity_pass {s : State} {n : Nat} {u : Unit} (h : checkCapacity s n = .ok u) : n ≤ s.dstCap.toNat := by
  unfold checkCapacity at h
  split at h
  · cases h
  · omega

theorem checkCapacity_error {s : State} {n : Nat} {e : Raise} (h : checkCapacity s n = .error e) :
    e.code = .dstOverflow ∧ e.mem = s.mem := by
  unfold checkCapacity at h
  split at h <;> cases h
  exact ⟨rfl, rfl⟩

theorem requireEmpty_error {s : State} {e : Raise} (h : requireEmpty s = .error e) :
    s.tree.state ≠ .empty ∧ e = { code := .state, info := 1#32, mem := s.mem } := by
  unfold requireEmpty at h
  split at h <;> cases h
  exact ⟨‹_›, rfl⟩

theorem requireEmpty_ok {s : State} (h : s.tree.state = .empty) : requireEmpty s = .ok () := by
  simp [requireEmpty, h]

theorem requireEmpty_pass {s : State} {u : Unit} (h : requireEmpty s = .ok u) : s.tree.state = .empty := by
  unfold requireEmpty at h
  split at h
  · assumption
  · cases h

theorem requireRooted_error {s : State} {e : Raise} (h : requireRooted s = .error e) :
    s.tree.state ≠ .rooted ∧ e = { code := .state, info := 2#32, mem := s.mem } := by
  unfold requireRooted at h
  split at h <;> cases h
  exact ⟨‹_›, rfl⟩

theorem requireRooted_pass {s : State} {u : Unit} (h : requireRooted s = .ok u) : s.tree.state = .rooted := by
  unfold requireRooted at h
  split at h
  · assumption
  · cases h

theorem requireCodes_error {s : State} {e : Raise} (h : requireCodes s = .error e) :
    s.codesValid = false ∧ e = { code := .state, info := 3#32, mem := s.mem } := by
  unfold requireCodes at h
  split at h
  · cases h
  · rename_i hv; cases h; exact ⟨by simpa using hv, rfl⟩

/-! ### Reads of SRC -/

theorem readSrc_ok {s : State} (h : s.srcReady) : readSrc s = .ok s.srcBytes := readBytes_ok h.2

theorem readSrc_error {s : State} {e : Raise} (h : readSrc s = .error e) : e.code = .memFault ∧ e.mem = s.mem := by
  obtain ⟨_, _, _, _, rfl⟩ := readBytes_error h
  exact ⟨rfl, rfl⟩

theorem readSrc_eq {s : State} {bs : List Byte} (h : readSrc s = .ok bs) : bs = s.srcBytes := (readBytes_eq h).2

@[simp] theorem srcBytes_length (s : State) : s.srcBytes.length = s.srcLen.toNat := by simp [State.srcBytes]

theorem readField_error {c : Config} {m : Memory} {a w : Nat} {e : Raise} (h : readField c m a w = .error e) :
    e.code = .memFault ∧ e.mem = m := by
  unfold readField at h
  cases hb : readBytes c m a w with
  | ok bs => simp [hb, bind, Except.bind, pure, Except.pure] at h
  | error e' =>
    simp only [hb, bind, Except.bind] at h
    cases h
    obtain ⟨_, _, _, _, rfl⟩ := readBytes_error hb
    exact ⟨rfl, rfl⟩

theorem memRead_error {c : Config} {m : Memory} {a : Nat} {e : Raise} (h : memRead c m a = .error e) :
    e.code = .memFault ∧ e.mem = m := by
  rcases memRead_cases c m a with ⟨_, h'⟩ | ⟨_, h'⟩ <;> rw [h'] at h <;> cases h
  exact ⟨rfl, rfl⟩

/-! ### Writes of DST -/

/-- Writing an output that fits: the bytes touched are the output's, and a raise is a MEM_FAULT. -/
theorem writeDst_error {i : Instr} {s : State} {out : List Byte} {e : Raise} (hu : usesDst i = true)
    (hr : s.dstAddr.toNat + s.dstCap.toNat ≤ s.cfg.memSize) (hl : out.length ≤ s.dstCap.toNat)
    (hm : ErrCode.memFault ∈ mayReport i) (h : writeDst s out = .error e) : RaiseSpec i s e := by
  rcases writeBytes_touches s.cfg s.mem s.dstAddr.toNat out with ⟨m', h', _⟩ | ⟨e', h', hc, ht⟩
  · unfold writeDst at h; rw [h'] at h; cases h
  · unfold writeDst at h; rw [h'] at h; cases h
    exact ⟨hc ▸ hm, ht.mono (le_refl _) (by omega), fun _ => ⟨hu, (dstInRange_iff s).2 hr⟩, fun _ hne => absurd hc hne⟩

theorem writeDst_code {s : State} {out : List Byte} {e : Raise} (h : writeDst s out = .error e) :
    e.code = .memFault := by
  rcases writeBytes_touches s.cfg s.mem s.dstAddr.toNat out with ⟨m', h', _⟩ | ⟨e', h', hc, _⟩ <;>
    rw [writeDst, h'] at h <;> cases h
  exact hc

theorem writeDst_touches {s : State} {out : List Byte} {m : Memory} (h : writeDst s out = .ok m) :
    Touches s.mem m s.dstAddr.toNat out.length := by
  rcases writeBytes_touches s.cfg s.mem s.dstAddr.toNat out with ⟨m', h', ht⟩ | ⟨e', h', _⟩
  · unfold writeDst at h; rw [h'] at h; cases h; exact ht
  · unfold writeDst at h; rw [h'] at h; cases h

theorem toNat_ofNat_of_le {n : Nat} {w : Word} (h : n ≤ w.toNat) : (BitVec.ofNat 32 n).toNat = n := by
  rw [BitVec.toNat_ofNat]
  exact Nat.mod_eq_of_lt (lt_of_le_of_lt h w.isLt)

end Sys2Proof.Machine
end

