-- ==== Sys2Proof/Laws/BitPacker.lean ====
section
/-! SUPPORT. What `pack`, `unpack` and the loop of BITS_UNPACK do, bit by bit (40_bitpacker.md R140 to R144), and the
packed stream in memory (20_memory.md R83). -/

namespace Sys2Proof.Machine

/-! ### Numbers from bits -/

theorem bitsValue_lt (bs : List Bool) : bitsValue bs < 2 ^ bs.length := by
  induction bs with
  | nil => simp [bitsValue]
  | cons b bs ih =>
    have : b.toNat ≤ 1 := Bool.toNat_le b
    simp only [bitsValue, List.length_cons, Nat.pow_succ]
    omega

/-- Bit `k` of the number is element `k` of the sequence. -/
theorem bitsValue_testBit (bs : List Bool) (k : Nat) : (bitsValue bs).testBit k = bs.getD k false := by
  induction bs generalizing k with
  | nil => simp [bitsValue]
  | cons b bs ih =>
    have hd : (b.toNat + 2 * bitsValue bs) / 2 = bitsValue bs := by
      cases b <;> simp only [Bool.toNat_false, Bool.toNat_true] <;> omega
    cases k with
    | zero => cases b <;> simp [bitsValue, Nat.testBit_zero]
    | succ k =>
      rw [Nat.testBit_succ]
      simp only [bitsValue, hd, ih, List.getD_cons_succ]

theorem getLsbD_ofNat_bitsValue (w : Nat) (bs : List Bool) (k : Nat) :
    (BitVec.ofNat w (bitsValue bs)).getLsbD k = (decide (k < w) && bs.getD k false) := by
  rw [BitVec.getLsbD_ofNat, bitsValue_testBit]

/-! ### `pack` and `unpack` -/

@[simp] theorem pack_length (bits : List Bool) : (pack bits).length = ceil8 bits.length := by simp [pack]

theorem pack_bit (bits : List Bool) (j k : Nat) (hj : j < (pack bits).length) (hk : k < 8) :
    ((pack bits)[j]).getLsbD k = bits.getD (8 * j + k) false := by
  simp only [pack, List.getElem_map, List.getElem_range, getLsbD_ofNat_bitsValue]
  simp [hk, List.getD_eq_getElem?_getD]

theorem getElem_flatMap_const {α β : Type} (f : α → List β) (n : Nat) (hn : 0 < n) (xs : List α)
    (hf : ∀ x ∈ xs, (f x).length = n) (i : Nat) :
    (xs.flatMap f)[i]? = (xs[i / n]?).bind (fun x => (f x)[i % n]?) := by
  induction xs generalizing i with
  | nil => simp
  | cons x xs ih =>
    have hx := hf x List.mem_cons_self
    rw [List.flatMap_cons, List.getElem?_append]
    by_cases h : i < n
    · simp [hx, h, Nat.div_eq_of_lt h, Nat.mod_eq_of_lt h]
    · rw [if_neg (by omega), hx, ih (fun y hy => hf y (List.mem_cons_of_mem _ hy))]
      obtain ⟨j, rfl⟩ : ∃ j, i = j + n := ⟨i - n, by omega⟩
      simp [Nat.add_div_right _ hn]

@[simp] theorem unpackByte_length (b : Byte) : (unpackByte b).length = 8 := by simp [unpackByte]

@[simp] theorem unpack_length (bs : List Byte) : (unpack bs).length = 8 * bs.length := by
  induction bs with
  | nil => rfl
  | cons b bs ih =>
    have : unpack (b :: bs) = unpackByte b ++ unpack bs := rfl
    rw [this, List.length_append, ih, unpackByte_length, List.length_cons]; omega

theorem unpack_bit (bs : List Byte) (i : Nat) :
    (unpack bs)[i]? = (bs[i / 8]?).map (fun b => b.getLsbD (i % 8)) := by
  unfold unpack
  rw [getElem_flatMap_const unpackByte 8 (by omega) bs (fun x _ => unpackByte_length x)]
  cases bs[i / 8]? with
  | none => rfl
  | some b => simp [unpackByte, Nat.mod_lt i (by omega : 0 < 8)]

/-! ### Streams in memory -/

/-- A stream whose bytes are packed bits has those bits, and zeros after them. -/
theorem streamBit_pack {m : Memory} {a : Nat} {bits : List Bool} (h : HoldsAt m a (pack bits)) {i : Nat}
    (hi : i < 8 * ceil8 bits.length) : streamBit m a i = bits.getD i false := by
  have hl : i / 8 < (pack bits).length := by simp; omega
  unfold streamBit
  rw [h (i / 8) hl, pack_bit bits (i / 8) (i % 8) hl (Nat.mod_lt _ (by omega)), Nat.div_add_mod]

theorem HoldsAt.left {m : Memory} {a : Nat} {xs ys : List Byte} (h : HoldsAt m a (xs ++ ys)) : HoldsAt m a xs := by
  intro i hi
  rw [h i (by simp; omega)]
  exact List.getElem_append_left hi

theorem HoldsAt.right {m : Memory} {a : Nat} {xs ys : List Byte} (h : HoldsAt m a (xs ++ ys)) :
    HoldsAt m (a + xs.length) ys := by
  intro i hi
  have := h (xs.length + i) (by simp; omega)
  rw [← Nat.add_assoc] at this
  rw [this, List.getElem_append_right (by omega)]
  congr 1; omega

theorem HoldsAt.append {m : Memory} {a : Nat} {xs ys : List Byte} (h : HoldsAt m a xs)
    (h' : HoldsAt m (a + xs.length) ys) : HoldsAt m a (xs ++ ys) := by
  intro i hi
  by_cases hx : i < xs.length
  · rw [h i hx, List.getElem_append_left hx]
  · have := h' (i - xs.length) (by simp at hi; omega)
    rw [List.getElem_append_right (by omega), ← this]
    congr 1; omega

/-- A stream whose bytes stand in memory has their bits. -/
theorem streamBit_unpack {m : Memory} {a : Nat} {bs : List Byte} (h : HoldsAt m a bs) {i : Nat}
    (hi : i < 8 * bs.length) : (unpack bs)[i]? = some (streamBit m a i) := by
  have hl : i / 8 < bs.length := by omega
  rw [unpack_bit, List.getElem?_eq_getElem hl, ← h (i / 8) hl]
  rfl

/-- The bytes of SRC stand at SRC_ADDR. -/
theorem srcBytes_holdsAt (s : State) : HoldsAt s.mem s.srcAddr.toNat s.srcBytes := by
  intro i hi
  simp [State.srcBytes]

/-! ### The loop of BITS_UNPACK -/

/-- Whatever the loop answers it touches only the bytes it writes, and a raise is a MEM_FAULT. -/
theorem unpackInto_touches (c : Config) (m : Memory) (src dst n : Nat) :
    (∃ m', unpackInto c m src dst n = .ok m' ∧ Touches m m' dst (8 * n)) ∨
      (∃ e, unpackInto c m src dst n = .error e ∧ e.code = .memFault ∧ Touches m e.mem dst (8 * n)) := by
  induction n generalizing m src dst with
  | zero => exact .inl ⟨m, rfl, Touches.refl _ _ _⟩
  | succ n ih =>
    rcases memRead_cases c m src with ⟨_, h1⟩ | ⟨_, h1⟩
    · rcases writeBytes_touches c m dst ((unpackByte (m.read src)).map bitByte) with ⟨m', h2, h3⟩ | ⟨e, h2, he, h3⟩
      · have hw := h3.mono (lo' := dst) (n' := 8 * (n + 1)) (le_refl _) (by simp)
        rcases ih m' (src + 1) (dst + 8) with ⟨m'', h4, h5⟩ | ⟨e, h4, he, h5⟩
        · exact .inl ⟨m'', by simp [unpackInto, h1, h2, h4, bind, Except.bind],
            hw.trans (h5.mono (by omega) (by omega))⟩
        · exact .inr ⟨e, by simp [unpackInto, h1, h2, h4, bind, Except.bind], he,
            hw.trans (h5.mono (by omega) (by omega))⟩
      · exact .inr ⟨e, by simp [unpackInto, h1, h2, bind, Except.bind], he,
          h3.mono (le_refl _) (by simp)⟩
    · exact .inr ⟨{ code := .memFault, info := trunc32 src, mem := m }, by simp only [unpackInto, h1, bind, Except.bind], rfl, Touches.refl _ _ _⟩

/-- With no access rejected and the regions apart the loop writes each bit of the source as a byte. -/
theorem unpackInto_ok {c : Config} {m : Memory} {src dst n : Nat} (hr : NoFault c .read src n)
    (hw : NoFault c .write dst (8 * n)) (hd : dst + 8 * n ≤ src ∨ src + n ≤ dst) :
    ∃ m', unpackInto c m src dst n = .ok m' ∧
      (∀ i, i < 8 * n → m'.read (dst + i) = bitByte (streamBit m src i)) ∧ Touches m m' dst (8 * n) := by
  induction n generalizing m src dst with
  | zero => exact ⟨m, rfl, fun i hi => by omega, Touches.refl _ _ _⟩
  | succ n ih =>
    have h1 : memRead c m src = .ok (m.read src) := by
      rcases memRead_cases c m src with ⟨_, h⟩ | ⟨h0, _⟩
      · exact h
      · exact absurd h0 (hr src (le_refl _) (by omega))
    obtain ⟨m', h2, h3, h4⟩ := writeBytes_ok (c := c) (m := m) (a := dst)
      (bs := (unpackByte (m.read src)).map bitByte) (hw.sub (le_refl _) (by simp))
    have hlen : ((unpackByte (m.read src)).map bitByte).length = 8 := by simp
    rw [hlen] at h4
    obtain ⟨m'', h5, h6, h7⟩ := ih (m := m') (src := src + 1) (dst := dst + 8)
      (hr.sub (by omega) (by omega)) (hw.sub (by omega) (by omega)) (by omega)
    refine ⟨m'', by simp [unpackInto, h1, h2, h5, bind, Except.bind], ?_,
      (h4.mono (le_refl _) (by omega)).trans (h7.mono (by omega) (by omega))⟩
    intro i hi
    by_cases h8 : i < 8
    · rw [h7.outside (dst + i) (by omega), h3 i (by simpa using h8)]
      simp [unpackByte, streamBit, Nat.div_eq_of_lt h8, Nat.mod_eq_of_lt h8]
    · have h9 := h6 (i - 8) (by omega)
      rw [show dst + 8 + (i - 8) = dst + i by omega] at h9
      rw [h9]
      congr 1
      unfold streamBit
      rw [h4.outside _ (by omega), show src + 1 + (i - 8) / 8 = src + i / 8 by omega,
        show (i - 8) % 8 = i % 8 by omega]

end Sys2Proof.Machine
end

