-- ==== Sys2Proof/Laws/Frequency.lean ====
section
/-! SUPPORT. What the FrequencyTable primitives do (41_frequency.md R160 to R168): little-endian fields, reading a
compressed table, the length and the entries of a serialized one, and counting. -/

namespace Sys2Proof.Machine

/-! ### Little-endian fields -/

@[simp] theorem le_length (v w : Nat) : (le v w).length = w := by
  induction w generalizing v with
  | zero => rfl
  | succ w ih => simp [le, ih]

theorem ofLe_le (v w : Nat) : ofLe (le v w) = v % 256 ^ w := by
  induction w generalizing v with
  | zero => simp [le, ofLe, Nat.mod_one]
  | succ w ih =>
    simp only [le, ofLe, ih, BitVec.toNat_ofNat]
    have h : v % (256 * 256 ^ w) = v % 256 + 256 * (v / 256 % 256 ^ w) := Nat.mod_mul
    rw [Nat.pow_succ 256 w, Nat.mul_comm (256 ^ w), h]

theorem le_getElem (v w j : Nat) (h : j < w) : (le v w)[j]? = some (BitVec.ofNat 8 (v / 256 ^ j)) := by
  induction w generalizing v j with
  | zero => omega
  | succ w ih =>
    cases j with
    | zero => simp [le]
    | succ j => simp only [le, List.getElem?_cons_succ, ih _ _ (by omega : j < w), Nat.div_div_eq_div_mul, Nat.pow_succ']

/-- Reading bytes that stand in memory answers them. -/
theorem readBytes_holds {c : Config} {m : Memory} {a : Nat} {bs : List Byte} (h : HoldsAt m a bs)
    (hf : NoFault c .read a bs.length) : readBytes c m a bs.length = .ok bs := by
  rw [readBytes_ok hf]
  congr 1
  apply List.ext_getElem
  · simp
  · intro i h1 h2
    simp only [List.getElem_map, List.getElem_range]
    exact h i h2

theorem ofLe_lt (bs : List Byte) : ofLe bs < 256 ^ bs.length := by
  induction bs with
  | nil => simp [ofLe]
  | cons b bs ih =>
    have := b.isLt
    simp only [ofLe, List.length_cons, Nat.pow_succ]
    omega

/-- A field of `w` bytes that could be read is below `256 ^ w`. -/
theorem readField_lt {c : Config} {m : Memory} {a v w : Nat} (h : readField c m a w = .ok v) : v < 256 ^ w := by
  unfold readField at h
  cases hb : readBytes c m a w with
  | error e => rw [hb] at h; cases h
  | ok bs =>
    rw [hb] at h
    cases h
    have := ofLe_lt bs
    rwa [show bs.length = w by rw [(readBytes_eq hb).2, List.length_map, List.length_range]] at this

/-- Reading a field that stands in memory answers its value. -/
theorem readField_holds {c : Config} {m : Memory} {a v w : Nat} (h : HoldsAt m a (le v w))
    (hf : NoFault c .read a w) (hv : v < 256 ^ w) : readField c m a w = .ok v := by
  have hb := readBytes_holds h (by simpa using hf)
  rw [le_length] at hb
  simp only [readField, hb, bind, Except.bind, pure, Except.pure]
  rw [ofLe_le, Nat.mod_eq_of_lt hv]

theorem memRead_holds {c : Config} {m : Memory} {a : Nat} {b : Byte} {bs : List Byte} (h : HoldsAt m a (b :: bs))
    (hf : (a, AccessKind.read) ∉ c.memFaults) : memRead c m a = .ok b := by
  rcases memRead_cases c m a with ⟨_, h'⟩ | ⟨h', _⟩
  · rw [h']; exact congrArg _ (h 0 (by simp))
  · exact absurd h' hf

/-! ### Reading a compressed table -/

/-- Entries assigned one after the other (41_frequency.md R165). -/
def assignAll (F : FreqTable) (es : List (Byte × Nat)) : FreqTable :=
  es.foldl (fun F e => F.set (symbolOf e.1).val (BitVec.ofNat 32 e.2) (symbolOf e.1).isLt) F

/-- The entries as bytes. -/
def pairBytes (w : Nat) (es : List (Byte × Nat)) : List Byte :=
  es.flatMap (fun e => e.1 :: le e.2 w)

theorem pairBytes_length (w : Nat) (es : List (Byte × Nat)) : (pairBytes w es).length = es.length * (1 + w) := by
  induction es with
  | nil => simp [pairBytes]
  | cons e es ih =>
    have : pairBytes w (e :: es) = (e.1 :: le e.2 w) ++ pairBytes w es := rfl
    rw [this, List.length_append, ih, List.length_cons, le_length, List.length_cons, Nat.add_mul]
    omega

theorem entryBytes_eq (w : Nat) (es : List (Byte × Nat)) : entryBytes w es = le es.length 4 ++ pairBytes w es := rfl

theorem entryBytes_length (w : Nat) (es : List (Byte × Nat)) : (entryBytes w es).length = 4 + es.length * (1 + w) := by
  rw [entryBytes_eq, List.length_append, le_length, pairBytes_length]

/-- Entries that stand in memory are assigned in order; each count is read modulo its width. -/
theorem readEntries_ok {c : Config} {m : Memory} {base w : Nat} {es : List (Byte × Nat)} {p : Nat} {F : FreqTable}
    (h : HoldsAt m (base + p) (pairBytes w es)) (hf : NoFault c .read (base + p) (es.length * (1 + w))) :
    readEntries c m base w es.length p F = .ok (assignAll F (es.map (fun e => (e.1, e.2 % 256 ^ w)))) := by
  induction es generalizing p F with
  | nil => rfl
  | cons e es ih =>
    have hsplit : pairBytes w (e :: es) = (e.1 :: le e.2 w) ++ pairBytes w es := rfl
    have hm : (e :: es).length * (1 + w) = es.length * (1 + w) + (1 + w) := by
      rw [List.length_cons, Nat.add_mul]; omega
    rw [hsplit] at h
    rw [hm] at hf
    have h1 := memRead_holds h.left (hf (base + p) (le_refl _) (by omega))
    have h2 : readBytes c m (base + p + 1) w = .ok (le e.2 w) := by
      have h3 : HoldsAt m (base + p + 1) (le e.2 w) :=
        HoldsAt.right (xs := [e.1]) (by simpa using h.left)
      have := readBytes_holds h3 (hf.sub (by omega) (by simp; omega))
      rwa [le_length] at this
    have h4 := h.right
    rw [List.length_cons, le_length, show base + p + (w + 1) = base + (p + 1 + w) by omega] at h4
    have h5 := ih (F := F.set (symbolOf e.1).val (BitVec.ofNat 32 (e.2 % 256 ^ w)) (symbolOf e.1).isLt) h4
      (hf.sub (by omega) (by omega))
    simp only [List.length_cons, readEntries, readField, h1, h2, bind, Except.bind, pure, Except.pure, ofLe_le, h5]
    rfl

/-- A bucket that stands in memory and fits is read, and the position moves past it. -/
theorem readBucket_ok {s : State} {base limit w : Nat} {F : FreqTable} {p : Nat} {es : List (Byte × Nat)}
    (h : HoldsAt s.mem (base + p) (entryBytes w es)) (hl : p + (entryBytes w es).length ≤ limit)
    (hf : NoFault s.cfg .read base limit) (hn : es.length < 2 ^ 32) :
    readBucket s base limit w F p =
      .ok (assignAll F (es.map (fun e => (e.1, e.2 % 256 ^ w))), p + (entryBytes w es).length) := by
  rw [entryBytes_length] at hl
  rw [entryBytes_eq] at h
  have h1 := readField_holds (c := s.cfg) h.left (hf.sub (by omega) (by omega)) (by simpa using hn)
  have h2 := h.right
  rw [le_length, Nat.add_assoc] at h2
  have h3 := readEntries_ok (c := s.cfg) (F := F) h2 (hf.sub (by omega) (by omega))
  unfold readBucket
  rw [if_neg (by omega)]
  simp only [h1, bind, Except.bind, pure, Except.pure]
  rw [if_neg (by omega)]
  simp only [h3, entryBytes_length]
  rw [Nat.add_assoc]

/-- A bucket's count that does not fit is reported by its offset. -/
theorem readBucket_noCount {s : State} {base limit w : Nat} {F : FreqTable} {p : Nat} (h : limit < p + 4) :
    readBucket s base limit w F p = s.raise .invalidFrequencyData (sat32 (base - s.srcAddr.toNat + p)) := by
  unfold readBucket
  rw [if_pos h]

/-- A bucket whose entries do not fit is reported by their offset. -/
theorem readBucket_noEntries {s : State} {base limit w : Nat} {F : FreqTable} {p k : Nat}
    (h : HoldsAt s.mem (base + p) (le k 4)) (hk : k < 2 ^ 32) (hf : NoFault s.cfg .read base limit)
    (hp : p + 4 ≤ limit) (hl : limit < p + 4 + k * (1 + w)) :
    readBucket s base limit w F p = s.raise .invalidFrequencyData (sat32 (base - s.srcAddr.toNat + (p + 4))) := by
  have h1 := readField_holds (c := s.cfg) h (hf.sub (by omega) (by omega)) (by simpa using hk)
  unfold readBucket
  rw [if_neg (by omega)]
  simp only [h1, bind, Except.bind]
  rw [if_pos (by omega)]

/-- The errors of one round. -/
theorem readEntries_error {c : Config} {m : Memory} {base w k p : Nat} {F : FreqTable} {e : Raise}
    (h : readEntries c m base w k p F = .error e) : e.code = .memFault ∧ e.mem = m := by
  induction k generalizing p F with
  | zero => simp [readEntries] at h
  | succ k ih =>
    cases h1 : memRead c m (base + p) with
    | error e' =>
      simp only [readEntries, h1, bind, Except.bind] at h
      cases h; exact memRead_error h1
    | ok b =>
      cases h2 : readField c m (base + p + 1) w with
      | error e' =>
        simp only [readEntries, h1, h2, bind, Except.bind] at h
        cases h; exact readField_error h2
      | ok n =>
        simp only [readEntries, h1, h2, bind, Except.bind] at h
        exact ih h

theorem readBucket_error {s : State} {base limit w p : Nat} {F : FreqTable} {e : Raise}
    (h : readBucket s base limit w F p = .error e) :
    (e.code = .invalidFrequencyData ∨ e.code = .memFault) ∧ e.mem = s.mem := by
  unfold readBucket at h
  split at h
  · cases h; exact ⟨.inl rfl, rfl⟩
  · cases h1 : readField s.cfg s.mem (base + p) 4 with
    | error e' =>
      simp only [h1, bind, Except.bind] at h
      cases h; exact ⟨.inr (readField_error h1).1, (readField_error h1).2⟩
    | ok k =>
      simp only [h1, bind, Except.bind] at h
      split at h
      · cases h; exact ⟨.inl rfl, rfl⟩
      · cases h2 : readEntries s.cfg s.mem base w k (p + 4) F with
        | error e' =>
          simp only [h2] at h
          cases h; exact ⟨.inr (readEntries_error h2).1, (readEntries_error h2).2⟩
        | ok F' => simp [h2, pure, Except.pure] at h

/-- The errors of `decompress`. -/
theorem decompress_error {s : State} {base limit : Nat} {e : Raise} (h : decompress s base limit = .error e) :
    (e.code = .invalidFrequencyData ∨ e.code = .memFault) ∧ e.mem = s.mem := by
  unfold decompress at h
  cases h1 : readBucket s base limit 1 zeroTable 0 with
  | error e' => simp only [h1, bind, Except.bind] at h; cases h; exact readBucket_error h1
  | ok r1 =>
    cases h2 : readBucket s base limit 2 r1.1 r1.2 with
    | error e' => simp only [h1, h2, bind, Except.bind] at h; cases h; exact readBucket_error h2
    | ok r2 => simp only [h1, h2, bind, Except.bind] at h; exact readBucket_error h

/-- Assigning in order: the last entry of a symbol wins. -/
theorem assignAll_get (F : FreqTable) (es : List (Byte × Nat)) (sym : Fin 256) :
    (assignAll F es)[sym] = match es.reverse.find? (fun e => e.1.toNat == sym.val) with
      | some e => BitVec.ofNat 32 e.2
      | none => F[sym] := by
  induction es using List.reverseRecOn with
  | nil => rfl
  | append_singleton es e ih =>
    have h1 : assignAll F (es ++ [e]) =
        (assignAll F es).set (symbolOf e.1).val (BitVec.ofNat 32 e.2) (symbolOf e.1).isLt := by
      simp [assignAll, List.foldl_append]
    rw [h1, List.reverse_append]
    simp only [List.reverse_cons, List.reverse_nil, List.nil_append, List.singleton_append, List.find?_cons]
    have hs : (symbolOf e.1).val = e.1.toNat := rfl
    by_cases h : e.1.toNat = sym.val
    · simp [h, hs]
    · have h' : (e.1.toNat == sym.val) = false := by simpa using h
      simp only [h', Fin.getElem_fin, Vector.getElem_set, hs, h, if_false]
      simpa using ih

theorem assignAll_zero (es : List (Byte × Nat)) : assignAll zeroTable es = assigned es := by
  apply Vector.ext
  intro i hi
  have := assignAll_get zeroTable es ⟨i, hi⟩
  simp only [Fin.getElem_fin] at this
  rw [this]
  simp only [assigned, zeroTable, Vector.getElem_ofFn, Vector.getElem_replicate] <;> rfl

theorem mod_counts {w : Nat} {es : List (Byte × Nat)} (h : ∀ e ∈ es, e.2 < 256 ^ w) :
    es.map (fun e => (e.1, e.2 % 256 ^ w)) = es := by
  conv_rhs => rw [← List.map_id es]
  apply List.map_congr_left
  intro e he
  rw [Nat.mod_eq_of_lt (h e he)]
  rfl

theorem assignAll_append (F : FreqTable) (xs ys : List (Byte × Nat)) :
    assignAll F (xs ++ ys) = assignAll (assignAll F xs) ys := by
  simp [assignAll, List.foldl_append]

/-- The state of a `decompress` after the buckets before one: what it holds by position (41_frequency.md R165). -/
theorem decompress_ok {s : State} {base limit : Nat} {eB eS eI : List (Byte × Nat)} (hc : CountsFit eB eS eI)
    (h : HoldsAt s.mem base (tableBytes eB eS eI)) (hl : (tableBytes eB eS eI).length ≤ limit) (hx : limit < 2 ^ 32)
    (hf : NoFault s.cfg .read base limit) :
    decompress s base limit = .ok (assigned (eB ++ eS ++ eI), (tableBytes eB eS eI).length) := by
  have hlen : (tableBytes eB eS eI).length =
      (entryBytes 1 eB).length + (entryBytes 2 eS).length + (entryBytes 4 eI).length := by
    simp only [tableBytes, List.length_append]
  unfold tableBytes at h
  have hB : eB.length < 2 ^ 32 := by have := entryBytes_length 1 eB; omega
  have hS : eS.length < 2 ^ 32 := by have := entryBytes_length 2 eS; omega
  have hI : eI.length < 2 ^ 32 := by have := entryBytes_length 4 eI; omega
  have h1 := readBucket_ok (F := zeroTable) (p := 0) (by simpa using h.left.left) (by omega) hf hB
  rw [mod_counts (by simpa using hc.1)] at h1
  have h2 := readBucket_ok (F := assignAll zeroTable eB) (p := 0 + (entryBytes 1 eB).length)
    (by simpa using h.left.right) (by omega) hf hS
  rw [mod_counts (by simpa using hc.2.1)] at h2
  have h3 := readBucket_ok (F := assignAll (assignAll zeroTable eB) eS)
    (p := 0 + (entryBytes 1 eB).length + (entryBytes 2 eS).length)
    (by have := h.right; simp only [List.length_append] at this; rw [Nat.zero_add, ← Nat.add_assoc] at *; exact this)
    (by omega) hf hI
  rw [mod_counts (by simpa using hc.2.2)] at h3
  unfold decompress
  simp only [h1, h2, bind, Except.bind]
  rw [h3, hlen, Nat.zero_add, ← assignAll_append, ← assignAll_append, assignAll_zero, List.append_assoc]

/-! ### A serialized table -/

/-- The entries `compress` writes for one bucket. -/
def bucketEntries (F : FreqTable) (cls : Bucket) : List (Byte × Nat) :=
  (bucketSymbols F cls).map (fun sym => (BitVec.ofNat 8 sym.val, F[sym].toNat))

theorem bucketBytes_eq (F : FreqTable) (cls : Bucket) :
    bucketBytes F cls = entryBytes cls.width (bucketEntries F cls) := by
  simp [bucketBytes, entryBytes, bucketEntries, List.flatMap_map]

theorem compress_eq (F : FreqTable) :
    compress F = tableBytes (bucketEntries F .byte) (bucketEntries F .short) (bucketEntries F .int) := by
  simp only [compress, bucketBytes_eq, tableBytes]
  rfl

theorem mem_bucketSymbols {F : FreqTable} {cls : Bucket} {sym : Fin 256} :
    sym ∈ bucketSymbols F cls ↔ bucketOf F[sym].toNat = cls := by
  simp [bucketSymbols, symbols]

/-! The interval of counts of each bucket (41_frequency.md R161). -/

theorem bucketOf_none {c : Nat} : bucketOf c = .none ↔ c = 0 := by
  unfold bucketOf
  repeat' split
  all_goals (simp; omega)

theorem bucketOf_byte {c : Nat} : bucketOf c = .byte ↔ 1 ≤ c ∧ c < 255 := by
  unfold bucketOf
  repeat' split
  all_goals (simp; omega)

theorem bucketOf_short {c : Nat} : bucketOf c = .short ↔ 255 ≤ c ∧ c < 65535 := by
  unfold bucketOf
  repeat' split
  all_goals (simp; omega)

theorem bucketOf_int {c : Nat} : bucketOf c = .int ↔ 65535 ≤ c := by
  unfold bucketOf
  repeat' split
  all_goals (simp; omega)

theorem compress_fits (F : FreqTable) :
    CountsFit (bucketEntries F .byte) (bucketEntries F .short) (bucketEntries F .int) := by
  refine ⟨?_, ?_, ?_⟩ <;> intro e he <;> obtain ⟨sym, hs, rfl⟩ := List.mem_map.1 he <;>
    have hb := mem_bucketSymbols.1 hs
  · have := bucketOf_byte.1 hb; show _ < 256; omega
  · have := bucketOf_short.1 hb; show _ < 65536; omega
  · exact (F[sym]).isLt

/-- The entries of a serialized table give the table back. -/
theorem assigned_bucketEntries (F : FreqTable) :
    assigned (bucketEntries F .byte ++ bucketEntries F .short ++ bucketEntries F .int) = F := by
  have hval : ∀ e ∈ bucketEntries F .byte ++ bucketEntries F .short ++ bucketEntries F .int,
      ∀ sym : Fin 256, e.1.toNat = sym.val → e.2 = F[sym].toNat := by
    intro e he sym hs
    have : ∃ cls, e ∈ bucketEntries F cls := by
      rcases List.mem_append.1 he with he | he
      · rcases List.mem_append.1 he with he | he
        · exact ⟨_, he⟩
        · exact ⟨_, he⟩
      · exact ⟨_, he⟩
    obtain ⟨cls, he⟩ := this
    obtain ⟨sym', _, rfl⟩ := List.mem_map.1 he
    have h1 : sym'.val = sym.val := by
      have := hs; simp only [BitVec.toNat_ofNat] at this
      have := sym'.isLt; omega
    rw [Fin.ext h1]
  have hex : ∀ sym : Fin 256, F[sym].toNat ≠ 0 →
      (BitVec.ofNat 8 sym.val, F[sym].toNat) ∈
        bucketEntries F .byte ++ bucketEntries F .short ++ bucketEntries F .int := by
    intro sym h0
    have hm : ∀ cls, bucketOf F[sym].toNat = cls → (BitVec.ofNat 8 sym.val, F[sym].toNat) ∈ bucketEntries F cls :=
      fun cls hc => List.mem_map.2 ⟨sym, mem_bucketSymbols.2 hc, rfl⟩
    simp only [List.mem_append]
    cases hc : bucketOf F[sym].toNat with
    | none => exact absurd (bucketOf_none.1 hc) h0
    | byte => exact .inl (.inl (hm _ hc))
    | short => exact .inl (.inr (hm _ hc))
    | int => exact .inr (hm _ hc)
  apply Vector.ext
  intro i hi
  simp only [assigned, Vector.getElem_ofFn]
  split
  · rename_i e he
    have h1 := List.mem_reverse.1 (List.mem_of_find?_eq_some he)
    have h2 : e.1.toNat = i := by simpa using List.find?_some he
    have h3 := hval e h1 ⟨i, hi⟩ h2
    simp only [Fin.getElem_fin] at h3
    rw [h3]; simp
  · rename_i he
    by_contra hne
    have h0 : F[(⟨i, hi⟩ : Fin 256)].toNat ≠ 0 := by
      intro h0
      apply hne
      apply BitVec.eq_of_toNat_eq
      simpa using h0.symm
    have h1 := List.find?_eq_none.1 he _ (List.mem_reverse.2 (hex ⟨i, hi⟩ h0))
    apply h1
    simp [Nat.mod_eq_of_lt hi]

theorem compress_length (F : FreqTable) : (compress F).length =
    12 + 2 * (bucketSymbols F .byte).length + 3 * (bucketSymbols F .short).length +
      5 * (bucketSymbols F .int).length := by
  simp only [compress_eq, tableBytes, List.length_append, entryBytes_length, bucketEntries, List.length_map]
  omega

theorem filter_classes_le (F : FreqTable) (l : List (Fin 256)) :
    (l.filter (fun sym => bucketOf F[sym].toNat == .byte)).length +
      (l.filter (fun sym => bucketOf F[sym].toNat == .short)).length +
      (l.filter (fun sym => bucketOf F[sym].toNat == .int)).length ≤ l.length := by
  induction l with
  | nil => simp
  | cons x l ih =>
    simp only [List.filter_cons, List.length_cons]
    have hx : ∀ cls : Bucket, (bucketOf F[x].toNat == cls) = decide (bucketOf F[x].toNat = cls) := fun _ => rfl
    simp only [hx]
    generalize bucketOf F[x].toNat = c
    generalize List.filter (fun sym => bucketOf F[sym].toNat == Bucket.byte) l = lb at *
    generalize List.filter (fun sym => bucketOf F[sym].toNat == Bucket.short) l = ls at *
    generalize List.filter (fun sym => bucketOf F[sym].toNat == Bucket.int) l = li at *
    cases c <;> simp <;> omega

/-- A serialized table has 12 to 1292 bytes, so a header 20 to 1300. -/
theorem compress_bounds (F : FreqTable) : 12 ≤ (compress F).length ∧ (compress F).length ≤ 1292 := by
  have h := filter_classes_le F symbols
  have hs : symbols.length = 256 := by simp [symbols]
  rw [compress_length]
  simp only [bucketSymbols] at *
  omega

@[simp] theorem headerBytes_length (F : FreqTable) (dl : Nat) : (headerBytes F dl).length = 8 + (compress F).length := by
  simp only [headerBytes, List.length_append, le_length]

/-! ### Counting -/

theorem count_get {bs : List Byte} (h : bs.length < 2 ^ 32) (sym : Fin 256) :
    ((count bs)[sym]).toNat = bs.count (BitVec.ofNat 8 sym.val) := by
  simp only [count, Fin.getElem_fin, Vector.getElem_ofFn, BitVec.toNat_ofNat]
  exact Nat.mod_eq_of_lt (lt_of_le_of_lt List.count_le_length h)

/-- Summing over the symbols with their counts is summing over the bytes. -/
theorem sum_count (bs : List Byte) (f : Fin 256 → Nat) :
    (symbols.map (fun sym => bs.count (BitVec.ofNat 8 sym.val) * f sym)).sum =
      (bs.map (fun b => f (symbolOf b))).sum := by
  induction bs with
  | nil => simp only [List.count_nil, Nat.zero_mul, List.map_nil, List.sum_nil, List.map_const', List.sum_replicate,
      smul_zero]
  | cons b bs ih =>
    have h1 : ∀ l : List (Fin 256), l.Nodup →
        (l.map (fun sym => (if b = BitVec.ofNat 8 sym.val then 1 else 0) * f sym)).sum =
          if symbolOf b ∈ l then f (symbolOf b) else 0 := by
      intro l hl
      induction l with
      | nil => simp
      | cons x l ihl =>
        have hx := List.nodup_cons.1 hl
        have hb : b = BitVec.ofNat 8 x.val ↔ symbolOf b = x := by
          constructor
          · intro h; apply Fin.ext; rw [h]
            show (BitVec.ofNat 8 x.val).toNat = x.val
            simp
          · intro h; rw [← h]
            apply BitVec.eq_of_toNat_eq
            show _ = (BitVec.ofNat 8 b.toNat).toNat
            simp
        simp only [List.map_cons, List.sum_cons, ihl hx.2, hb]
        by_cases h : symbolOf b = x
        · simp [h, hx.1]
        · simp [h]
    have h2 := h1 symbols (List.nodup_finRange 256)
    have hmem : symbolOf b ∈ symbols := List.mem_finRange _
    rw [if_pos hmem] at h2
    rw [List.map_cons, List.sum_cons, ← ih, ← h2]
    rw [← List.sum_map_add]
    refine congrArg List.sum (List.map_congr_left fun sym _ => ?_)
    rw [List.count_cons, ← Nat.add_mul, Nat.add_comm]
    simp

end Sys2Proof.Machine
end

