-- ==== Sys2Proof/Laws/Tree.lean ====
section
/-! SUPPORT. What building a tree does (42_tree.md R200 to R206): `PQ` stays in its order, and after `k` merges the arena
holds 256 + `k` nodes of a forest whose roots are the members of `PQ`. -/

namespace Sys2Proof.Machine

/-! ### The order of `PQ` -/

theorem PqEntry.before_iff (a b : PqEntry) : a.before b = true ↔
    a.freq.toNat < b.freq.toNat ∨ (a.freq = b.freq ∧ a.node < b.node) := by
  simp [PqEntry.before, BitVec.lt_def]

theorem PqEntry.before_trans {a b c : PqEntry} (h : a.before b = true) (h' : b.before c = true) :
    a.before c = true := by
  rw [PqEntry.before_iff] at *
  rcases h with h | ⟨h, h1⟩ <;> rcases h' with h' | ⟨h', h2⟩
  · exact .inl (h.trans h')
  · exact .inl (h' ▸ h)
  · exact .inl (h ▸ h')
  · exact .inr ⟨h.trans h', h1.trans h2⟩

theorem PqEntry.before_total {a b : PqEntry} (h : a.node ≠ b.node) (h' : ¬ a.before b = true) :
    b.before a = true := by
  rw [PqEntry.before_iff] at *
  have hn : a.node.val ≠ b.node.val := fun e => h (Fin.ext e)
  by_cases hf : a.freq.toNat = b.freq.toNat
  · have hf' := BitVec.eq_of_toNat_eq hf
    refine .inr ⟨hf'.symm, ?_⟩
    rw [Fin.lt_def]
    have : ¬ a.node < b.node := fun hl => h' (.inr ⟨hf', hl⟩)
    rw [Fin.lt_def] at this
    omega
  · left
    have : ¬ a.freq.toNat < b.freq.toNat := fun hl => h' (.inl hl)
    omega

theorem PqEntry.before_ne {a b : PqEntry} (h : a.before b = true) : a ≠ b := by
  rintro rfl
  rw [PqEntry.before_iff] at h
  rcases h with h | ⟨_, h⟩
  · exact lt_irrefl _ h
  · exact lt_irrefl _ h

/-- `PQ` is in its order. -/
abbrev PqSorted (q : List PqEntry) : Prop := q.Pairwise (fun a b => a.before b = true)

theorem mem_pqInsert {e x : PqEntry} {q : List PqEntry} : x ∈ pqInsert e q ↔ x = e ∨ x ∈ q := by
  induction q with
  | nil => simp [pqInsert]
  | cons y q ih =>
    simp only [pqInsert]
    split
    · simp
    · simp only [List.mem_cons, ih]; tauto

theorem pqInsert_length (e : PqEntry) (q : List PqEntry) : (pqInsert e q).length = q.length + 1 := by
  induction q with
  | nil => rfl
  | cons y q ih =>
    simp only [pqInsert]
    split <;> simp [ih]

theorem pqInsert_perm (e : PqEntry) (q : List PqEntry) : (pqInsert e q).Perm (e :: q) := by
  induction q with
  | nil => exact List.Perm.refl _
  | cons y q ih =>
    simp only [pqInsert]
    split
    · exact List.Perm.refl _
    · exact ((ih.cons y)).trans (List.Perm.swap e y q)

theorem pqInsert_sorted {e : PqEntry} {q : List PqEntry} (h : PqSorted q) (he : ∀ x ∈ q, x.node ≠ e.node) :
    PqSorted (pqInsert e q) := by
  induction q with
  | nil => exact List.pairwise_singleton _ _
  | cons y q ih =>
    have h' := List.pairwise_cons.1 h
    simp only [pqInsert]
    split
    · rename_i hb
      refine List.pairwise_cons.2 ⟨fun x hx => ?_, h⟩
      rcases List.mem_cons.1 hx with rfl | hx
      · exact hb
      · exact PqEntry.before_trans hb (h'.1 x hx)
    · rename_i hb
      refine List.pairwise_cons.2 ⟨fun x hx => ?_, ih h'.2 fun x hx => he x (List.mem_cons_of_mem _ hx)⟩
      rcases mem_pqInsert.1 hx with rfl | hx
      · exact PqEntry.before_total (Ne.symm (he y List.mem_cons_self)) hb
      · exact h'.1 x hx

/-! ### The arena -/

theorem setParent_get (arena : Vector Node 511) (n m i : NodeId) :
    (setParent arena n m)[i] = if i = n then { arena[n] with parent := some m } else arena[i] := by
  unfold setParent
  by_cases h : i = n
  · subst h; simp
  · have : n.val ≠ i.val := fun e => h (Fin.ext e.symm)
    simp [h, this]

/-- What an arena entry is after a merge of `a` and `b` into `m`. -/
theorem merged_get {arena : Vector Node 511} {a b m : NodeId} {node : Node} (hab : a ≠ b) (ham : a ≠ m) (hbm : b ≠ m)
    (i : NodeId) : (setParent (setParent (arena.set m.val node m.isLt) a m) b m)[i] =
      if i = m then node
      else if i = a ∨ i = b then { arena[i] with parent := some m } else arena[i] := by
  have hset : ∀ j : NodeId, (arena.set m.val node m.isLt)[j] = if j = m then node else arena[j] := by
    intro j
    by_cases h : j = m
    · subst h; simp
    · have : m.val ≠ j.val := fun e => h (Fin.ext e.symm)
      simp [h, this]
  simp only [setParent_get, hset]
  by_cases h1 : i = b
  · subst h1; simp [hbm, Ne.symm hab]
  · by_cases h2 : i = a
    · subst h2; simp [h1, ham]
    · simp [h1, h2]

/-! ### After `k` merges -/

/-- The forest of a build in progress: the nodes below NEXT_ID are made, the members of `PQ` are those without a
parent. -/
structure Building (F : FreqTable) (t : Tree) : Prop where
  low : 256 ≤ t.nextId
  high : t.nextId ≤ 511
  pqLength : t.pq.length = 512 - t.nextId
  sorted : PqSorted t.pq
  member : ∀ e ∈ t.pq, e.node.val < t.nextId ∧ (t.arena[e.node]).parent = none ∧ e.freq = (t.arena[e.node]).freq
  root : ∀ i : NodeId, i.val < t.nextId → (t.arena[i]).parent = none → ∃ e ∈ t.pq, e.node = i
  valid : ∀ i : NodeId, i.val < t.nextId → (t.arena[i]).valid = true
  id : ∀ i : NodeId, i.val < t.nextId → (t.arena[i]).id = i
  leaf : ∀ sym : Fin 256, (t.arena[leafId sym]).kind = .leaf (BitVec.ofNat 8 sym.val) ∧
    (t.arena[leafId sym]).freq = F[sym].setWidth 40
  internal : ∀ i : NodeId, 256 ≤ i.val → i.val < t.nextId → ∃ l r, (t.arena[i]).kind = .internal l r ∧ l ≠ r ∧ l < i ∧
    r < i ∧ (t.arena[l]).parent = some i ∧ (t.arena[r]).parent = some i ∧
    (t.arena[i]).freq.toNat = (t.arena[l]).freq.toNat + (t.arena[r]).freq.toNat
  parent : ∀ i p : NodeId, i.val < t.nextId → (t.arena[i]).parent = some p →
    256 ≤ p.val ∧ i < p ∧ p.val < t.nextId ∧ ∃ l r, (t.arena[p]).kind = .internal l r ∧ (i = l ∨ i = r)
  total : (t.pq.map (fun e => e.freq.toNat)).sum = (symbols.map (fun sym => F[sym].toNat)).sum
  least : ∀ m l r : NodeId, 256 ≤ m.val → m.val < t.nextId → (t.arena[m]).kind = .internal l r →
    Unmerged t.arena m l ∧ Unmerged t.arena m r ∧ NodeBefore t.arena l r ∧
      ∀ x, Unmerged t.arena m x → x ≠ l → x ≠ r → NodeBefore t.arena r x

theorem leafId_val (sym : Fin 256) : (leafId sym).val = sym.val := rfl

theorem sum_freq_lt (F : FreqTable) : (symbols.map (fun sym => F[sym].toNat)).sum < 2 ^ 40 := by
  have h : ∀ l : List (Fin 256), (l.map (fun sym => F[sym].toNat)).sum ≤ l.length * (2 ^ 32 - 1) := by
    intro l
    induction l with
    | nil => simp
    | cons x l ih =>
      have := (F[x]).isLt
      simp only [List.map_cons, List.sum_cons, List.length_cons, Nat.add_mul]
      omega
  have h' := h symbols
  have : symbols.length = 256 := List.length_finRange
  rw [this] at h'
  omega

theorem freq_setWidth (w : Word) : (w.setWidth 40).toNat = w.toNat := by
  rw [BitVec.toNat_setWidth]
  exact Nat.mod_eq_of_lt (lt_trans w.isLt (by decide))

/-- The member of `PQ` that seeding makes for a symbol. -/
def seedEntry (F : FreqTable) (sym : Fin 256) : PqEntry := { freq := F[sym].setWidth 40, node := leafId sym }

theorem seed_pq (F : FreqTable) (t : Tree) :
    (Tree.seed F t).pq = symbols.foldr (fun sym q => pqInsert (seedEntry F sym) q) [] := by
  simp only [Tree.seed, seedEntry]

theorem seedEntries_sorted (F : FreqTable) (l : List (Fin 256)) (hl : l.Nodup) :
    PqSorted (l.foldr (fun sym q => pqInsert (seedEntry F sym) q) []) ∧
      (l.foldr (fun sym q => pqInsert (seedEntry F sym) q) []).Perm (l.map (seedEntry F)) := by
  induction l with
  | nil => exact ⟨List.Pairwise.nil, List.Perm.refl _⟩
  | cons x l ih =>
    have hx := List.nodup_cons.1 hl
    obtain ⟨h1, h2⟩ := ih hx.2
    refine ⟨pqInsert_sorted h1 ?_, (pqInsert_perm _ _).trans (h2.cons _)⟩
    intro y hy
    obtain ⟨z, hz, rfl⟩ := List.mem_map.1 (h2.mem_iff.1 hy)
    intro he
    have hzx : z = x := Fin.ext (Fin.val_eq_of_eq he : (leafId z).val = (leafId x).val)
    exact hx.1 (hzx ▸ hz)

/-- The 256 leaves, all of them in `PQ`, are a forest. -/
theorem building_leaves {F : FreqTable} {u : Tree} (hn : u.nextId = 256) (hs : PqSorted u.pq)
    (hp : u.pq.Perm (symbols.map (seedEntry F))) (hleaf : ∀ sym : Fin 256, u.arena[leafId sym] = leafNode F sym) :
    Building F u := by
  have hid : ∀ i : NodeId, i.val < u.nextId → ∃ sym : Fin 256, i = leafId sym := by
    intro i hi
    rw [hn] at hi
    exact ⟨⟨i.val, hi⟩, Fin.ext rfl⟩
  have hno : ∀ i : NodeId, 256 ≤ i.val → ¬ i.val < u.nextId := fun i h => by rw [hn]; omega
  have hmem : ∀ e ∈ u.pq, ∃ sym, e = seedEntry F sym := by
    intro e he
    obtain ⟨sym, _, h⟩ := List.mem_map.1 (hp.mem_iff.1 he)
    exact ⟨sym, h.symm⟩
  constructor
  · omega
  · omega
  · rw [hp.length_eq, List.length_map, symbols, List.length_finRange, hn]
  · exact hs
  · intro e he
    obtain ⟨sym, rfl⟩ := hmem e he
    refine ⟨by rw [hn]; exact sym.isLt, ?_, ?_⟩
    · exact congrArg Node.parent (hleaf sym)
    · exact (congrArg Node.freq (hleaf sym)).symm
  · intro i hi _
    obtain ⟨sym, rfl⟩ := hid i hi
    exact ⟨seedEntry F sym, hp.mem_iff.2 (List.mem_map.2 ⟨sym, List.mem_finRange _, rfl⟩), rfl⟩
  · intro i hi
    obtain ⟨sym, rfl⟩ := hid i hi
    rw [hleaf sym]; rfl
  · intro i hi
    obtain ⟨sym, rfl⟩ := hid i hi
    rw [hleaf sym]; rfl
  · intro sym
    rw [hleaf sym]; exact ⟨rfl, rfl⟩
  · exact fun i h1 h2 => absurd h2 (hno i h1)
  · intro i p hi h
    obtain ⟨sym, rfl⟩ := hid i hi
    rw [hleaf sym] at h
    cases h
  · have h1 := (hp.map (fun e => e.freq.toNat)).sum_nat
    rw [List.map_map] at h1
    rw [h1]
    refine congrArg List.sum (List.map_congr_left fun sym _ => ?_)
    exact freq_setWidth _
  · exact fun m l r h1 h2 => absurd h2 (hno m h1)

/-- Seeding leaves the 256 leaves, all of them in `PQ`. -/
theorem building_seed (F : FreqTable) (t : Tree) : Building F { Tree.seed F t with state := .merging } := by
  have h := seedEntries_sorted F symbols (List.nodup_finRange 256)
  have hpq := seed_pq F t
  have hn : (Tree.seed F t).nextId = 256 := rfl
  have hleaf : ∀ sym : Fin 256, (Tree.seed F t).arena[leafId sym] = leafNode F sym := fun sym => by
    simp [Tree.seed, leafId_val]
  rw [← hpq] at h
  generalize Tree.seed F t = u at *
  exact building_leaves hn h.1 h.2 hleaf

/-- One merge keeps the forest and makes one node. -/
theorem building_merge {F : FreqTable} {t : Tree} (h : Building F t) (hn : t.nextId < 511) :
    Building F t.merge ∧ t.merge.nextId = t.nextId + 1 := by
  obtain ⟨a, b, rest, hq⟩ : ∃ a b rest, t.pq = a :: b :: rest := by
    have hl := h.pqLength
    match hq : t.pq with
    | [] => rw [hq] at hl; simp at hl; omega
    | [x] => rw [hq] at hl; simp at hl; omega
    | a :: b :: rest => exact ⟨a, b, rest, rfl⟩
  let m : NodeId := ⟨t.nextId, hn⟩
  let node : Node :=
    { valid := true, kind := .internal a.node b.node, freq := a.freq + b.freq, id := m, parent := none }
  let A := setParent (setParent (t.arena.set m.val node m.isLt) a.node m) b.node m
  have hmerge : t.merge = { t with
      arena := A, pq := pqInsert { freq := a.freq + b.freq, node := m } rest, nextId := t.nextId + 1 } := by
    unfold Tree.merge
    rw [hq]
    simp only [hn, dite_true]
    rfl
  have hsorted := h.sorted
  rw [hq] at hsorted
  have hs1 := List.pairwise_cons.1 hsorted
  have hs2 := List.pairwise_cons.1 hs1.2
  have hma := h.member a (by simp [hq])
  have hmb := h.member b (by simp [hq])
  have hmr : ∀ e ∈ rest, _ := fun e he => h.member e (by simp [hq, he])
  have hnode : ∀ x y : PqEntry, x ∈ t.pq → y ∈ t.pq → x.before y = true → x.node ≠ y.node := by
    intro x y hx hy hb he
    have h1 := (h.member x hx).2.2
    have h2 := (h.member y hy).2.2
    have hxy : x = y := by
      cases x; cases y
      simp only at he
      subst he
      simp only at h1 h2
      rw [h1, h2]
    exact PqEntry.before_ne hb hxy
  have hab : a.node ≠ b.node := hnode a b (by simp [hq]) (by simp [hq]) (hs1.1 b List.mem_cons_self)
  have har : ∀ e ∈ rest, e.node ≠ a.node := fun e he =>
    Ne.symm (hnode a e (by simp [hq]) (by simp [hq, he]) (hs1.1 e (List.mem_cons_of_mem _ he)))
  have hbr : ∀ e ∈ rest, e.node ≠ b.node := fun e he =>
    Ne.symm (hnode b e (by simp [hq]) (by simp [hq, he]) (hs2.1 e he))
  have ham : a.node ≠ m := fun e => by have := hma.1; rw [e] at this; exact lt_irrefl _ this
  have hbm : b.node ≠ m := fun e => by have := hmb.1; rw [e] at this; exact lt_irrefl _ this
  have hA : ∀ i : NodeId, A[i] = if i = m then node
      else if i = a.node ∨ i = b.node then { t.arena[i] with parent := some m } else t.arena[i] :=
    merged_get hab ham hbm
  have hAm : A[m] = node := by rw [hA]; simp
  have hlt : ∀ i : NodeId, i.val < t.nextId → i ≠ m := fun i hi e => by rw [e] at hi; exact lt_irrefl _ hi
  have hAlt : ∀ i : NodeId, i.val < t.nextId → A[i].valid = t.arena[i].valid ∧ A[i].kind = t.arena[i].kind ∧
      A[i].freq = t.arena[i].freq ∧ A[i].id = t.arena[i].id ∧
      A[i].parent = if i = a.node ∨ i = b.node then some m else t.arena[i].parent := by
    intro i hi
    rw [hA, if_neg (hlt i hi)]
    split <;> exact ⟨rfl, rfl, rfl, rfl, rfl⟩
  have hcases : ∀ i : NodeId, i.val < t.nextId + 1 → i.val < t.nextId ∨ i = m := by
    intro i hi
    rcases Nat.lt_succ_iff_lt_or_eq.1 hi with hi | hi
    · exact .inl hi
    · exact .inr (Fin.ext hi)
  have hsum : (a.freq + b.freq).toNat = a.freq.toNat + b.freq.toNat := by
    have h1 := h.total
    have h2 := sum_freq_lt F
    rw [hq] at h1
    simp only [List.map_cons, List.sum_cons] at h1
    rw [BitVec.toNat_add]
    exact Nat.mod_eq_of_lt (by omega)
  have hfreqA : A[a.node].freq = a.freq := by rw [(hAlt _ hma.1).2.2.1]; exact hma.2.2.symm
  have hfreqB : A[b.node].freq = b.freq := by rw [(hAlt _ hmb.1).2.2.1]; exact hmb.2.2.symm
  have hparA : A[a.node].parent = some m := by rw [(hAlt _ hma.1).2.2.2.2]; simp
  have hparB : A[b.node].parent = some m := by rw [(hAlt _ hmb.1).2.2.2.2]; simp
  -- a link made earlier stays
  have hkeep : ∀ i p : NodeId, i.val < t.nextId → t.arena[i].parent = some p → A[i].parent = some p := by
    intro i p hi hp
    have hia : i ≠ a.node := fun e => by rw [e, hma.2.1] at hp; cases hp
    have hib : i ≠ b.node := fun e => by rw [e, hmb.2.1] at hp; cases hp
    rw [(hAlt i hi).2.2.2.2, if_neg (not_or.2 ⟨hia, hib⟩), hp]
  have hunm : ∀ k x : NodeId, k.val < t.nextId → (Unmerged A k x ↔ Unmerged t.arena k x) := by
    intro k x hk
    unfold Unmerged
    refine and_congr_right fun hxk => ?_
    have hx : x.val < t.nextId := lt_trans (Fin.lt_def.1 hxk) hk
    rw [(hAlt x hx).2.2.2.2]
    by_cases hxa : x = a.node ∨ x = b.node
    · have : t.arena[x].parent = none := by rcases hxa with rfl | rfl; exacts [hma.2.1, hmb.2.1]
      simp only [hxa, if_true, this, Option.some.injEq, reduceCtorEq, false_implies, implies_true, iff_true]
      rintro p rfl
      exact Fin.le_def.2 (le_of_lt hk)
    · simp only [hxa, if_false]
  have hbef : ∀ x y : NodeId, x.val < t.nextId → y.val < t.nextId → (NodeBefore A x y ↔ NodeBefore t.arena x y) := by
    intro x y hx hy
    unfold NodeBefore
    rw [(hAlt x hx).2.2.1, (hAlt y hy).2.2.1]
  refine ⟨?_, by rw [hmerge]⟩
  rw [hmerge]
  constructor
  · show 256 ≤ t.nextId + 1; have := h.low; omega
  · show t.nextId + 1 ≤ 511; omega
  · show (pqInsert _ rest).length = 512 - (t.nextId + 1)
    have := h.pqLength
    rw [hq] at this
    simp only [List.length_cons] at this
    rw [pqInsert_length]; omega
  · exact pqInsert_sorted hs2.2 fun x hx => hlt _ (hmr x hx).1
  · intro e he
    rcases mem_pqInsert.1 he with rfl | he
    · exact ⟨Nat.lt_succ_self _, by show A[m].parent = none; rw [hAm], by show _ = A[m].freq; rw [hAm]⟩
    · have h1 := hmr e he
      refine ⟨Nat.lt_succ_of_lt h1.1, ?_, ?_⟩
      · show A[e.node].parent = none
        rw [(hAlt _ h1.1).2.2.2.2, if_neg (not_or.2 ⟨har e he, hbr e he⟩), h1.2.1]
      · show _ = A[e.node].freq
        rw [(hAlt _ h1.1).2.2.1]; exact h1.2.2
  · intro i hi hp
    have hp' : A[i].parent = none := hp
    rcases hcases i hi with hi | rfl
    · rw [(hAlt i hi).2.2.2.2] at hp'
      by_cases hia : i = a.node ∨ i = b.node
      · simp [hia] at hp'
      · simp only [hia, if_false] at hp'
        obtain ⟨e, he, rfl⟩ := h.root i hi hp'
        rw [hq] at he
        simp only [List.mem_cons] at he
        rcases he with rfl | rfl | he
        · exact absurd (.inl rfl) hia
        · exact absurd (.inr rfl) hia
        · exact ⟨e, mem_pqInsert.2 (.inr he), rfl⟩
    · exact ⟨_, mem_pqInsert.2 (.inl rfl), rfl⟩
  · intro i hi
    show A[i].valid = true
    rcases hcases i hi with hi | rfl
    · rw [(hAlt i hi).1]; exact h.valid i hi
    · rw [hAm]
  · intro i hi
    show A[i].id = i
    rcases hcases i hi with hi | rfl
    · rw [(hAlt i hi).2.2.2.1]; exact h.id i hi
    · rw [hAm]
  · intro sym
    have hi : (leafId sym).val < t.nextId := lt_of_lt_of_le sym.isLt h.low
    show A[leafId sym].kind = _ ∧ A[leafId sym].freq = _
    rw [(hAlt _ hi).2.1, (hAlt _ hi).2.2.1]
    exact h.leaf sym
  · intro i h256 hi
    show ∃ l r, A[i].kind = .internal l r ∧ l ≠ r ∧ l < i ∧ r < i ∧ A[l].parent = some i ∧ A[r].parent = some i ∧
      A[i].freq.toNat = A[l].freq.toNat + A[r].freq.toNat
    rcases hcases i hi with hi | rfl
    · obtain ⟨l, r, h1, h2, h3, h4, h5, h6, h7⟩ := h.internal i h256 hi
      have hl : l.val < t.nextId := lt_trans (Fin.lt_def.1 h3) hi
      have hr : r.val < t.nextId := lt_trans (Fin.lt_def.1 h4) hi
      refine ⟨l, r, by rw [(hAlt i hi).2.1, h1], h2, h3, h4, hkeep l i hl h5, hkeep r i hr h6, ?_⟩
      rw [(hAlt i hi).2.2.1, (hAlt l hl).2.2.1, (hAlt r hr).2.2.1, h7]
    · refine ⟨a.node, b.node, by rw [hAm], hab, Fin.lt_def.2 hma.1, Fin.lt_def.2 hmb.1, hparA, hparB, ?_⟩
      rw [hAm, hfreqA, hfreqB]; exact hsum
  · intro i p hi hp
    have hp' : A[i].parent = some p := hp
    show 256 ≤ p.val ∧ i < p ∧ p.val < t.nextId + 1 ∧ ∃ l r, A[p].kind = .internal l r ∧ (i = l ∨ i = r)
    rcases hcases i hi with hi | rfl
    · rw [(hAlt i hi).2.2.2.2] at hp'
      by_cases hia : i = a.node ∨ i = b.node
      · simp only [hia, if_true, Option.some.injEq] at hp'
        subst hp'
        exact ⟨h.low, Fin.lt_def.2 hi, Nat.lt_succ_self _, a.node, b.node, by rw [hAm], hia⟩
      · simp only [hia, if_false] at hp'
        obtain ⟨h1, h2, h3, l, r, h4, h5⟩ := h.parent i p hi hp'
        exact ⟨h1, h2, Nat.lt_succ_of_lt h3, l, r, by rw [(hAlt p h3).2.1, h4], h5⟩
    · rw [hAm] at hp'; cases hp'
  · show ((pqInsert _ rest).map (fun e => e.freq.toNat)).sum = _
    have h1 := h.total
    rw [hq] at h1
    simp only [List.map_cons, List.sum_cons] at h1
    have h2 := ((pqInsert_perm { freq := a.freq + b.freq, node := m } rest).map (fun e => e.freq.toNat)).sum_nat
    rw [h2]
    simp only [List.map_cons, List.sum_cons]
    rw [← h1, hsum]; omega
  · intro k l r h256 hk hkind
    have hkind' : A[k].kind = .internal l r := hkind
    show Unmerged A k l ∧ Unmerged A k r ∧ NodeBefore A l r ∧
      ∀ x, Unmerged A k x → x ≠ l → x ≠ r → NodeBefore A r x
    rcases hcases k hk with hk | rfl
    · rw [(hAlt k hk).2.1] at hkind'
      obtain ⟨h1, h2, h3, h4⟩ := h.least k l r h256 hk hkind'
      have hl : l.val < t.nextId := lt_trans (Fin.lt_def.1 h1.1) hk
      have hr : r.val < t.nextId := lt_trans (Fin.lt_def.1 h2.1) hk
      refine ⟨(hunm k l hk).2 h1, (hunm k r hk).2 h2, (hbef l r hl hr).2 h3, ?_⟩
      intro x hx hxl hxr
      exact (hbef r x hr (lt_trans (Fin.lt_def.1 hx.1) hk)).2 (h4 x ((hunm k x hk).1 hx) hxl hxr)
    · rw [hAm] at hkind'
      cases hkind'
      have hb4 : ∀ x y : PqEntry, A[x.node].freq = x.freq → A[y.node].freq = y.freq → x.before y = true →
          NodeBefore A x.node y.node := by
        intro x y hx hy hxy
        rw [PqEntry.before_iff] at hxy
        unfold NodeBefore
        rw [hx, hy]; exact hxy
      refine ⟨⟨Fin.lt_def.2 hma.1, ?_⟩, ⟨Fin.lt_def.2 hmb.1, ?_⟩,
        hb4 a b hfreqA hfreqB (hs1.1 b List.mem_cons_self), ?_⟩
      · intro p hp; rw [hparA] at hp; cases hp; exact le_refl _
      · intro p hp; rw [hparB] at hp; cases hp; exact le_refl _
      · intro x hx hxa hxb
        have hxlt : x.val < t.nextId := Fin.lt_def.1 hx.1
        have hxp : t.arena[x].parent = none := by
          cases hp : t.arena[x].parent with
          | none => rfl
          | some p =>
            have h1 := hx.2 p (hkeep x p hxlt hp)
            have h2 := (h.parent x p hxlt hp).2.2.1
            exact absurd (Fin.le_def.1 h1) (Nat.not_le.2 h2)
        obtain ⟨e, he, rfl⟩ := h.root x hxlt hxp
        rw [hq] at he
        simp only [List.mem_cons] at he
        rcases he with rfl | rfl | he
        · exact absurd rfl hxa
        · exact absurd rfl hxb
        · exact hb4 b e hfreqB (by rw [(hAlt _ hxlt).2.2.1]; exact (hmr e he).2.2.symm) (hs2.1 e he)

theorem building_mergeAll {F : FreqTable} {t : Tree} (n : Nat) (h : Building F t) (hn : t.nextId + n ≤ 511) :
    Building F (Tree.mergeAll n t) ∧ (Tree.mergeAll n t).nextId = t.nextId + n := by
  induction n generalizing t with
  | zero => exact ⟨h, rfl⟩
  | succ n ih =>
    obtain ⟨h1, h2⟩ := building_merge h (by omega)
    obtain ⟨h3, h4⟩ := ih h1 (by omega)
    exact ⟨h3, by rw [Tree.mergeAll, h4, h2]; omega⟩

/-- All 255 merges done, and the member of `PQ` that is left is node 510. -/
theorem building_all (F : FreqTable) (t : Tree) :
    ∃ t', Building F t' ∧ t'.nextId = 511 ∧ ∃ e, t'.pq = [e] ∧ e.node = 510 ∧
      buildTree F t = { t' with root := 510, pq := [], state := .rooted } := by
  obtain ⟨h, hn⟩ := building_mergeAll 255 (building_seed F t) (by show 256 + 255 ≤ 511; omega)
  have hn' : (Tree.mergeAll 255 { Tree.seed F t with state := .merging }).nextId = 511 := hn
  refine ⟨_, h, hn', ?_⟩
  have hl := h.pqLength
  rw [hn'] at hl
  match hq : (Tree.mergeAll 255 { Tree.seed F t with state := .merging }).pq with
  | [] => rw [hq] at hl; simp at hl
  | _ :: _ :: _ => rw [hq] at hl; simp at hl
  | [e] =>
    have hroot : ((Tree.mergeAll 255 { Tree.seed F t with state := .merging }).arena[(510 : NodeId)]).parent = none := by
      cases hp : ((Tree.mergeAll 255 { Tree.seed F t with state := .merging }).arena[(510 : NodeId)]).parent with
      | none => rfl
      | some p =>
        have h1 := h.parent 510 p (by rw [hn']; decide) hp
        have h2 := Fin.lt_def.1 h1.2.1
        have h3 := h1.2.2.1
        rw [hn'] at h3
        have h4 : (510 : NodeId).val = 510 := rfl
        omega
    obtain ⟨e', he', h510⟩ := h.root 510 (by rw [hn']; decide) hroot
    rw [hq] at he'
    have hee : e' = e := by simpa using he'
    subst hee
    refine ⟨e', rfl, h510, ?_⟩
    unfold buildTree Tree.setRoot
    rw [hq]
    simp only [h510]

/-- What `build_tree` leaves. -/
theorem buildTree_spec (F : FreqTable) (t : Tree) : (buildTree F t).Built ∧ MergesLeast (buildTree F t).arena ∧
    ∀ sym : Fin 256, ((buildTree F t).arena[leafId sym]).freq.toNat = F[sym].toNat := by
  obtain ⟨t', h, hn, e, hq, he, hb⟩ := building_all F t
  have hlt : ∀ i : NodeId, i.val < t'.nextId := fun i => by rw [hn]; exact i.isLt
  rw [hb]
  refine ⟨?_, ?_, ?_⟩
  · constructor
    · rfl
    · rfl
    · rfl
    · exact fun i => h.valid i (hlt i)
    · exact fun i => h.id i (hlt i)
    · exact fun sym => (h.leaf sym).1
    · exact fun i hi => h.internal i hi (hlt i)
    · intro i hi
      cases hp : t'.arena[i].parent with
      | none =>
        obtain ⟨e', he', h1⟩ := h.root i (hlt i) hp
        rw [hq] at he'
        have : e' = e := by simpa using he'
        subst this
        rw [← h1, he] at hi
        exact absurd hi (by decide)
      | some p =>
        obtain ⟨h1, h2, _, l, r, h3, h4⟩ := h.parent i p (hlt i) hp
        exact ⟨p, l, r, rfl, h1, h2, h3, h4⟩
    · have h1 := (h.member e (by simp [hq])).2.1
      simpa only [he] using h1
  · exact fun m l r hk h256 => h.least m l r h256 (hlt m) hk
  · intro sym
    show (t'.arena[leafId sym]).freq.toNat = _
    rw [(h.leaf sym).2, freq_setWidth]

end Sys2Proof.Machine
end

