-- ==== Sys2Proof/Laws/Codes.lean ====
section
/-! SUPPORT. Paths in a tree: the code of a symbol is the path from the root to its leaf (42_tree.md R207, R208), and what
`decode_one` and `decode_body` answer along a path (42_tree.md R209, 43_codec.md R241). -/

namespace Sys2Proof.Machine

/-! ### Paths -/

/-- Going from node `n` along the bits ends at node `m`. -/
def Reaches (arena : Vector Node 511) : NodeId → Code → NodeId → Prop
  | n, [], m => n = m
  | n, b :: bs, m => ∃ l r, arena[n].kind = .internal l r ∧ Reaches arena (if b then r else l) bs m

theorem Reaches.append {arena : Vector Node 511} {n k m : NodeId} {p q : Code} (h : Reaches arena n p k)
    (h' : Reaches arena k q m) : Reaches arena n (p ++ q) m := by
  induction p generalizing n with
  | nil => cases h; exact h'
  | cons b p ih =>
    obtain ⟨l, r, hk, hr⟩ := h
    exact ⟨l, r, hk, ih hr⟩

theorem Reaches.leads {arena : Vector Node 511} {n m : NodeId} {p : Code} {sym : Byte} (h : Reaches arena n p m)
    (hm : arena[m].kind = .leaf sym) : Leads arena n p sym := by
  induction p generalizing n with
  | nil => cases h; exact hm
  | cons b p ih =>
    obtain ⟨l, r, hk, hr⟩ := h
    exact ⟨l, r, hk, ih hr⟩

/-- A path to a leaf that begins another path to a leaf is that path, and the leaves have the same symbol. -/
theorem Leads.prefix_eq {arena : Vector Node 511} {n : NodeId} {p q : Code} {x y : Byte} (h : Leads arena n p x)
    (h' : Leads arena n q y) (hp : p <+: q) : p = q ∧ x = y := by
  induction p generalizing n q with
  | nil =>
    cases q with
    | nil => exact ⟨rfl, by have := h.symm.trans h'; cases this; rfl⟩
    | cons b q =>
      obtain ⟨l, r, hk, _⟩ := h'
      have : arena[n].kind = .leaf x := h
      rw [hk] at this; cases this
  | cons b p ih =>
    cases q with
    | nil => obtain ⟨t, ht⟩ := hp; cases ht
    | cons b' q =>
      obtain ⟨rfl, hpq⟩ := List.cons_prefix_cons.1 hp
      obtain ⟨l, r, hk, hr⟩ := h
      obtain ⟨l', r', hk', hr'⟩ := h'
      rw [hk] at hk'; cases hk'
      obtain ⟨h1, h2⟩ := ih hr hr' hpq
      exact ⟨by rw [h1], h2⟩

/-! ### Codes -/

theorem climb_append (arena : Vector Node 511) (fuel : Nat) (n : NodeId) (acc : Code) :
    climb arena fuel n acc = climb arena fuel n [] ++ acc := by
  induction fuel generalizing n acc with
  | zero => rfl
  | succ fuel ih =>
    simp only [climb]
    split
    · rfl
    · rename_i p _
      rw [ih p (isRightChild arena p n :: acc), ih p [isRightChild arena p n]]
      simp

/-- The side a child stands on leads to it. -/
theorem child_reaches {t : Tree} (h : t.Built) {i p l r : NodeId} (hp : 256 ≤ p.val)
    (hk : t.arena[p].kind = .internal l r) (hi : i = l ∨ i = r) : Reaches t.arena p [isRightChild t.arena p i] i := by
  obtain ⟨l', r', hk', hne, _⟩ := h.internal p hp
  rw [hk] at hk'; cases hk'
  refine ⟨l, r, hk, ?_⟩
  simp only [isRightChild, hk]
  rcases hi with rfl | rfl
  · have : (r == i) = false := by simpa using Ne.symm hne
    simp [this, Reaches]
  · simp [Reaches]

/-- Climbing from an internal node finds the path to it. -/
theorem climb_internal {t : Tree} (h : t.Built) (fuel : Nat) (i : NodeId) (hi : 256 ≤ i.val)
    (hf : 510 - i.val ≤ fuel) :
    Reaches t.arena 510 (climb t.arena fuel i []) i ∧ (climb t.arena fuel i []).length ≤ 510 - i.val := by
  induction fuel generalizing i with
  | zero =>
    have : i = 510 := Fin.ext (by have := i.isLt; show i.val = 510; omega)
    subst this
    exact ⟨rfl, by simp [climb]⟩
  | succ fuel ih =>
    by_cases h510 : i = 510
    · subst h510
      simp only [climb, h.rootParent]
      exact ⟨rfl, by simp⟩
    · have hlt : i.val < 510 := by
        have h1 := i.isLt
        have h2 : i.val ≠ 510 := fun e => h510 (Fin.ext e)
        omega
      obtain ⟨p, l, r, hp, hp256, hip, hk, hlr⟩ := h.parent i hlt
      have hip' := Fin.lt_def.1 hip
      obtain ⟨h1, h2⟩ := ih p hp256 (by omega)
      simp only [climb, hp]
      rw [climb_append]
      refine ⟨h1.append (child_reaches h hp256 hk hlr), ?_⟩
      have hp511 := p.isLt
      rw [List.length_append, List.length_singleton]; omega

/-- The code of a symbol is the path to its leaf, of 1 to 255 bits. -/
theorem codeOf_spec {t : Tree} (h : t.Built) (sym : Fin 256) :
    Leads t.arena t.root (codeOf t.arena sym) (BitVec.ofNat 8 sym.val) ∧ 1 ≤ (codeOf t.arena sym).length ∧
      (codeOf t.arena sym).length ≤ 255 := by
  have hlt : (leafId sym).val < 510 := lt_trans sym.isLt (by decide)
  obtain ⟨p, l, r, hp, hp256, _, hk, hlr⟩ := h.parent (leafId sym) hlt
  have hp511 := p.isLt
  obtain ⟨h1, h2⟩ := climb_internal h 254 p hp256 (by omega)
  have hc : codeOf t.arena sym = climb t.arena 254 p [] ++ [isRightChild t.arena p (leafId sym)] := by
    unfold codeOf
    rw [climb, hp]
    exact climb_append _ _ _ _
  rw [hc, h.root]
  refine ⟨(h1.append (child_reaches h hp256 hk hlr)).leads (h.leaf sym), ?_, ?_⟩
  · rw [List.length_append, List.length_singleton]; omega
  · rw [List.length_append, List.length_singleton]; omega

/-! ### Walking -/

theorem bitsReadable_of_noFault {cfg : Config} {base bytes c n : Nat} (h : NoFault cfg .read base bytes)
    (hn : c + n ≤ 8 * bytes) : BitsReadable cfg base c n :=
  fun j _ hj => h (base + j / 8) (by omega) (by omega)

theorem StreamHas.tail {m : Memory} {base c : Nat} {b : Bool} {bs : List Bool} (h : StreamHas m base c (b :: bs)) :
    streamBit m base c = b ∧ StreamHas m base (c + 1) bs := by
  refine ⟨h 0 (by simp), fun i hi => ?_⟩
  have := h (i + 1) (by simpa using hi)
  rw [show c + 1 + i = c + (i + 1) by omega, this]
  rfl

theorem memRead_free {cfg : Config} {m : Memory} {a : Nat} (h : (a, AccessKind.read) ∉ cfg.memFaults) :
    memRead cfg m a = .ok (m.read a) := by
  rcases memRead_cases cfg m a with ⟨_, h'⟩ | ⟨h', _⟩
  · exact h'
  · exact absurd h' h

/-- A path to a leaf that the stream spells is followed, and the cursor moves past its bits. -/
theorem walk_leads {cfg : Config} {m : Memory} {arena : Vector Node 511} {base k fuel c : Nat} {n : NodeId}
    {path : Code} {sym : Byte} (h : Leads arena n path sym) (hf : path.length ≤ fuel)
    (hs : StreamHas m base c path) (hr : BitsReadable cfg base c path.length) :
    walk cfg m arena base k fuel c n = .ok (sym, c + path.length) := by
  induction path generalizing fuel c n with
  | nil =>
    have hk : arena[n].kind = .leaf sym := h
    cases fuel <;> simp only [walk, hk] <;> rfl
  | cons b path ih =>
    obtain ⟨l, r, hk, hl⟩ := h
    obtain ⟨hb, hs'⟩ := hs.tail
    match fuel, hf with
    | fuel + 1, hf =>
      have hread := memRead_free (m := m) (hr c (le_refl _) (by simp))
      simp only [walk, hk, hread, bind, Except.bind]
      have hb' : (m.read (base + c / 8)).getLsbD (c % 8) = b := hb
      rw [hb', ih hl (by simpa using hf) hs' (fun j h1 h2 => hr j (by omega) (by simp only [List.length_cons]; omega))]
      congr 2
      simp only [List.length_cons]; omega

/-- When the bits end before a leaf the stream is truncated. -/
theorem walk_astray {cfg : Config} {m : Memory} {arena : Vector Node 511} {base k fuel c : Nat} {n : NodeId}
    {bits : Code} (h : Astray arena n bits) (hf : bits.length = fuel) (hs : StreamHas m base c bits)
    (hr : BitsReadable cfg base c bits.length) :
    walk cfg m arena base k fuel c n =
      .error { code := .truncatedStream, info := BitVec.ofNat 32 k, mem := m } := by
  induction bits generalizing fuel c n with
  | nil =>
    obtain ⟨l, r, hk⟩ := h
    subst hf
    simp only [List.length_nil, walk, hk]
  | cons b bits ih =>
    obtain ⟨l, r, hk, hl⟩ := h
    obtain ⟨hb, hs'⟩ := hs.tail
    subst hf
    have hread := memRead_free (m := m) (hr c (le_refl _) (by simp))
    have hb' : (m.read (base + c / 8)).getLsbD (c % 8) = b := hb
    simp only [List.length_cons, walk, hk, hread, bind, Except.bind, hb']
    exact ih hl rfl hs' (fun j h1 h2 => hr j (by omega) (by simp only [List.length_cons]; omega))

/-- The errors of a walk. -/
theorem walk_error {cfg : Config} {m : Memory} {arena : Vector Node 511} {base k fuel c : Nat} {n : NodeId} {e : Raise}
    (h : walk cfg m arena base k fuel c n = .error e) :
    (e.code = .truncatedStream ∨ e.code = .memFault) ∧ e.mem = m := by
  induction fuel generalizing c n with
  | zero =>
    simp only [walk] at h
    split at h
    · cases h
    · cases h; exact ⟨.inl rfl, rfl⟩
  | succ fuel ih =>
    simp only [walk] at h
    split at h
    · cases h
    · cases hm : memRead cfg m (base + c / 8) with
      | error e' =>
        simp only [hm, bind, Except.bind] at h
        cases h
        exact ⟨.inr (memRead_error hm).1, (memRead_error hm).2⟩
      | ok b =>
        simp only [hm, bind, Except.bind] at h
        exact ih h

/-- A walk reads only stream bytes below its end: memories that agree there give the same symbol, cursor and error. -/
theorem walk_congr {cfg : Config} {m m' : Memory} {arena : Vector Node 511} {base k fuel c : Nat} {n : NodeId}
    (h : ∀ j, c ≤ j → j < c + fuel → m'.read (base + j / 8) = m.read (base + j / 8)) :
    (∃ r, walk cfg m arena base k fuel c n = .ok r ∧ walk cfg m' arena base k fuel c n = .ok r) ∨
      (∃ e, walk cfg m arena base k fuel c n = .error e ∧
        walk cfg m' arena base k fuel c n = .error { e with mem := m' }) := by
  induction fuel generalizing c n with
  | zero =>
    simp only [walk]
    split
    · exact .inl ⟨_, rfl, rfl⟩
    · exact .inr ⟨_, rfl, rfl⟩
  | succ fuel ih =>
    simp only [walk]
    split
    · exact .inl ⟨_, rfl, rfl⟩
    · rcases memRead_cases cfg m (base + c / 8) with ⟨h0, h1⟩ | ⟨h0, h1⟩ <;>
        rcases memRead_cases cfg m' (base + c / 8) with ⟨h0', h1'⟩ | ⟨h0', h1'⟩
      · rw [h1, h1']
        simp only [bind, Except.bind]
        rw [h c (le_refl _) (by omega)]
        exact ih fun j hj hj' => h j (by omega) (by omega)
      · exact absurd h0' h0
      · exact absurd h0 h0'
      · rw [h1, h1']
        exact .inr ⟨_, rfl, rfl⟩

/-! ### Decoding a body -/

/-- Whatever `decode_body` answers it writes only its `n` bytes, and what it can raise. -/
theorem decodeBody_touches (cfg : Config) (t : Tree) (base nbits dst n k c : Nat) (m : Memory) :
    (∃ r, decodeBody cfg t base nbits dst n k c m = .ok r ∧ Touches m r.2 (dst + k) n) ∨
      (∃ e, decodeBody cfg t base nbits dst n k c m = .error e ∧
        (e.code = .truncatedStream ∨ e.code = .memFault) ∧ Touches m e.mem (dst + k) n) := by
  induction n generalizing k c m with
  | zero => exact .inl ⟨(c, m), rfl, Touches.refl _ _ _⟩
  | succ n ih =>
    cases h1 : decodeOneAt cfg m t base c nbits k with
    | error e =>
      obtain ⟨he, hm⟩ := walk_error h1
      exact .inr ⟨e, by simp only [decodeBody, h1, bind, Except.bind], he, hm ▸ Touches.refl _ _ _⟩
    | ok r =>
      obtain ⟨sym, c'⟩ := r
      rcases memWrite_cases cfg m (dst + k) sym with ⟨_, h2⟩ | ⟨_, h2⟩
      · have hw := Touches.write m (n := n + 1) sym (le_refl (dst + k)) (by omega)
        rcases ih (k + 1) c' (m.write (dst + k) sym) with ⟨r, h3, h4⟩ | ⟨e, h3, he, h4⟩
        · exact .inl ⟨r, by simp only [decodeBody, h1, h2, bind, Except.bind, h3],
            hw.trans (h4.mono (by omega) (by omega))⟩
        · exact .inr ⟨e, by simp only [decodeBody, h1, h2, bind, Except.bind, h3], he,
            hw.trans (h4.mono (by omega) (by omega))⟩
      · exact .inr ⟨{ code := .memFault, info := trunc32 (dst + k), mem := m },
          by simp only [decodeBody, h1, h2, bind, Except.bind], .inr rfl, Touches.refl _ _ _⟩

theorem StreamHas.split {m : Memory} {base c : Nat} {xs ys : List Bool} (h : StreamHas m base c (xs ++ ys)) :
    StreamHas m base c xs ∧ StreamHas m base (c + xs.length) ys := by
  constructor
  · intro i hi
    rw [h i (by simp; omega), List.getElem_append_left hi]
  · intro i hi
    rw [Nat.add_assoc, h (xs.length + i) (by simp; omega), List.getElem_append_right (by omega)]
    congr 1; omega

/-- A write outside the bytes of a stream keeps its bits. -/
theorem StreamHas.keep {m m' : Memory} {base c bytes lo n : Nat} {bits : List Bool} (h : StreamHas m base c bits)
    (hl : c + bits.length ≤ 8 * bytes) (ho : SameOutside m m' lo n) (hd : lo + n ≤ base ∨ base + bytes ≤ lo) :
    StreamHas m' base c bits := by
  intro i hi
  rw [← h i hi]
  unfold streamBit
  rw [ho _ (by omega)]

/-- The paths of a list of symbols, one after the other, and then the bits `rest` that reach no leaf: `decode_body`
writes the symbols and, with `rest`, reports the stream truncated. -/
theorem decodeBody_found {cfg : Config} {t : Tree} {base bytes dst n k c : Nat} {m : Memory}
    {found : List (Code × Byte)} (hl : ∀ f ∈ found, Leads t.arena t.root f.1 f.2) (hn : found.length ≤ n)
    (hc : c + (found.flatMap Prod.fst).length ≤ 8 * bytes) (hs : StreamHas m base c (found.flatMap Prod.fst))
    (hr : BitsReadable cfg base c (found.flatMap Prod.fst).length) (hw : NoFault cfg .write dst (k + found.length))
    (hd : found.length = 0 ∨ bytes = 0 ∨ dst + (k + found.length) ≤ base ∨ base + bytes ≤ dst) :
    ∃ m', decodeBody cfg t base (8 * bytes) dst n k c m =
        decodeBody cfg t base (8 * bytes) dst (n - found.length) (k + found.length)
          (c + (found.flatMap Prod.fst).length) m' ∧
      HoldsAt m' (dst + k) (found.map Prod.snd) ∧ Touches m m' (dst + k) found.length := by
  induction found generalizing n k c m with
  | nil => exact ⟨m, by simp, fun i hi => absurd hi (by simp), Touches.refl _ _ _⟩
  | cons f found ih =>
    obtain ⟨path, sym⟩ := f
    match n, hn with
    | n + 1, hn =>
      simp only [List.flatMap_cons, List.length_append] at hc hs hr
      simp only [List.length_cons] at hw hd
      obtain ⟨hs1, hs2⟩ := hs.split
      have hlead := hl _ List.mem_cons_self
      have h1 : decodeOneAt cfg m t base c (8 * bytes) k = .ok (sym, c + path.length) :=
        walk_leads hlead (by omega) hs1 fun j h1 h2 => hr j h1 (by omega)
      have h2 : memWrite cfg m (dst + k) sym = .ok (m.write (dst + k) sym) := by
        rcases memWrite_cases cfg m (dst + k) sym with ⟨_, h⟩ | ⟨h, _⟩
        · exact h
        · exact absurd h (hw (dst + k) (by omega) (by omega))
      have ht := Touches.write m (n := 1) sym (le_refl (dst + k)) (by omega)
      have hs3 : StreamHas (m.write (dst + k) sym) base (c + path.length) (found.flatMap Prod.fst) := by
        rcases Nat.eq_zero_or_pos bytes with hb | hb
        · have h0 : (found.flatMap Prod.fst).length = 0 := by omega
          intro i hi; omega
        · exact hs2.keep (bytes := bytes) (by omega) ht.outside (by omega)
      obtain ⟨m', h3, h4, h5⟩ := ih (n := n) (k := k + 1) (m := m.write (dst + k) sym)
        (fun f hf => hl f (List.mem_cons_of_mem _ hf)) (by simpa using hn) (by omega) hs3
        (fun j h1 h2 => hr j (by omega) (by omega)) (hw.sub (le_refl _) (by omega)) (by omega)
      refine ⟨m', ?_, ?_, ?_⟩
      · rw [decodeBody, h1]
        simp only [bind, Except.bind, h2, h3, List.length_cons, List.flatMap_cons, List.length_append]
        rw [Nat.add_sub_add_right, Nat.add_assoc c, show k + 1 + found.length = k + (found.length + 1) by omega]
      · intro i hi
        cases i with
        | zero =>
          have := h5.outside (dst + k) (by omega)
          simpa using this
        | succ i =>
          have := h4 i (by simpa using hi)
          rw [show dst + (k + 1) + i = dst + k + (i + 1) by omega] at this
          simpa using this
      · exact (ht.mono (le_refl _) (by simp)).trans (h5.mono (by omega) (by simp; omega))

end Sys2Proof.Machine
end

