-- ==== Sys2Proof/Laws/Commands.lean ====
section
/-! SUPPORT. `RunSpec` of every command: what each can answer, said once (60_exceptions.md R280 to R289). -/

namespace Sys2Proof.Machine

/-- The command is ENCODE or DECODE, whose completion clears the arena (60_exceptions.md R287). -/
def isCodec : Instr → Bool
  | .encode | .decode => true
  | .bitsPack | .bitsUnpack | .freqBuild | .freqCompress | .freqDecompress | .hdrWrite | .hdrParse => false
  | .treeBuild | .codesDerive | .treeDestroy | .decodeOne | .bodyEncode | .bodyDecode => false

/-- The pseudocode of a command. -/
def runOf : Instr → State → Except Raise State
  | .encode => runEncode
  | .decode => runDecode
  | .bitsPack => runBitsPack
  | .bitsUnpack => runBitsUnpack
  | .freqBuild => runFreqBuild
  | .freqCompress => runFreqCompress
  | .freqDecompress => runFreqDecompress
  | .hdrWrite => runHdrWrite
  | .hdrParse => runHdrParse
  | .treeBuild => runTreeBuild
  | .codesDerive => runCodesDerive
  | .treeDestroy => runTreeDestroy
  | .decodeOne => runDecodeOne
  | .bodyEncode => runBodyEncode
  | .bodyDecode => runBodyDecode

/-- A command is its pseudocode followed by its completion. -/
theorem exec_eq (i : Instr) (s : State) : exec i s = conclude (isCodec i) s (runOf i s) := by cases i <;> rfl

/-! ### Runs in parts -/

/-- A part of a run that did not raise. -/
theorem ok_of_bind {α β : Type} {x : Except Raise α} {f : α → Except Raise β} {b : β} (h : x >>= f = .ok b) :
    ∃ a, x = .ok a ∧ f a = .ok b := by
  cases x with
  | ok a => exact ⟨a, rfl, h⟩
  | error e => cases h

theorem ok_bind {α β : Type} (a : α) (f : α → Except Raise β) : ((Except.ok a : Except Raise α) >>= f) = f a := rfl

theorem error_bind {α β : Type} (e : Raise) (f : α → Except Raise β) :
    ((Except.error e : Except Raise α) >>= f) = .error e := rfl

/-- Where a raise comes from. -/
theorem error_of_bind {α β : Type} {x : Except Raise α} {f : α → Except Raise β} {e : Raise} {P : Prop}
    (h : x >>= f = .error e) (hx : x = .error e → P) (hf : ∀ a, f a = .error e → P) : P := by
  cases x with
  | ok a => exact hf a h
  | error e' => cases h; exact hx rfl

/-! ### The parts that may raise -/

theorem raise_src {i : Instr} {s : State} {e : Raise} (hm : .bounds ∈ mayReport i) (h : checkSrc s = .error e) :
    RaiseSpec i s e := by
  obtain ⟨_, rfl⟩ := checkSrc_error h
  exact RaiseSpec.early_raise hm rfl

theorem raise_dst {i : Instr} {s : State} {e : Raise} (hm : .bounds ∈ mayReport i) (h : checkDst s = .error e) :
    RaiseSpec i s e := by
  obtain ⟨_, rfl⟩ := checkDst_error h
  exact RaiseSpec.early_raise hm rfl

theorem raise_regions {i : Instr} {s : State} {e : Raise} (hm : .bounds ∈ mayReport i) (ho : .overlap ∈ mayReport i)
    (h : checkRegions s = .error e) : RaiseSpec i s e := by
  obtain ⟨hc, hm'⟩ := checkRegions_error h
  refine RaiseSpec.early_raise ?_ hm'
  rcases hc with hc | hc <;> rw [hc] <;> assumption

theorem raise_capacity {i : Instr} {s : State} {n : Nat} {e : Raise} (hm : .dstOverflow ∈ mayReport i)
    (h : checkCapacity s n = .error e) : RaiseSpec i s e := by
  obtain ⟨hc, hm'⟩ := checkCapacity_error h
  exact RaiseSpec.early_raise (hc ▸ hm) hm'

theorem raise_readSrc {i : Instr} {s : State} {e : Raise} (hm : .memFault ∈ mayReport i) (h : readSrc s = .error e) :
    RaiseSpec i s e := by
  obtain ⟨hc, hm'⟩ := readSrc_error h
  exact RaiseSpec.early_raise (hc ▸ hm) hm'

theorem raise_empty {i : Instr} {s : State} {e : Raise} (hm : .state ∈ mayReport i) (h : requireEmpty s = .error e) :
    RaiseSpec i s e := by
  obtain ⟨_, rfl⟩ := requireEmpty_error h
  exact RaiseSpec.early_raise hm rfl

theorem raise_rooted {i : Instr} {s : State} {e : Raise} (hm : .state ∈ mayReport i) (h : requireRooted s = .error e) :
    RaiseSpec i s e := by
  obtain ⟨_, rfl⟩ := requireRooted_error h
  exact RaiseSpec.early_raise hm rfl

theorem raise_codes {i : Instr} {s : State} {e : Raise} (hm : .state ∈ mayReport i) (h : requireCodes s = .error e) :
    RaiseSpec i s e := by
  obtain ⟨_, rfl⟩ := requireCodes_error h
  exact RaiseSpec.early_raise hm rfl

theorem parseHeader_error {s : State} {e : Raise} (h : parseHeader s = .error e) :
    (e.code = .malformedHeader ∨ e.code = .invalidFrequencyData ∨ e.code = .memFault) ∧ e.mem = s.mem := by
  unfold parseHeader at h
  split at h
  · cases h; exact ⟨.inl rfl, rfl⟩
  · cases h1 : readField s.cfg s.mem s.srcAddr.toNat 4 with
    | error e' =>
      simp only [h1, bind, Except.bind] at h
      cases h; exact ⟨.inr (.inr (readField_error h1).1), (readField_error h1).2⟩
    | ok hl =>
      cases h2 : readField s.cfg s.mem (s.srcAddr.toNat + 4) 4 with
      | error e' =>
        simp only [h1, h2, bind, Except.bind] at h
        cases h; exact ⟨.inr (.inr (readField_error h2).1), (readField_error h2).2⟩
      | ok dl =>
        simp only [h1, h2, bind, Except.bind] at h
        split at h
        · cases h; exact ⟨.inl rfl, rfl⟩
        · split at h
          · cases h; exact ⟨.inl rfl, rfl⟩
          · cases h3 : decompress s (s.srcAddr.toNat + 8) (hl - 8) with
            | error e' =>
              simp only [h3] at h
              cases h
              obtain ⟨hc, hm⟩ := decompress_error h3
              exact ⟨.inr hc, hm⟩
            | ok r => simp [h3, pure, Except.pure] at h

theorem parseHeader_pass {s : State} {hdr : Header} (h : parseHeader s = .ok hdr) : hdr.dataLength < 2 ^ 32 := by
  unfold parseHeader at h
  split at h
  · cases h
  · obtain ⟨hl, _, h⟩ := ok_of_bind h
    obtain ⟨dl, h2, h⟩ := ok_of_bind h
    split at h
    · cases h
    · split at h
      · cases h
      · obtain ⟨_, _, h⟩ := ok_of_bind h
        cases h
        exact readField_lt h2

theorem raise_header {i : Instr} {s : State} {e : Raise} (h1 : .malformedHeader ∈ mayReport i)
    (h2 : .invalidFrequencyData ∈ mayReport i) (h3 : .memFault ∈ mayReport i) (h : parseHeader s = .error e) :
    RaiseSpec i s e := by
  obtain ⟨hc, hm⟩ := parseHeader_error h
  refine RaiseSpec.early_raise ?_ hm
  rcases hc with hc | hc | hc <;> rw [hc] <;> assumption

/-- A raise of `decode_body` after the checks. -/
theorem raise_body {i : Instr} {s : State} {t : Tree} {base nbits n : Nat} {e : Raise} (hu : usesDst i = true)
    (hr : s.dstAddr.toNat + s.dstCap.toNat ≤ s.cfg.memSize) (hl : n ≤ s.dstCap.toNat)
    (h1 : .truncatedStream ∈ mayReport i) (h2 : .memFault ∈ mayReport i)
    (h : decodeBody s.cfg t base nbits s.dstAddr.toNat n 0 0 s.mem = .error e) : RaiseSpec i s e := by
  rcases decodeBody_touches s.cfg t base nbits s.dstAddr.toNat n 0 0 s.mem with ⟨r, h', _⟩ | ⟨e', h', hc, ht⟩
  · rw [h'] at h; cases h
  · rw [h'] at h; cases h
    rw [Nat.add_zero] at ht
    refine ⟨?_, ht.mono (le_refl _) (by omega), fun _ => ⟨hu, (dstInRange_iff s).2 hr⟩, fun g1 g2 => ?_⟩
    · rcases hc with hc | hc <;> rw [hc] <;> assumption
    · rcases hc with hc | hc
      · exact absurd hc g1
      · exact absurd hc g2

theorem decodeBody_ok_touches {s : State} {t : Tree} {base nbits n : Nat} {r : Nat × Memory}
    (h : decodeBody s.cfg t base nbits s.dstAddr.toNat n 0 0 s.mem = .ok r) :
    Touches s.mem r.2 s.dstAddr.toNat n := by
  rcases decodeBody_touches s.cfg t base nbits s.dstAddr.toNat n 0 0 s.mem with ⟨r', h', ht⟩ | ⟨e', h', _⟩
  · rw [h'] at h; cases h; simpa using ht
  · rw [h'] at h; cases h

/-- A write of an output, committed with its length in RESULT_LEN. -/
theorem commit_dst {i : Instr} {s t : State} {n : Nat} (hu : usesDst i = true)
    (hr : s.dstAddr.toNat + s.dstCap.toNat ≤ s.cfg.memSize) (hl : n ≤ s.dstCap.toNat)
    (ht : Touches s.mem t.mem s.dstAddr.toNat n) (hn : t.resultLen = BitVec.ofNat 32 n)
    (hf : t = { s with
      mem := t.mem, resultLen := t.resultLen, dataLen := t.dataLen, hdrLen := t.hdrLen, bitCursor := t.bitCursor,
      bitCount := t.bitCount, symbol := t.symbol, freq := t.freq, codeLen := t.codeLen, codeBits := t.codeBits,
      codesValid := t.codesValid, tree := t.tree })
    (hc : i ≠ .encode → i ≠ .codesDerive →
      t.codesValid = s.codesValid ∧ t.codeLen = s.codeLen ∧ t.codeBits = s.codeBits)
    (htr : i ≠ .encode → i ≠ .decode → i ≠ .treeBuild → i ≠ .treeDestroy → t.tree = s.tree) : CommitSpec i s t := by
  have : t.resultLen.toNat = n := by rw [hn]; exact toNat_ofNat_of_le hl
  exact ⟨hf, fun h => absurd (hu.symm.trans h) (by decide), fun _ => ⟨this ▸ ht, this ▸ hl, (dstInRange_iff s).2 hr⟩, hc, htr⟩

/-- A command without DST that leaves memory, RESULT_LEN, the codes and the tree. -/
theorem commit_noDst {i : Instr} {s t : State} (hu : usesDst i = false)
    (hf : t = { s with
      mem := t.mem, resultLen := t.resultLen, dataLen := t.dataLen, hdrLen := t.hdrLen, bitCursor := t.bitCursor,
      bitCount := t.bitCount, symbol := t.symbol, freq := t.freq, codeLen := t.codeLen, codeBits := t.codeBits,
      codesValid := t.codesValid, tree := t.tree })
    (hm : t.mem = s.mem ∧ t.resultLen = s.resultLen)
    (hc : i ≠ .encode → i ≠ .codesDerive →
      t.codesValid = s.codesValid ∧ t.codeLen = s.codeLen ∧ t.codeBits = s.codeBits)
    (htr : i ≠ .encode → i ≠ .decode → i ≠ .treeBuild → i ≠ .treeDestroy → t.tree = s.tree) : CommitSpec i s t :=
  ⟨hf, fun _ => hm, fun h => absurd (hu.symm.trans h) (by decide), hc, htr⟩

/-! ### The commands -/

theorem runSpec_bitsPack (s : State) : RunSpec .bitsPack s (runBitsPack s) := by
  refine RunSpec.bind (fun e h => raise_regions (by decide) (by decide) h) fun _ h1 => ?_
  obtain ⟨_, hd, _⟩ := checkRegions_pass h1
  refine RunSpec.bind (fun e h => raise_capacity (by decide) h) fun _ h2 => ?_
  have hc := checkCapacity_pass h2
  refine RunSpec.bind (fun e h => raise_readSrc (by decide) h) fun data h3 => ?_
  have hlen : (pack (data.map (fun b => b != 0#8))).length = ceil8 s.srcLen.toNat := by
    rw [pack_length, List.length_map, readSrc_eq h3, srcBytes_length]
  refine RunSpec.bind (fun e h => writeDst_error rfl hd (hlen ▸ hc) (by decide) h) fun m h4 => RunSpec.ok ?_
  exact commit_dst rfl hd hc (hlen ▸ writeDst_touches h4) rfl rfl (fun _ _ => ⟨rfl, rfl, rfl⟩) (fun _ _ _ _ => rfl)

theorem runSpec_bitsUnpack (s : State) : RunSpec .bitsUnpack s (runBitsUnpack s) := by
  refine RunSpec.bind (fun e h => raise_regions (by decide) (by decide) h) fun _ h1 => ?_
  obtain ⟨_, hd, _⟩ := checkRegions_pass h1
  refine RunSpec.bind (fun e h => raise_capacity (by decide) h) fun _ h2 => ?_
  have hc := checkCapacity_pass h2
  have ht := unpackInto_touches s.cfg s.mem s.srcAddr.toNat s.dstAddr.toNat s.srcLen.toNat
  refine RunSpec.bind (fun e h => ?_) fun m h => RunSpec.ok ?_
  · rcases ht with ⟨m', h', _⟩ | ⟨e', h', he, ht⟩
    · rw [h'] at h; cases h
    · rw [h'] at h; cases h
      exact ⟨he ▸ by decide, ht.mono (le_refl _) (by omega), fun _ => ⟨rfl, (dstInRange_iff s).2 hd⟩,
        fun _ g => absurd he g⟩
  · rcases ht with ⟨m', h', ht⟩ | ⟨e', h', _⟩
    · rw [h'] at h; cases h
      exact commit_dst rfl hd hc ht rfl rfl (fun _ _ => ⟨rfl, rfl, rfl⟩) (fun _ _ _ _ => rfl)
    · rw [h'] at h; cases h

theorem runSpec_freqBuild (s : State) : RunSpec .freqBuild s (runFreqBuild s) := by
  refine RunSpec.bind (fun e h => raise_src (by decide) h) fun _ _ => ?_
  refine RunSpec.bind (fun e h => raise_readSrc (by decide) h) fun data _ => RunSpec.ok ?_
  exact commit_noDst rfl rfl ⟨rfl, rfl⟩ (fun _ _ => ⟨rfl, rfl, rfl⟩) (fun _ _ _ _ => rfl)

theorem runSpec_freqCompress (s : State) : RunSpec .freqCompress s (runFreqCompress s) := by
  refine RunSpec.bind (fun e h => raise_dst (by decide) h) fun _ h1 => ?_
  have hd := checkDst_pass h1
  refine RunSpec.bind (fun e h => raise_capacity (by decide) h) fun _ h2 => ?_
  have hc := checkCapacity_pass h2
  refine RunSpec.bind (fun e h => writeDst_error rfl hd hc (by decide) h) fun m h4 => RunSpec.ok ?_
  exact commit_dst rfl hd hc (writeDst_touches h4) rfl rfl (fun _ _ => ⟨rfl, rfl, rfl⟩) (fun _ _ _ _ => rfl)

theorem runSpec_freqDecompress (s : State) : RunSpec .freqDecompress s (runFreqDecompress s) := by
  refine RunSpec.bind (fun e h => raise_src (by decide) h) fun _ _ => ?_
  refine RunSpec.bind (fun e h => ?_) fun r _ => RunSpec.ok ?_
  · obtain ⟨hc, hm⟩ := decompress_error h
    refine RaiseSpec.early_raise ?_ hm
    rcases hc with hc | hc <;> rw [hc] <;> decide
  · exact commit_noDst rfl rfl ⟨rfl, rfl⟩ (fun _ _ => ⟨rfl, rfl, rfl⟩) (fun _ _ _ _ => rfl)

theorem runSpec_hdrWrite (s : State) : RunSpec .hdrWrite s (runHdrWrite s) := by
  refine RunSpec.bind (fun e h => raise_dst (by decide) h) fun _ h1 => ?_
  have hd := checkDst_pass h1
  refine RunSpec.bind (fun e h => raise_capacity (by decide) h) fun _ h2 => ?_
  have hc := checkCapacity_pass h2
  refine RunSpec.bind (fun e h => writeDst_error rfl hd hc (by decide) h) fun m h4 => RunSpec.ok ?_
  exact commit_dst rfl hd hc (writeDst_touches h4) rfl rfl (fun _ _ => ⟨rfl, rfl, rfl⟩) (fun _ _ _ _ => rfl)

theorem runSpec_hdrParse (s : State) : RunSpec .hdrParse s (runHdrParse s) := by
  refine RunSpec.bind (fun e h => raise_src (by decide) h) fun _ _ => ?_
  refine RunSpec.bind (fun e h => raise_header (by decide) (by decide) (by decide) h) fun r _ => RunSpec.ok ?_
  exact commit_noDst rfl rfl ⟨rfl, rfl⟩ (fun _ _ => ⟨rfl, rfl, rfl⟩) (fun _ _ _ _ => rfl)

theorem runSpec_treeBuild (s : State) : RunSpec .treeBuild s (runTreeBuild s) := by
  unfold runTreeBuild
  generalize buildTree s.freq s.tree = built
  refine RunSpec.bind (fun e h => raise_empty (by decide) h) fun _ _ => RunSpec.ok ?_
  exact commit_noDst rfl rfl ⟨rfl, rfl⟩ (fun _ _ => ⟨rfl, rfl, rfl⟩) (fun _ _ h _ => absurd rfl h)

theorem runSpec_codesDerive (s : State) : RunSpec .codesDerive s (runCodesDerive s) := by
  refine RunSpec.bind (fun e h => raise_rooted (by decide) h) fun _ _ => RunSpec.ok ?_
  exact commit_noDst rfl rfl ⟨rfl, rfl⟩ (fun _ h => absurd rfl h) (fun _ _ _ _ => rfl)

theorem runSpec_treeDestroy (s : State) : RunSpec .treeDestroy s (runTreeDestroy s) := by
  refine RunSpec.bind (fun e h => raise_rooted (by decide) h) fun _ _ => RunSpec.ok ?_
  exact commit_noDst rfl rfl ⟨rfl, rfl⟩ (fun _ _ => ⟨rfl, rfl, rfl⟩) (fun _ _ _ h => absurd rfl h)

theorem runSpec_decodeOne (s : State) : RunSpec .decodeOne s (runDecodeOne s) := by
  refine RunSpec.bind (fun e h => raise_rooted (by decide) h) fun _ _ => ?_
  refine RunSpec.bind (fun e h => raise_src (by decide) h) fun _ _ => ?_
  refine RunSpec.bind (fun e h => ?_) fun r _ => RunSpec.ok ?_
  · obtain ⟨hc, hm⟩ := walk_error h
    refine RaiseSpec.early_raise ?_ hm
    rcases hc with hc | hc <;> rw [hc] <;> decide
  · exact commit_noDst rfl rfl ⟨rfl, rfl⟩ (fun _ _ => ⟨rfl, rfl, rfl⟩) (fun _ _ _ _ => rfl)

/-- The codes in the RAM have the lengths the RAM gives. -/
theorem encodeBits_ram_length (s : State) (data : List Byte) :
    (encodeBits data s.ramCode).length = (data.map (fun b => s.codeLen[symbolOf b].toNat)).sum := by
  simp only [encodeBits, List.length_flatMap, State.ramCode, List.length_map, List.length_range]

theorem runSpec_bodyEncode (s : State) : RunSpec .bodyEncode s (runBodyEncode s) := by
  refine RunSpec.bind (fun e h => raise_codes (by decide) h) fun _ _ => ?_
  refine RunSpec.bind (fun e h => raise_regions (by decide) (by decide) h) fun _ h1 => ?_
  obtain ⟨_, hd, _⟩ := checkRegions_pass h1
  refine RunSpec.bind (fun e h => raise_readSrc (by decide) h) fun data _ => ?_
  refine RunSpec.bind (fun e h => raise_capacity (by decide) h) fun _ h2 => ?_
  have hc := checkCapacity_pass h2
  have hlen : (pack (encodeBits data s.ramCode)).length =
      ceil8 (data.map (fun b => s.codeLen[symbolOf b].toNat)).sum := by rw [pack_length, encodeBits_ram_length]
  refine RunSpec.bind (fun e h => writeDst_error rfl hd (hlen ▸ hc) (by decide) h) fun m h4 => RunSpec.ok ?_
  exact commit_dst rfl hd hc (hlen ▸ writeDst_touches h4) rfl rfl (fun _ _ => ⟨rfl, rfl, rfl⟩) (fun _ _ _ _ => rfl)

theorem runSpec_bodyDecode (s : State) : RunSpec .bodyDecode s (runBodyDecode s) := by
  refine RunSpec.bind (fun e h => raise_rooted (by decide) h) fun _ _ => ?_
  refine RunSpec.bind (fun e h => raise_regions (by decide) (by decide) h) fun _ h1 => ?_
  obtain ⟨_, hd, _⟩ := checkRegions_pass h1
  refine RunSpec.bind (fun e h => raise_capacity (by decide) h) fun _ h2 => ?_
  have hc := checkCapacity_pass h2
  refine RunSpec.bind (fun e h => raise_body rfl hd hc (by decide) (by decide) h) fun r h3 => RunSpec.ok ?_
  exact commit_dst rfl hd hc (decodeBody_ok_touches h3) rfl rfl (fun _ _ => ⟨rfl, rfl, rfl⟩) (fun _ _ _ _ => rfl)

/-- The bits of the source are those of its counts times the code lengths (43_codec.md R240, R244). -/
theorem encodeBits_length {data : List Byte} (h : data.length < 2 ^ 32) (codes : Vector Code 256) :
    (symbols.map (fun sym => ((count data)[sym]).toNat * codes[sym].length)).sum =
      (encodeBits data (fun sym => codes[sym])).length := by
  simp only [encodeBits, List.length_flatMap]
  rw [← sum_count data (fun sym => codes[sym].length)]
  refine congrArg List.sum (List.map_congr_left fun sym _ => ?_)
  rw [count_get h]

/-- What ENCODE has checked and read when it comes to `build_tree`. -/
theorem encodeInput_pass {s : State} {data : List Byte} (h : encodeInput s = .ok data) :
    s.tree.state = .empty ∧ s.dstAddr.toNat + s.dstCap.toNat ≤ s.cfg.memSize ∧ data = s.srcBytes := by
  obtain ⟨_, h1, h⟩ := ok_of_bind h
  obtain ⟨_, h2, h⟩ := ok_of_bind h
  exact ⟨requireEmpty_pass h1, (checkRegions_pass h2).2.1, readSrc_eq h⟩

/-- The raises of ENCODE before `build_tree`. -/
theorem encodeInput_error {s : State} {e : Raise} (h : encodeInput s = .error e) : RaiseSpec .encode s e := by
  refine error_of_bind h (fun h => raise_empty (by decide) h) fun _ h => ?_
  refine error_of_bind h (fun h => raise_regions (by decide) (by decide) h) fun _ h => ?_
  exact raise_readSrc (by decide) h

/-- What DECODE has checked and read when it comes to `build_tree`. -/
theorem decodeInput_pass {s : State} {hdr : Header} (h : decodeInput s = .ok hdr) :
    s.tree.state = .empty ∧ s.dstAddr.toNat + s.dstCap.toNat ≤ s.cfg.memSize ∧ hdr.dataLength ≤ s.dstCap.toNat := by
  obtain ⟨_, h1, h⟩ := ok_of_bind h
  obtain ⟨_, h2, h⟩ := ok_of_bind h
  obtain ⟨hdr', _, h⟩ := ok_of_bind h
  obtain ⟨_, h4, h⟩ := ok_of_bind h
  cases h
  exact ⟨requireEmpty_pass h1, (checkRegions_pass h2).2.1, checkCapacity_pass h4⟩

/-- The raises of DECODE before `build_tree`. -/
theorem decodeInput_error {s : State} {e : Raise} (h : decodeInput s = .error e) : RaiseSpec .decode s e := by
  refine error_of_bind h (fun h => raise_empty (by decide) h) fun _ h => ?_
  refine error_of_bind h (fun h => raise_regions (by decide) (by decide) h) fun _ h => ?_
  refine error_of_bind h (fun h => raise_header (by decide) (by decide) (by decide) h) fun _ h => ?_
  exact error_of_bind h (fun h => raise_capacity (by decide) h) fun _ h => by cases h

theorem runSpec_encode (s : State) : RunSpec .encode s (runEncode s) := by
  refine RunSpec.bind (fun e h => encodeInput_error h) fun data h1 => ?_
  obtain ⟨_, hd, h3⟩ := encodeInput_pass h1
  refine RunSpec.bind (fun e h => raise_capacity (by decide) h) fun _ h2 => ?_
  have hc := checkCapacity_pass h2
  have hdata : data.length < 2 ^ 32 := by
    rw [h3, srcBytes_length]; exact s.srcLen.isLt
  rw [encodeBits_length hdata] at hc ⊢
  generalize buildTree (count data) s.tree = built at hc ⊢
  have hlen : (headerBytes (count data) s.srcLen.toNat ++
      pack (encodeBits data (fun sym => (deriveCodes built.arena)[sym]))).length =
        (headerBytes (count data) s.srcLen.toNat).length +
          ceil8 (encodeBits data (fun sym => (deriveCodes built.arena)[sym])).length := by
    rw [List.length_append, pack_length]
  refine RunSpec.bind (fun e h => writeDst_error rfl hd (hlen ▸ hc) (by decide) h) fun m h4 => RunSpec.ok ?_
  exact commit_dst rfl hd hc (hlen ▸ writeDst_touches h4) rfl rfl (fun h _ => absurd rfl h) (fun h _ _ _ => absurd rfl h)

theorem runSpec_decode (s : State) : RunSpec .decode s (runDecode s) := by
  refine RunSpec.bind (fun e h => decodeInput_error h) fun hdr h1 => ?_
  obtain ⟨_, hd, hc⟩ := decodeInput_pass h1
  refine RunSpec.bind (fun e h => raise_body rfl hd hc (by decide) (by decide) h) fun r h3 => RunSpec.ok ?_
  exact commit_dst rfl hd hc (decodeBody_ok_touches h3) rfl rfl (fun _ _ => ⟨rfl, rfl, rfl⟩)
    (fun _ h _ _ => absurd rfl h)

/-- What every command can answer. -/
theorem runSpec (i : Instr) (s : State) : RunSpec i s (runOf i s) := by
  cases i
  · exact runSpec_encode s
  · exact runSpec_decode s
  · exact runSpec_bitsPack s
  · exact runSpec_bitsUnpack s
  · exact runSpec_freqBuild s
  · exact runSpec_freqCompress s
  · exact runSpec_freqDecompress s
  · exact runSpec_hdrWrite s
  · exact runSpec_hdrParse s
  · exact runSpec_treeBuild s
  · exact runSpec_codesDerive s
  · exact runSpec_treeDestroy s
  · exact runSpec_decodeOne s
  · exact runSpec_bodyEncode s
  · exact runSpec_bodyDecode s

/-- The two ways a command ends: committed and completed with no error, or raised and completed with its error. -/
theorem exec_cases (i : Instr) (s : State) :
    (∃ t, runOf i s = .ok t ∧ CommitSpec i s t ∧ exec i s = .next (complete (isCodec i) .none 0#32 t)) ∨
      (∃ e, runOf i s = .error e ∧ RaiseSpec i s e ∧
        exec i s = .next (complete (isCodec i) e.code e.info { s with mem := e.mem })) := by
  have h := runSpec i s
  rw [exec_eq]
  cases hr : runOf i s with
  | ok t => rw [hr] at h; exact .inl ⟨t, rfl, h, rfl⟩
  | error e => rw [hr] at h; exact .inr ⟨e, rfl, h, rfl⟩

/-- No command reports the code 0 as an error. -/
theorem none_not_reported (i : Instr) : ErrCode.none ∉ mayReport i := by cases i <;> decide

/-- ENCODE and DECODE raise anything but STATE only from an EMPTY arena. -/
theorem codec_raise_empty {i : Instr} {s : State} {e : Raise} (hc : isCodec i = true) (h : runOf i s = .error e)
    (hn : e.code ≠ .state) : s.tree.state = .empty := by
  cases hr : requireEmpty s with
  | ok u => exact requireEmpty_pass hr
  | error e' =>
    exfalso
    have he := (requireEmpty_error hr).2
    have : runOf i s = .error e' := by
      cases i <;> first
        | (cases hc; done)
        | (simp only [runOf, runEncode, runDecode, encodeInput, decodeInput, hr, error_bind])
    rw [h] at this
    cases this
    rw [he] at hn
    exact hn rfl

/-- The completion of a raise changes the completion fields and memory alone, from a state whose arena is vacant when
EMPTY. -/
theorem complete_raise {i : Instr} {s : State} {e : Raise} (hv : s.tree.state = .empty → s.tree.Vacant)
    (h : runOf i s = .error e) :
    complete (isCodec i) e.code e.info { s with mem := e.mem } =
      State.completed { s with mem := e.mem } e.code e.info := by
  by_cases hc : isCodec i = true ∧ e.code ≠ .state
  · exact complete_vacant _ _ _ (hv (codec_raise_empty hc.1 h hc.2))
  · unfold complete State.completed
    have hk : (isCodec i && e.code != .state) = false := by
      rw [Bool.and_eq_false_iff, bne_eq_false_iff_eq]
      by_cases h1 : isCodec i = true
      · right
        by_contra h2
        exact hc ⟨h1, h2⟩
      · left
        simpa using h1
    rw [hk]
    rfl

/-- What the invariant says of an EMPTY arena. -/
theorem Invariant.vacant {s : State} (h : Invariant s) (he : s.tree.state = .empty) : s.tree.Vacant := by
  rcases h.tree with h' | h'
  · exact h'
  · rw [h'.rooted] at he
    cases he

end Sys2Proof.Machine
end

