-- ==== Sys2Proof/Laws/Faults.lean ====
section
/-! SUPPORT. MEM_FAULT (20_memory.md R92, 60_exceptions.md R289): every one names a rejected access of the command
(`FaultsIn`), a command that reads bytes in order stops at the first rejected one (`ReadsInOrder`), and one that writes its
output in order leaves what stands before the first rejected byte. -/

namespace Sys2Proof.Machine

/-! ### A MEM_FAULT names a rejected access -/

/-- Every MEM_FAULT of the run is a rejected read of a byte of `R` or a rejected write of a byte of `W`. -/
def FaultsIn {α : Type} (c : Config) (R W : Nat → Prop) (r : Except Raise α) : Prop :=
  ∀ e, r = .error e → e.code = .memFault →
    ∃ a, ((R a ∧ (a, AccessKind.read) ∈ c.memFaults) ∨ (W a ∧ (a, AccessKind.write) ∈ c.memFaults)) ∧
      e.info = trunc32 a

section
variable {α β : Type} {c : Config} {R W : Nat → Prop}

theorem FaultsIn.ok (a : α) : FaultsIn c R W (.ok a) := fun _ h => by cases h

theorem FaultsIn.pure (a : α) : FaultsIn c R W (pure a) := FaultsIn.ok a

theorem FaultsIn.bind {x : Except Raise α} {f : α → Except Raise β} (hx : FaultsIn c R W x)
    (hf : ∀ a, x = .ok a → FaultsIn c R W (f a)) : FaultsIn c R W (x >>= f) := by
  cases x with
  | ok a => exact hf a rfl
  | error e' => exact fun e h hc => hx e (by cases h; rfl) hc

theorem FaultsIn.raise (s : State) {code : ErrCode} (info : Word) (h : code ≠ .memFault) :
    FaultsIn c R W (State.raise s code info : Except Raise α) := by
  intro e he hc
  cases he
  exact absurd hc h

theorem FaultsIn.ite {p : Prop} [Decidable p] {x y : Except Raise α} (hx : p → FaultsIn c R W x)
    (hy : ¬ p → FaultsIn c R W y) : FaultsIn c R W (if p then x else y) := by
  split
  · exact hx ‹_›
  · exact hy ‹_›

theorem FaultsIn.read {m : Memory} {a : Nat} (h : R a) : FaultsIn c R W (memRead c m a) := by
  rcases memRead_cases c m a with ⟨_, h'⟩ | ⟨h0, h'⟩ <;> rw [h']
  · exact FaultsIn.ok _
  · intro e he _
    cases he
    exact ⟨a, .inl ⟨h, h0⟩, rfl⟩

theorem FaultsIn.write {m : Memory} {a : Nat} {v : Byte} (h : W a) : FaultsIn c R W (memWrite c m a v) := by
  rcases memWrite_cases c m a v with ⟨_, h'⟩ | ⟨h0, h'⟩ <;> rw [h']
  · exact FaultsIn.ok _
  · intro e he _
    cases he
    exact ⟨a, .inr ⟨h, h0⟩, rfl⟩

theorem FaultsIn.readBytes {m : Memory} {n a : Nat} (h : ∀ b, a ≤ b → b < a + n → R b) :
    FaultsIn c R W (readBytes c m a n) := by
  induction n generalizing a with
  | zero => exact FaultsIn.ok _
  | succ n ih =>
    exact (FaultsIn.read (h a (le_refl _) (by omega))).bind fun _ _ =>
      (ih fun b h1 h2 => h b (by omega) (by omega)).bind fun _ _ => FaultsIn.pure _

theorem FaultsIn.readField {m : Memory} {w a : Nat} (h : ∀ b, a ≤ b → b < a + w → R b) :
    FaultsIn c R W (readField c m a w) :=
  (FaultsIn.readBytes h).bind fun _ _ => FaultsIn.pure _

theorem FaultsIn.writeBytes {bs : List Byte} {m : Memory} {a : Nat} (h : ∀ b, a ≤ b → b < a + bs.length → W b) :
    FaultsIn c R W (writeBytes c m a bs) := by
  induction bs generalizing m a with
  | nil => exact FaultsIn.ok _
  | cons b bs ih =>
    simp only [List.length_cons] at h
    exact (FaultsIn.write (h a (le_refl _) (by omega))).bind fun _ _ => ih fun b h1 h2 => h b (by omega) (by omega)

theorem FaultsIn.readEntries {m : Memory} {base w k p : Nat} {F : FreqTable}
    (h : ∀ b, base + p ≤ b → b < base + p + k * (1 + w) → R b) : FaultsIn c R W (readEntries c m base w k p F) := by
  induction k generalizing p F with
  | zero => exact FaultsIn.ok _
  | succ k ih =>
    rw [show (k + 1) * (1 + w) = k * (1 + w) + (1 + w) by rw [Nat.add_mul]; omega] at h
    exact (FaultsIn.read (h _ (by omega) (by omega))).bind fun _ _ =>
      (FaultsIn.readField fun b h1 h2 => h b (by omega) (by omega)).bind fun _ _ =>
        ih fun b h1 h2 => h b (by omega) (by omega)

theorem FaultsIn.walk {m : Memory} {arena : Vector Node 511} {base k fuel c' : Nat} {n : NodeId}
    (h : ∀ j, c' ≤ j → j < c' + fuel → R (base + j / 8)) : FaultsIn c R W (walk c m arena base k fuel c' n) := by
  induction fuel generalizing c' n with
  | zero =>
    unfold Machine.walk
    split
    · exact FaultsIn.ok _
    · intro e he hc
      cases he
      cases hc
  | succ fuel ih =>
    unfold Machine.walk
    split
    · exact FaultsIn.ok _
    · exact (FaultsIn.read (h c' (le_refl _) (by omega))).bind fun _ _ => ih fun j h1 h2 => h j (by omega) (by omega)

theorem FaultsIn.decodeBody {t : Tree} {base nbits dst n k c' : Nat} {m : Memory}
    (hr : ∀ j, j < nbits → R (base + j / 8)) (hw : ∀ i, k ≤ i → i < k + n → W (dst + i)) :
    FaultsIn c R W (decodeBody c t base nbits dst n k c' m) := by
  induction n generalizing k c' m with
  | zero => exact FaultsIn.ok _
  | succ n ih =>
    exact (FaultsIn.walk fun j _ _ => hr j (by omega)).bind fun _ _ =>
      (FaultsIn.write (hw k (le_refl _) (by omega))).bind fun _ _ => ih fun i h1 h2 => hw i (by omega) (by omega)

theorem FaultsIn.unpackInto {m : Memory} {src dst n : Nat} (hr : ∀ b, src ≤ b → b < src + n → R b)
    (hw : ∀ b, dst ≤ b → b < dst + 8 * n → W b) : FaultsIn c R W (unpackInto c m src dst n) := by
  induction n generalizing m src dst with
  | zero => exact FaultsIn.ok _
  | succ n ih =>
    refine (FaultsIn.read (hr src (le_refl _) (by omega))).bind fun b _ => ?_
    refine (FaultsIn.writeBytes fun a h1 h2 => hw a h1 ?_).bind fun m' _ => ?_
    · simp only [List.length_map, unpackByte_length] at h2
      omega
    · exact ih (fun b h1 h2 => hr b (by omega) (by omega)) fun b h1 h2 => hw b (by omega) (by omega)

end

section
variable {s : State} {R W : Nat → Prop}

theorem FaultsIn.checkSrc : FaultsIn s.cfg R W (checkSrc s) :=
  FaultsIn.ite (fun _ => FaultsIn.ok _) fun _ => FaultsIn.raise s _ (by decide)

theorem FaultsIn.checkDst : FaultsIn s.cfg R W (checkDst s) :=
  FaultsIn.ite (fun _ => FaultsIn.ok _) fun _ => FaultsIn.raise s _ (by decide)

theorem FaultsIn.checkRegions : FaultsIn s.cfg R W (checkRegions s) :=
  FaultsIn.checkSrc.bind fun _ _ => FaultsIn.checkDst.bind fun _ _ =>
    FaultsIn.ite (fun _ => FaultsIn.raise s _ (by decide)) fun _ => FaultsIn.ok _

theorem FaultsIn.requireEmpty : FaultsIn s.cfg R W (requireEmpty s) :=
  FaultsIn.ite (fun _ => FaultsIn.ok _) fun _ => FaultsIn.raise s _ (by decide)

theorem FaultsIn.requireRooted : FaultsIn s.cfg R W (requireRooted s) :=
  FaultsIn.ite (fun _ => FaultsIn.ok _) fun _ => FaultsIn.raise s _ (by decide)

theorem FaultsIn.requireCodes : FaultsIn s.cfg R W (requireCodes s) :=
  FaultsIn.ite (fun _ => FaultsIn.ok _) fun _ => FaultsIn.raise s _ (by decide)

theorem FaultsIn.checkCapacity (n : Nat) : FaultsIn s.cfg R W (checkCapacity s n) :=
  FaultsIn.ite (fun _ => FaultsIn.raise s _ (by decide)) fun _ => FaultsIn.ok _

theorem FaultsIn.readBucket {base limit w p : Nat} {F : FreqTable} (h : ∀ b, base ≤ b → b < base + limit → R b) :
    FaultsIn s.cfg R W (readBucket s base limit w F p) :=
  FaultsIn.ite (fun _ => FaultsIn.raise s _ (by decide)) fun _ =>
    (FaultsIn.readField fun b h1 h2 => h b (by omega) (by omega)).bind fun _ _ =>
      FaultsIn.ite (fun _ => FaultsIn.raise s _ (by decide)) fun _ =>
        (FaultsIn.readEntries fun b h1 h2 => h b (by omega) (by omega)).bind fun _ _ => FaultsIn.pure _

theorem FaultsIn.decompress {base limit : Nat} (h : ∀ b, base ≤ b → b < base + limit → R b) :
    FaultsIn s.cfg R W (decompress s base limit) :=
  (FaultsIn.readBucket h).bind fun _ _ => (FaultsIn.readBucket h).bind fun _ _ => FaultsIn.readBucket h

theorem FaultsIn.parseHeader (h : ∀ b, s.srcAddr.toNat ≤ b → b < s.srcAddr.toNat + s.srcLen.toNat → R b) :
    FaultsIn s.cfg R W (parseHeader s) :=
  FaultsIn.ite (fun _ => FaultsIn.raise s _ (by decide)) fun _ =>
    (FaultsIn.readField fun b h1 h2 => h b (by omega) (by omega)).bind fun _ _ =>
      (FaultsIn.readField fun b h1 h2 => h b (by omega) (by omega)).bind fun _ _ =>
        FaultsIn.ite (fun _ => FaultsIn.raise s _ (by decide)) fun _ =>
          FaultsIn.ite (fun _ => FaultsIn.raise s _ (by decide)) fun _ =>
            (FaultsIn.decompress fun b h1 h2 => h b (by omega) (by omega)).bind fun _ _ => FaultsIn.pure _

end

/-- `headerLength` as `parse_header` returns it lies within SRC. -/
theorem parseHeader_length {s : State} {h : Header} (hp : parseHeader s = .ok h) : h.headerLength ≤ s.srcLen.toNat := by
  unfold parseHeader at hp
  split at hp
  · cases hp
  · obtain ⟨hl, _, hp⟩ := ok_of_bind hp
    obtain ⟨dl, _, hp⟩ := ok_of_bind hp
    split at hp
    · cases hp
    · split at hp
      · cases hp
      · obtain ⟨r, _, hp⟩ := ok_of_bind hp
        cases hp
        show hl ≤ _
        omega

/-- Every MEM_FAULT of a command is a rejected read of a byte of SRC or a rejected write of a byte of DST. -/
theorem run_faults (i : Instr) (s : State) :
    FaultsIn s.cfg (fun a => usesSrc i = true ∧ s.inSrc a = true) (fun a => usesDst i = true ∧ s.inDst a = true)
      (runOf i s) := by
  have src : usesSrc i = true → ∀ b, s.srcAddr.toNat ≤ b → b < s.srcAddr.toNat + s.srcLen.toNat →
      usesSrc i = true ∧ s.inSrc b = true := fun hu b h1 h2 => ⟨hu, by simp [State.inSrc, h1, h2]⟩
  have dst : usesDst i = true → ∀ n, n ≤ s.dstCap.toNat → ∀ b, s.dstAddr.toNat ≤ b → b < s.dstAddr.toNat + n →
      usesDst i = true ∧ s.inDst b = true := fun hu n hn b h1 h2 => ⟨hu, by
    have : b < s.dstAddr.toNat + s.dstCap.toNat := by omega
    simp [State.inDst, h1, this]⟩
  cases i
  · refine FaultsIn.bind (FaultsIn.requireEmpty.bind fun _ _ => FaultsIn.checkRegions.bind fun _ _ =>
      FaultsIn.readBytes (src rfl)) fun data hd => ?_
    have hdata : data.length < 2 ^ 32 := by
      rw [(encodeInput_pass hd).2.2, srcBytes_length]; exact s.srcLen.isLt
    dsimp only
    rw [encodeBits_length hdata]
    generalize buildTree (count data) s.tree = built
    refine (FaultsIn.checkCapacity _).bind fun _ hc => ?_
    refine (FaultsIn.writeBytes (dst rfl _ ?_)).bind fun _ _ => FaultsIn.pure _
    rw [List.length_append, pack_length]
    exact checkCapacity_pass hc
  · refine FaultsIn.bind (FaultsIn.requireEmpty.bind fun _ _ => FaultsIn.checkRegions.bind fun _ _ =>
      (FaultsIn.parseHeader (src rfl)).bind fun _ _ => (FaultsIn.checkCapacity _).bind fun _ _ => FaultsIn.pure _)
        fun h hd => ?_
    dsimp only
    generalize buildTree h.table s.tree = built
    have hc := (decodeInput_pass hd).2.2
    have hl : h.headerLength ≤ s.srcLen.toNat := by
      obtain ⟨_, _, hd⟩ := ok_of_bind hd
      obtain ⟨_, _, hd⟩ := ok_of_bind hd
      obtain ⟨h', hp, hd⟩ := ok_of_bind hd
      obtain ⟨_, _, hd⟩ := ok_of_bind hd
      cases hd
      exact parseHeader_length hp
    refine (FaultsIn.decodeBody (fun j hj => src rfl _ (by omega) (by omega)) fun j h1 h2 =>
      dst rfl _ hc _ (by omega) (by omega)).bind fun _ _ => FaultsIn.pure _
  · refine FaultsIn.checkRegions.bind fun _ _ => (FaultsIn.checkCapacity _).bind fun _ hc =>
      FaultsIn.bind (FaultsIn.readBytes (src rfl)) fun data hd => ?_
    refine (FaultsIn.writeBytes (dst rfl _ ?_)).bind fun _ _ => FaultsIn.pure _
    rw [pack_length, List.length_map, readSrc_eq hd, srcBytes_length]
    exact checkCapacity_pass hc
  · refine FaultsIn.checkRegions.bind fun _ _ => (FaultsIn.checkCapacity _).bind fun _ hc => ?_
    exact (FaultsIn.unpackInto (src rfl) (dst rfl _ (checkCapacity_pass hc))).bind fun _ _ => FaultsIn.pure _
  · exact FaultsIn.checkSrc.bind fun _ _ => FaultsIn.bind (FaultsIn.readBytes (src rfl)) fun _ _ => FaultsIn.pure _
  · exact FaultsIn.checkDst.bind fun _ _ => (FaultsIn.checkCapacity _).bind fun _ hc =>
      (FaultsIn.writeBytes (dst rfl _ (checkCapacity_pass hc))).bind fun _ _ => FaultsIn.pure _
  · exact FaultsIn.checkSrc.bind fun _ _ => (FaultsIn.decompress (src rfl)).bind fun _ _ => FaultsIn.pure _
  · exact FaultsIn.checkDst.bind fun _ _ => (FaultsIn.checkCapacity _).bind fun _ hc =>
      (FaultsIn.writeBytes (dst rfl _ (checkCapacity_pass hc))).bind fun _ _ => FaultsIn.pure _
  · exact FaultsIn.checkSrc.bind fun _ _ => (FaultsIn.parseHeader (src rfl)).bind fun _ _ => FaultsIn.pure _
  · refine FaultsIn.requireEmpty.bind fun _ _ => ?_
    generalize buildTree s.freq s.tree = built
    exact FaultsIn.pure _
  · exact FaultsIn.requireRooted.bind fun _ _ => FaultsIn.pure _
  · exact FaultsIn.requireRooted.bind fun _ _ => FaultsIn.pure _
  · exact FaultsIn.requireRooted.bind fun _ _ => FaultsIn.checkSrc.bind fun _ _ =>
      (FaultsIn.walk fun j _ _ => src rfl _ (by omega) (by omega)).bind fun _ _ => FaultsIn.pure _
  · refine FaultsIn.requireCodes.bind fun _ _ => FaultsIn.checkRegions.bind fun _ _ =>
      FaultsIn.bind (FaultsIn.readBytes (src rfl)) fun data hd => (FaultsIn.checkCapacity _).bind fun _ hc => ?_
    refine (FaultsIn.writeBytes (dst rfl _ ?_)).bind fun _ _ => FaultsIn.pure _
    rw [pack_length, encodeBits_ram_length]
    exact checkCapacity_pass hc
  · exact FaultsIn.requireRooted.bind fun _ _ => FaultsIn.checkRegions.bind fun _ _ =>
      (FaultsIn.checkCapacity _).bind fun _ hc =>
        (FaultsIn.decodeBody (fun j hj => src rfl _ (by omega) (by omega)) fun j h1 h2 =>
          dst rfl _ (checkCapacity_pass hc) _ (by omega) (by omega)).bind fun _ _ => FaultsIn.pure _

/-! ### The first rejected read -/

/-- The run reads the `n` bytes from `lo` on, in order, and nothing else of SRC: it answers `v`, or MEM_FAULT at the first
of them that is rejected. -/
def ReadsInOrder {α : Type} (c : Config) (m : Memory) (lo n : Nat) (x : Except Raise α) (v : α) : Prop :=
  (NoFault c .read lo n → x = .ok v) ∧
    ∀ j, j < n → NoFault c .read lo j → (lo + j, AccessKind.read) ∈ c.memFaults →
      x = .error { code := .memFault, info := trunc32 (lo + j), mem := m }

section
variable {α β : Type} {c : Config} {m : Memory}

theorem ReadsInOrder.ok (lo : Nat) (v : α) : ReadsInOrder c m lo 0 (.ok v) v :=
  ⟨fun _ => rfl, fun _ h => absurd h (Nat.not_lt_zero _)⟩

theorem ReadsInOrder.bind {lo n k : Nat} {x : Except Raise α} {f : α → Except Raise β} {v : α} {w : β}
    (hx : ReadsInOrder c m lo n x v) (hf : ReadsInOrder c m (lo + n) k (f v) w) :
    ReadsInOrder c m lo (n + k) (x >>= f) w := by
  refine ⟨fun h => ?_, fun j hj hn h => ?_⟩
  · rw [hx.1 (h.sub (le_refl _) (by omega))]
    exact hf.1 (h.sub (by omega) (by omega))
  · by_cases hjn : j < n
    · rw [hx.2 j hjn hn h]
      rfl
    · rw [hx.1 (hn.sub (le_refl _) (by omega))]
      have := hf.2 (j - n) (by omega) (hn.sub (by omega) (by omega))
        (by rwa [show lo + n + (j - n) = lo + j by omega])
      rwa [show lo + n + (j - n) = lo + j by omega] at this

/-- A part that reads, and then one that reads nothing. -/
theorem ReadsInOrder.mapOk {lo n : Nat} {x : Except Raise α} {v : α} {f : α → Except Raise β} {w : β}
    (hx : ReadsInOrder c m lo n x v) (hf : f v = .ok w) : ReadsInOrder c m lo n (x >>= f) w :=
  hx.bind (k := 0) (hf ▸ ReadsInOrder.ok _ _)

theorem ReadsInOrder.byte (c : Config) (m : Memory) (lo : Nat) :
    ReadsInOrder c m lo 1 (memRead c m lo) (m.read lo) := by
  rcases memRead_cases c m lo with ⟨h0, h⟩ | ⟨h0, h⟩
  · refine ⟨fun _ => h, fun j hj _ hf => ?_⟩
    rw [show lo + j = lo by omega] at hf
    exact absurd hf h0
  · refine ⟨fun hn => absurd h0 (hn lo (le_refl _) (by omega)), fun j hj _ _ => ?_⟩
    rw [h, show lo + j = lo by omega]

theorem ReadsInOrder.bytes {lo : Nat} {bs : List Byte} (h : HoldsAt m lo bs) :
    ReadsInOrder c m lo bs.length (readBytes c m lo bs.length) bs := by
  induction bs generalizing lo with
  | nil => exact ReadsInOrder.ok _ _
  | cons b bs ih =>
    have hb : m.read lo = b := h 0 (by simp)
    have ht : HoldsAt m (lo + 1) bs := HoldsAt.right (xs := [b]) h
    have key : ReadsInOrder c m lo (1 + bs.length) (readBytes c m lo (bs.length + 1)) (b :: bs) :=
      (ReadsInOrder.byte c m lo).bind ((ih ht).mapOk (hb ▸ rfl))
    rwa [Nat.add_comm] at key

theorem ReadsInOrder.field {lo v w : Nat} (h : HoldsAt m lo (le v w)) :
    ReadsInOrder c m lo w (readField c m lo w) (v % 256 ^ w) := by
  have := ReadsInOrder.bytes (c := c) h
  rw [le_length] at this
  exact this.mapOk (by rw [ofLe_le]; rfl)

theorem ReadsInOrder.entries {base w : Nat} {es : List (Byte × Nat)} {p : Nat} {F : FreqTable}
    (h : HoldsAt m (base + p) (pairBytes w es)) :
    ReadsInOrder c m (base + p) (es.length * (1 + w)) (readEntries c m base w es.length p F)
      (assignAll F (es.map (fun e => (e.1, e.2 % 256 ^ w)))) := by
  induction es generalizing p F with
  | nil => rw [List.length_nil, Nat.zero_mul]; exact ReadsInOrder.ok _ _
  | cons e es ih =>
    have hsplit : pairBytes w (e :: es) = (e.1 :: le e.2 w) ++ pairBytes w es := rfl
    rw [hsplit] at h
    have hb : m.read (base + p) = e.1 := h 0 (by simp)
    have h3 : HoldsAt m (base + p + 1) (le e.2 w) := HoldsAt.right (xs := [e.1]) (by simpa using h.left)
    have h4 := h.right
    rw [List.length_cons, le_length, show base + p + (w + 1) = base + (p + 1 + w) by omega] at h4
    rw [show (e :: es).length * (1 + w) = 1 + (w + es.length * (1 + w)) by rw [List.length_cons, Nat.add_mul]; omega]
    refine (ReadsInOrder.byte c m _).bind ((ReadsInOrder.field h3).bind ?_)
    rw [hb, show base + p + 1 + w = base + (p + 1 + w) by omega]
    exact ih h4

end

section
variable {s : State}

theorem ReadsInOrder.bucket {base limit w : Nat} {F : FreqTable} {p : Nat} {es : List (Byte × Nat)}
    (h : HoldsAt s.mem (base + p) (entryBytes w es)) (hl : p + (entryBytes w es).length ≤ limit)
    (hn : es.length < 2 ^ 32) :
    ReadsInOrder s.cfg s.mem (base + p) (entryBytes w es).length (readBucket s base limit w F p)
      (assignAll F (es.map (fun e => (e.1, e.2 % 256 ^ w))), p + (entryBytes w es).length) := by
  rw [entryBytes_length] at hl ⊢
  rw [entryBytes_eq] at h
  have h1 := ReadsInOrder.field (c := s.cfg) h.left
  rw [Nat.mod_eq_of_lt (by simpa using hn)] at h1
  have h2 := h.right
  rw [le_length, Nat.add_assoc] at h2
  unfold readBucket
  rw [if_neg (by omega)]
  refine h1.bind ?_
  rw [if_neg (by omega), Nat.add_assoc base]
  exact (ReadsInOrder.entries h2).mapOk (by rw [Nat.add_assoc]; rfl)

theorem ReadsInOrder.table {base limit : Nat} {eB eS eI : List (Byte × Nat)} (hc : CountsFit eB eS eI)
    (h : HoldsAt s.mem base (tableBytes eB eS eI)) (hl : (tableBytes eB eS eI).length ≤ limit) (hx : limit < 2 ^ 32) :
    ReadsInOrder s.cfg s.mem base (tableBytes eB eS eI).length (decompress s base limit)
      (assigned (eB ++ eS ++ eI), (tableBytes eB eS eI).length) := by
  have hlen : (tableBytes eB eS eI).length =
      (entryBytes 1 eB).length + ((entryBytes 2 eS).length + (entryBytes 4 eI).length) := by
    simp only [tableBytes, List.length_append, Nat.add_assoc]
  rw [hlen] at hl ⊢
  unfold tableBytes at h
  have hB : eB.length < 2 ^ 32 := by have := entryBytes_length 1 eB; omega
  have hS : eS.length < 2 ^ 32 := by have := entryBytes_length 2 eS; omega
  have hI : eI.length < 2 ^ 32 := by have := entryBytes_length 4 eI; omega
  have h1 := ReadsInOrder.bucket (s := s) (base := base) (limit := limit) (F := zeroTable) (p := 0) h.left.left
    (by omega) hB
  rw [mod_counts (by simpa using hc.1), Nat.zero_add] at h1
  have h2 := ReadsInOrder.bucket (s := s) (base := base) (limit := limit) (F := assignAll zeroTable eB)
    (p := (entryBytes 1 eB).length) h.left.right (by omega) hS
  rw [mod_counts (by simpa using hc.2.1)] at h2
  have h3 := ReadsInOrder.bucket (s := s) (base := base) (limit := limit) (F := assignAll (assignAll zeroTable eB) eS)
    (p := (entryBytes 1 eB).length + (entryBytes 2 eS).length) (by simpa only [List.length_append] using h.right)
    (by omega) hI
  rw [mod_counts (by simpa using hc.2.2)] at h3
  have hA : assignAll (assignAll (assignAll zeroTable eB) eS) eI = assigned (eB ++ eS ++ eI) := by
    rw [← assignAll_append, ← assignAll_append, assignAll_zero, List.append_assoc]
  rw [hA, Nat.add_assoc (entryBytes 1 eB).length, ← Nat.add_assoc base] at h3
  exact h1.bind (h2.bind h3)

end

/-- A well-formed header is read in order to the end of its table (41_frequency.md R167). -/
theorem ReadsInOrder.header {s : State} {eB eS eI : List (Byte × Nat)} {dl : Nat} {gap tail : List Byte}
    (hc : CountsFit eB eS eI) (hd : dl < 2 ^ 32)
    (hs : s.srcBytes =
      le (8 + (tableBytes eB eS eI ++ gap).length) 4 ++ le dl 4 ++ tableBytes eB eS eI ++ gap ++ tail) :
    ReadsInOrder s.cfg s.mem s.srcAddr.toNat (8 + (tableBytes eB eS eI).length) (parseHeader s)
      { dataLength := dl, table := assigned (eB ++ eS ++ eI),
        headerLength := 8 + (tableBytes eB eS eI ++ gap).length } := by
  have hh := srcBytes_holdsAt s
  have hlen := congrArg List.length hs
  simp only [srcBytes_length, List.length_append, le_length] at hlen
  have hlt := s.srcLen.isLt
  rw [hs] at hh
  have a2 := hh.left.left.left.right
  have a3 := hh.left.left.right
  rw [le_length] at a2
  simp only [List.length_append, le_length] at a3
  have f1 := ReadsInOrder.field (c := s.cfg) hh.left.left.left.left
  have f2 := ReadsInOrder.field (c := s.cfg) a2
  rw [Nat.mod_eq_of_lt (by simp only [List.length_append]; omega)] at f1
  rw [Nat.mod_eq_of_lt (by simpa using hd)] at f2
  have f3 := ReadsInOrder.table (s := s) hc a3 (limit := (tableBytes eB eS eI ++ gap).length) (by simp)
    (by simp only [List.length_append]; omega)
  unfold parseHeader
  rw [if_neg (by omega), show 8 + (tableBytes eB eS eI).length = 4 + (4 + (tableBytes eB eS eI).length) by omega]
  refine f1.bind (f2.bind ?_)
  rw [if_neg (by omega), if_neg (by simp only [List.length_append]; omega),
    show 8 + (tableBytes eB eS eI ++ gap).length - 8 = (tableBytes eB eS eI ++ gap).length by omega, Nat.add_assoc]
  exact f3.mapOk rfl

/-! ### The first rejected read of a walk -/

/-- A walk that reaches no leaf before a byte that cannot be read stops there. -/
theorem walk_rejected {cfg : Config} {m : Memory} {arena : Vector Node 511} {base k fuel c : Nat} {n : NodeId}
    {bits : Code} (h : Astray arena n bits) (hf : bits.length < fuel) (hs : StreamHas m base c bits)
    (hr : BitsReadable cfg base c bits.length)
    (hx : (base + (c + bits.length) / 8, AccessKind.read) ∈ cfg.memFaults) :
    walk cfg m arena base k fuel c n =
      .error { code := .memFault, info := trunc32 (base + (c + bits.length) / 8), mem := m } := by
  induction bits generalizing fuel c n with
  | nil =>
    obtain ⟨l, r, hk⟩ := h
    match fuel, hf with
    | fuel + 1, _ =>
      rw [List.length_nil, Nat.add_zero] at hx ⊢
      rcases memRead_cases cfg m (base + c / 8) with ⟨h0, _⟩ | ⟨_, h1⟩
      · exact absurd hx h0
      · simp only [walk, hk, h1, bind, Except.bind]
        rfl
  | cons b bits ih =>
    obtain ⟨l, r, hk, hl⟩ := h
    obtain ⟨hb, hs'⟩ := hs.tail
    match fuel, hf with
    | fuel + 1, hf =>
      have hread := memRead_free (m := m) (hr c (le_refl _) (by simp))
      have hb' : (m.read (base + c / 8)).getLsbD (c % 8) = b := hb
      simp only [List.length_cons] at hf hx hr ⊢
      simp only [walk, hk, hread, bind, Except.bind, hb']
      rw [show c + (bits.length + 1) = c + 1 + bits.length by omega] at hx ⊢
      exact ih hl (by omega) hs' (fun j h1 h2 => hr j (by omega) (by omega)) hx

/-- The symbols before the walk that stops at a byte that cannot be read are written. -/
theorem decodeBody_rejected {cfg : Config} {t : Tree} {base bytes dst n : Nat} {m : Memory}
    {found : List (Code × Byte)} {rest : Code} (hl : ∀ f ∈ found, Leads t.arena t.root f.1 f.2)
    (ha : Astray t.arena t.root rest) (hn : found.length < n)
    (hc : (found.flatMap Prod.fst ++ rest).length < 8 * bytes)
    (hs : StreamHas m base 0 (found.flatMap Prod.fst ++ rest))
    (hr : BitsReadable cfg base 0 (found.flatMap Prod.fst ++ rest).length)
    (hx : (base + (found.flatMap Prod.fst ++ rest).length / 8, AccessKind.read) ∈ cfg.memFaults)
    (hw : NoFault cfg .write dst found.length)
    (hd : found.length = 0 ∨ bytes = 0 ∨ dst + found.length ≤ base ∨ base + bytes ≤ dst) :
    ∃ m', decodeBody cfg t base (8 * bytes) dst n 0 0 m =
        .error { code := .memFault, info := trunc32 (base + (found.flatMap Prod.fst ++ rest).length / 8), mem := m' } ∧
      HoldsAt m' dst (found.map Prod.snd) ∧ Touches m m' dst found.length := by
  rw [List.length_append] at hc hr hx ⊢
  obtain ⟨hs1, hs2⟩ := hs.split
  obtain ⟨m', h1, h2, h3⟩ := decodeBody_found (cfg := cfg) (t := t) (base := base) (bytes := bytes) (dst := dst)
    (n := n) (k := 0) (c := 0) (m := m) hl (by omega) (by omega) hs1 (fun j h1 h2 => hr j h1 (by omega))
    (by simpa using hw) (by simpa using hd)
  have hs3 : StreamHas m' base (0 + (found.flatMap Prod.fst).length) rest := by
    rcases hd with h | h | h
    · intro i hi; rw [← hs2 i hi]; unfold streamBit; rw [h3.outside _ (by omega)]
    · intro i hi; omega
    · exact hs2.keep (bytes := bytes) (by omega) h3.outside (by omega)
  obtain ⟨q, hq⟩ : ∃ q, n - found.length = q + 1 := ⟨n - found.length - 1, by omega⟩
  have hwalk := walk_rejected (cfg := cfg) (m := m') (base := base) (k := 0 + found.length)
    (fuel := 8 * bytes - (0 + (found.flatMap Prod.fst).length)) ha (by omega) hs3
    (fun j h1 h2 => hr j (by omega) (by omega)) (by rwa [Nat.zero_add])
  refine ⟨m', ?_, by simpa using h2, by simpa using h3⟩
  rw [h1, hq]
  simp only [decodeBody, decodeOneAt, hwalk, bind, Except.bind]
  rw [Nat.zero_add]

/-- BITS_UNPACK unpacks the source bytes before the one that cannot be read. -/
theorem unpackInto_rejected {c : Config} {m : Memory} {src dst n j : Nat} (hj : j < n) (hr : NoFault c .read src j)
    (hx : (src + j, AccessKind.read) ∈ c.memFaults) (hw : NoFault c .write dst (8 * j))
    (hd : dst + 8 * n ≤ src ∨ src + n ≤ dst) :
    ∃ m', unpackInto c m src dst n = .error { code := .memFault, info := trunc32 (src + j), mem := m' } ∧
      (∀ i, i < 8 * j → m'.read (dst + i) = bitByte (streamBit m src i)) ∧ Touches m m' dst (8 * j) := by
  induction j generalizing m src dst n with
  | zero =>
    match n, hj with
    | n + 1, _ =>
      rcases memRead_cases c m src with ⟨h0, _⟩ | ⟨_, h1⟩
      · exact absurd hx h0
      · exact ⟨m, by simp only [unpackInto, h1, bind, Except.bind]; rfl, fun i hi => by omega, Touches.refl _ _ _⟩
  | succ j ih =>
    match n, hj with
    | n + 1, hj =>
      have h1 : memRead c m src = .ok (m.read src) := memRead_free (hr src (le_refl _) (by omega))
      obtain ⟨m', h2, h3, h4⟩ := writeBytes_ok (c := c) (m := m) (a := dst)
        (bs := (unpackByte (m.read src)).map bitByte) (hw.sub (le_refl _) (by rw [List.length_map, unpackByte_length]; omega))
      have hlen : ((unpackByte (m.read src)).map bitByte).length = 8 := by simp
      rw [hlen] at h4
      obtain ⟨m'', h5, h6, h7⟩ := ih (m := m') (src := src + 1) (dst := dst + 8) (n := n) (by omega)
        (hr.sub (by omega) (by omega)) (by rwa [show src + 1 + j = src + (j + 1) by omega])
        (hw.sub (by omega) (by omega)) (by omega)
      refine ⟨m'', ?_, ?_, (h4.mono (le_refl _) (by omega)).trans (h7.mono (by omega) (by omega))⟩
      · simp only [unpackInto, h1, h2, h5, bind, Except.bind]
        rw [show src + 1 + j = src + (j + 1) by omega]
      · intro i hi
        by_cases h8 : i < 8
        · rw [h7.outside (dst + i) (by omega), h3 i (by simpa using h8)]
          simp [unpackByte, streamBit, Nat.div_eq_of_lt h8, Nat.mod_eq_of_lt h8]
        · have h9 := h6 (i - 8) (by omega)
          rw [show dst + 8 + (i - 8) = dst + i by omega] at h9
          rw [h9]
          congr 1
          unfold streamBit
          rw [h4.outside _ (by omega), show src + 1 + (i - 8) / 8 = src + i / 8 by omega,
            show (i - 8) % 8 = i % 8 by omega]

/-! ### The first rejected write of an output -/

/-- Two ways through the same output: `x` where the platform rejects byte `j`, `x0` where it rejects none. If `x0`
answers a memory, `x` is the MEM_FAULT of byte `j` with the bytes before it as `x0` has them. -/
def StopsAt (m : Memory) (dst j : Nat) (x x0 : Except Raise Memory) : Prop :=
  ∀ m0, x0 = .ok m0 → ∃ m', x = .error { code := .memFault, info := trunc32 (dst + j), mem := m' } ∧
    (∀ k, k < j → m'.read (dst + k) = m0.read (dst + k)) ∧ Touches m m' dst j

theorem memRead_unrejected (c : Config) (m : Memory) (a : Nat) : memRead (unrejected c) m a = .ok (m.read a) :=
  memRead_free (by simp [unrejected])

theorem memWrite_unrejected (c : Config) (m : Memory) (a : Nat) (v : Byte) :
    memWrite (unrejected c) m a v = .ok (m.write a v) := by
  rcases memWrite_cases (unrejected c) m a v with ⟨_, h⟩ | ⟨h, _⟩
  · exact h
  · simp [unrejected] at h

theorem memWrite_free {c : Config} {m : Memory} {a : Nat} {v : Byte} (h : (a, AccessKind.write) ∉ c.memFaults) :
    memWrite c m a v = .ok (m.write a v) := by
  rcases memWrite_cases c m a v with ⟨_, h'⟩ | ⟨h', _⟩
  · exact h'
  · exact absurd h' h

theorem memWrite_rejected {c : Config} {m : Memory} {a : Nat} {v : Byte} (h : (a, AccessKind.write) ∈ c.memFaults) :
    memWrite c m a v = .error { code := .memFault, info := trunc32 a, mem := m } := by
  rcases memWrite_cases c m a v with ⟨h', _⟩ | ⟨_, h'⟩
  · exact absurd h h'
  · exact h'

theorem writeBytes_rejected {c : Config} {m : Memory} {a j : Nat} {bs : List Byte} (hj : j < bs.length)
    (hw : NoFault c .write a j) (hx : (a + j, AccessKind.write) ∈ c.memFaults) :
    ∃ m', writeBytes c m a bs = .error { code := .memFault, info := trunc32 (a + j), mem := m' } ∧
      HoldsAt m' a (bs.take j) ∧ Touches m m' a j := by
  induction bs generalizing m a j with
  | nil => simp at hj
  | cons b bs ih =>
    cases j with
    | zero =>
      rw [Nat.add_zero] at hx ⊢
      exact ⟨m, by simp only [writeBytes, memWrite_rejected hx, bind, Except.bind], fun i hi => absurd hi (by simp),
        Touches.refl _ _ _⟩
    | succ j =>
      have h1 := memWrite_free (m := m) (v := b) (hw a (le_refl _) (by omega))
      obtain ⟨m', h2, h3, h4⟩ := ih (m := m.write a b) (a := a + 1) (j := j) (by simpa using hj)
        (hw.sub (by omega) (by omega)) (by rwa [Nat.add_assoc, Nat.add_comm 1])
      refine ⟨m', ?_, ?_, (Touches.write m (n := j + 1) b (le_refl a) (by omega)).trans (h4.mono (by omega) (by omega))⟩
      · simp only [writeBytes, h1, h2, bind, Except.bind]
        rw [Nat.add_assoc, Nat.add_comm 1]
      · intro i hi
        cases i with
        | zero => simpa using h4.outside a (by omega)
        | succ i =>
          have := h3 i (by simpa using hi)
          rw [show a + 1 + i = a + (i + 1) by omega] at this
          simpa using this

/-! Reads of which none is rejected are those of the platform with nothing rejected. -/

theorem readBytes_free {c : Config} {m : Memory} {a n : Nat} (h : NoFault c .read a n) :
    readBytes c m a n = readBytes (unrejected c) m a n := by
  rw [readBytes_ok h, readBytes_ok fun _ _ _ => by simp [unrejected]]

theorem readField_free {c : Config} {m : Memory} {a n : Nat} (h : NoFault c .read a n) :
    readField c m a n = readField (unrejected c) m a n := by
  simp only [readField, readBytes_free h]

theorem readEntries_free {c : Config} {m : Memory} {base w k p : Nat} {F : FreqTable}
    (h : NoFault c .read (base + p) (k * (1 + w))) :
    readEntries c m base w k p F = readEntries (unrejected c) m base w k p F := by
  induction k generalizing p F with
  | zero => rfl
  | succ k ih =>
    rw [Nat.succ_mul] at h
    simp only [readEntries, memRead_unrejected, memRead_free (m := m) (h (base + p) (le_refl _) (by omega)),
      readField_free (m := m) (h.sub (lo' := base + p + 1) (n' := w) (by omega) (by omega)), ok_bind]
    congr 1
    funext cnt
    exact ih (h.sub (by omega) (by omega))

theorem readBucket_free {s : State} {base limit w p : Nat} {F : FreqTable} (h : NoFault s.cfg .read base limit) :
    readBucket s base limit w F p = readBucket { s with cfg := unrejected s.cfg } base limit w F p := by
  unfold readBucket
  split
  · rfl
  · rw [readField_free (h.sub (by omega) (by omega))]
    congr 1
    funext k
    split
    · rfl
    · rw [readEntries_free (h.sub (by omega) (by omega))]

theorem decompress_free {s : State} {base limit : Nat} (h : NoFault s.cfg .read base limit) :
    decompress s base limit = decompress { s with cfg := unrejected s.cfg } base limit := by
  simp only [decompress, readBucket_free h]

theorem parseHeader_free {s : State} (h : NoFault s.cfg .read s.srcAddr.toNat s.srcLen.toNat) :
    parseHeader s = parseHeader { s with cfg := unrejected s.cfg } := by
  unfold parseHeader
  split
  · rfl
  · rw [readField_free (h.sub (by omega) (by omega)), readField_free (h.sub (by omega) (by omega))]
    congr 1
    funext hl
    congr 1
    funext dl
    split
    · rfl
    · split
      · rfl
      · rw [decompress_free (h.sub (by omega) (by omega))]

/-- Writes of which none is rejected are those of the platform with nothing rejected. -/
theorem writeBytes_free {c : Config} {m : Memory} {a : Nat} {bs : List Byte} (hw : NoFault c .write a bs.length) :
    writeBytes c m a bs = writeBytes (unrejected c) m a bs := by
  induction bs generalizing m a with
  | nil => rfl
  | cons b bs ih =>
    simp only [List.length_cons] at hw
    simp only [writeBytes, memWrite_unrejected, memWrite_free (hw a (le_refl _) (by omega)), bind, Except.bind]
    exact ih (hw.sub (by omega) (by omega))

theorem StopsAt.writeBytes {c : Config} {m : Memory} {a j : Nat} {bs : List Byte} (hj : j < bs.length)
    (hw : NoFault c .write a j) (hx : (a + j, AccessKind.write) ∈ c.memFaults) :
    StopsAt m a j (writeBytes c m a bs) (writeBytes (unrejected c) m a bs) := by
  intro m0 h0
  obtain ⟨m0', h1, h2, _⟩ := writeBytes_ok (c := (unrejected c)) (m := m) (a := a) (bs := bs)
    (fun _ _ _ => by simp [unrejected])
  rw [h1] at h0
  cases h0
  obtain ⟨m', h3, h4, h5⟩ := writeBytes_rejected (m := m) hj hw hx
  refine ⟨m', h3, fun k hk => ?_, h5⟩
  rw [h2 k (by omega), h4 k (by simp; omega)]
  simp

theorem StopsAt.unpackInto {c : Config} {m : Memory} {src dst n j : Nat} (hj : j < 8 * n) (hr : NoFault c .read src n)
    (hw : NoFault c .write dst j) (hx : (dst + j, AccessKind.write) ∈ c.memFaults) :
    StopsAt m dst j (unpackInto c m src dst n) (unpackInto (unrejected c) m src dst n) := by
  induction n generalizing m src dst j with
  | zero => omega
  | succ n ih =>
    intro m0 h0
    have h1 : memRead c m src = .ok (m.read src) := memRead_free (hr src (le_refl _) (by omega))
    have hlen : ((unpackByte (m.read src)).map bitByte).length = 8 := by simp
    simp only [Machine.unpackInto, memRead_unrejected, bind, Except.bind] at h0
    obtain ⟨m1, h2, h3, h4⟩ := writeBytes_ok (c := (unrejected c)) (m := m) (a := dst)
      (bs := (unpackByte (m.read src)).map bitByte) (fun _ _ _ => by simp [unrejected])
    rw [hlen] at h4
    replace h0 : Machine.unpackInto (unrejected c) m1 (src + 1) (dst + 8) n = .ok m0 := by rw [h2] at h0; exact h0
    have ht : Touches m1 m0 (dst + 8) (8 * n) := by
      rcases unpackInto_touches (unrejected c) m1 (src + 1) (dst + 8) n with ⟨m'', h5, h6⟩ | ⟨e, h5, _⟩
      · rw [h5] at h0; cases h0; exact h6
      · rw [h5] at h0; cases h0
    by_cases h8 : j < 8
    · obtain ⟨m', h5, h6, h7⟩ := StopsAt.writeBytes (m := m) (by rw [hlen]; exact h8) hw hx m1 h2
      refine ⟨m', by simp only [Machine.unpackInto, h1, h5, bind, Except.bind], fun k hk => ?_, h7⟩
      rw [h6 k hk, ht.outside _ (by omega)]
    · obtain ⟨m1', h5, h6, h7⟩ := writeBytes_ok (c := c) (m := m) (a := dst)
        (bs := (unpackByte (m.read src)).map bitByte) (hw.sub (le_refl _) (by rw [hlen]; omega))
      have hm : m1' = m1 := by
        have := writeBytes_free (c := c) (m := m) (a := dst) (bs := (unpackByte (m.read src)).map bitByte)
          (hw.sub (le_refl _) (by rw [hlen]; omega))
        rw [h5, h2] at this
        exact Except.ok.inj this
      subst hm
      obtain ⟨m', h8', h9, h10⟩ := ih (m := m1') (src := src + 1) (dst := dst + 8) (j := j - 8) (by omega)
        (hr.sub (by omega) (by omega)) (hw.sub (by omega) (by omega))
        (by rwa [show dst + 8 + (j - 8) = dst + j by omega]) m0 h0
      rw [show dst + 8 + (j - 8) = dst + j by omega] at h8'
      refine ⟨m', by simp only [Machine.unpackInto, h1, h5, h8', bind, Except.bind], fun k hk => ?_,
        (h4.mono (le_refl _) (by omega)).trans (h10.mono (by omega) (by omega))⟩
      by_cases h11 : k < 8
      · rw [h10.outside _ (by omega), ht.outside _ (by omega)]
      · have := h9 (k - 8) (by omega)
        rwa [show dst + 8 + (k - 8) = dst + k by omega] at this

theorem walk_unrejected {c : Config} {m : Memory} {arena : Vector Node 511} {base k fuel c' : Nat} {n : NodeId}
    (hr : ∀ j, c' ≤ j → j < c' + fuel → (base + j / 8, AccessKind.read) ∉ c.memFaults) :
    walk c m arena base k fuel c' n = walk (unrejected c) m arena base k fuel c' n := by
  induction fuel generalizing c' n with
  | zero => rfl
  | succ fuel ih =>
    simp only [walk, memRead_unrejected, memRead_free (m := m) (hr c' (le_refl _) (by omega)), bind, Except.bind]
    split
    · rfl
    · exact ih fun j h1 h2 => hr j (by omega) (by omega)

/-- As `StopsAt`, for the body of a stream from symbol `k` on. -/
theorem decodeBody_stopsAt {c : Config} {t : Tree} {base nbits dst n k c' j : Nat} {m : Memory} (hj : j < n)
    (hr : ∀ j, j < nbits → (base + j / 8, AccessKind.read) ∉ c.memFaults) (hw : NoFault c .write (dst + k) j)
    (hx : (dst + k + j, AccessKind.write) ∈ c.memFaults) {r : Nat × Memory}
    (h0 : decodeBody (unrejected c) t base nbits dst n k c' m = .ok r) :
    ∃ m', decodeBody c t base nbits dst n k c' m =
        .error { code := .memFault, info := trunc32 (dst + k + j), mem := m' } ∧
      (∀ i, i < j → m'.read (dst + k + i) = r.2.read (dst + k + i)) ∧ Touches m m' (dst + k) j := by
  induction n generalizing k c' j m with
  | zero => omega
  | succ n ih =>
    have hwalk : decodeOneAt c m t base c' nbits k = decodeOneAt (unrejected c) m t base c' nbits k :=
      walk_unrejected fun j _ _ => hr j (by omega)
    simp only [decodeBody, hwalk] at h0 ⊢
    obtain ⟨⟨sym, c''⟩, h1, h0⟩ := ok_of_bind h0
    simp only [memWrite_unrejected, ok_bind] at h0
    rw [h1]
    simp only [ok_bind]
    cases j with
    | zero =>
      rw [Nat.add_zero] at hx ⊢
      exact ⟨m, by rw [memWrite_rejected hx]; rfl, fun i hi => by omega, Touches.refl _ _ _⟩
    | succ j =>
      have ht : Touches (m.write (dst + k) sym) r.2 (dst + (k + 1)) n := by
        rcases decodeBody_touches (unrejected c) t base nbits dst n (k + 1) c'' (m.write (dst + k) sym) with
          ⟨r', h', h2⟩ | ⟨e, h', _⟩ <;> rw [h'] at h0 <;> cases h0
        exact h2
      obtain ⟨m', h2, h3, h4⟩ := ih (k := k + 1) (j := j) (by omega) (hw.sub (by omega) (by omega))
        (by rwa [show dst + (k + 1) + j = dst + k + (j + 1) by omega]) h0
      rw [show dst + (k + 1) + j = dst + k + (j + 1) by omega] at h2
      refine ⟨m', by rw [memWrite_free (hw _ (le_refl _) (by omega))]; exact h2, fun i hi => ?_,
        (Touches.write m (n := j + 1) sym (le_refl (dst + k)) (by omega)).trans (h4.mono (by omega) (by omega))⟩
      cases i with
      | zero => rw [h4.outside _ (by omega), ht.outside _ (by omega)]
      | succ i =>
        have := h3 i (by omega)
        rwa [show dst + (k + 1) + i = dst + k + (i + 1) by omega] at this

end Sys2Proof.Machine
end

