-- ==== Sys2Proof/Laws/Step.lean ====
section
/-! SUPPORT. What a step can do, said once: the decoder on the bytes of a word, the engine's turn, the control port,
the build as STATUS shows it, reset, and the cases of a step (`StepCase`). -/

namespace Sys2Proof.Machine

/-! ### The decoder on the bytes of a word -/

theorem wordOfBytes_bytesOfWord (w : Word) :
    wordOfBytes (w.extractLsb' 0 8) (w.extractLsb' 8 8) (w.extractLsb' 16 8) (w.extractLsb' 24 8) = w := by
  unfold wordOfBytes
  apply BitVec.eq_of_getLsbD_eq
  intro i hi
  simp only [BitVec.getLsbD_append, BitVec.getLsbD_extractLsb']
  split
  · simp_all
  · split
    · rename_i h1 h2
      simp only [h2, decide_true, Bool.true_and]
      congr 1; omega
    · split
      · rename_i h1 h2 h3
        simp only [h3, decide_true, Bool.true_and]
        congr 1; omega
      · have h4 : i - 8 - 8 - 8 < 8 := by omega
        simp only [h4, decide_true, Bool.true_and]
        congr 1; omega

/-- The decoder reads a word's bytes as the word, and leaves the bytes after it. -/
theorem decodeBytes_bytesOfWord (w : Word) (rest : List Byte) :
    decodeBytes (bytesOfWord w ++ rest) = (decodeWord w).map (fun i => (i, rest)) := by
  show decodeBytes (_ :: _ :: _ :: _ :: rest) = _
  simp only [decodeBytes, wordOfBytes_bytesOfWord]
  cases decodeWord w <;> rfl

/-! ### The engine's turn -/

theorem busy_of_run {s : State} (h : s.phase = .run) : s.busy = true := by simp [State.busy, h]

theorem busy_of_idle {s : State} (h : s.phase = .idle) : s.busy = false := by simp [State.busy, h]

/-- A latched command runs as `exec` of it, unless a region covers a device. -/
theorem runLatched_ok {s : State} {i : Instr} (h : decodeWord s.curCmd = .ok i) :
    runLatched s = if s.coversDevice i then .refused .deviceInMemory else exec i s := by
  have hb := decodeBytes_bytesOfWord s.curCmd []
  rw [List.append_nil, h] at hb
  unfold runLatched
  rw [hb]
  rfl

/-- A latched word that is no command completes with ILLEGAL_CMD. -/
theorem runLatched_illegal {s : State} {e : DecodeReject} (h : decodeWord s.curCmd = .error e) :
    runLatched s = .next (s.completed .illegalCmd s.curCmd) := by
  have hb := decodeBytes_bytesOfWord s.curCmd []
  rw [List.append_nil, h] at hb
  unfold runLatched
  rw [hb]
  rfl

/-- What the engine's turn can answer as a next state. -/
theorem engineTurn_cases {s t : State} (h : engineTurn s = .next t) :
    (s.phase = .idle ∧ t = s) ∨
      (∃ i, s.phase = .run ∧ decodeWord s.curCmd = .ok i ∧ s.coversDevice i = false ∧ exec i s = .next t) ∨
      (s.phase = .run ∧ t = s.completed .illegalCmd s.curCmd) := by
  unfold engineTurn at h
  cases hp : s.phase with
  | idle =>
    rw [busy_of_idle hp] at h
    cases h
    exact .inl ⟨rfl, rfl⟩
  | run =>
    rw [busy_of_run hp, if_pos rfl] at h
    cases hd : decodeWord s.curCmd with
    | ok i =>
      rw [runLatched_ok hd] at h
      split at h
      · cases h
      · rename_i hc
        exact .inr (.inl ⟨i, rfl, rfl, by simpa using hc, h⟩)
    | error e =>
      rw [runLatched_illegal hd] at h
      cases h
      exact .inr (.inr ⟨rfl, rfl⟩)

/-! ### The control port -/

theorem portRead_defined {s : State} {off : Nat} (h : off < 0x4000) (h4 : off % 4 = 0) :
    portRead s (s.cfg.csrBase + off) 4 = .next (hostReadReg s (portReg off)) := by
  unfold portRead
  simp [Config.inPort, portBytes, h, Config.portAccessDefined, h4]

theorem portWrite_defined {s : State} {off : Nat} {v : Word} (h : off < 0x4000) (h4 : off % 4 = 0) :
    portWrite s (s.cfg.csrBase + off) 4 v = .next (hostWriteReg s (portReg off) v) := by
  unfold portWrite
  simp [Config.inPort, portBytes, h, Config.portAccessDefined, h4]

/-- A step that reads the register at an offset. -/
theorem step_portRead {s : State} {off : Nat} {rest : List HostOp}
    (ha : s.agenda = .portRead (s.cfg.csrBase + off) 4 :: rest) (h : off < 0x4000) (h4 : off % 4 = 0) :
    step s = .next (hostReadReg { s with agenda := rest } (portReg off)) := by
  simp only [step, ha]
  exact portRead_defined (s := { s with agenda := rest }) h h4

/-- A step that writes the register at an offset. -/
theorem step_portWrite {s : State} {off : Nat} {v : Word} {rest : List HostOp}
    (ha : s.agenda = .portWrite (s.cfg.csrBase + off) 4 v :: rest) (h : off < 0x4000) (h4 : off % 4 = 0) :
    step s = .next (hostWriteReg { s with agenda := rest } (portReg off) v) := by
  simp only [step, ha]
  exact portWrite_defined (s := { s with agenda := rest }) h h4

theorem hostWriteReg_idle {s : State} (r : PortReg) (v : Word) (h : s.phase = .idle) :
    hostWriteReg s r v = writeIdle s r v := by
  simp [hostWriteReg, busy_of_idle h]

theorem hostWriteReg_busy {s : State} (r : PortReg) (v : Word) (h : s.phase = .run) :
    hostWriteReg s r v = writeBusy s r v := by
  simp [hostWriteReg, busy_of_run h]

theorem portReg_freq {off : Nat} (h1 : 0x400 ≤ off) (h2 : off < 0x800) :
    portReg off = .freq (Fin.ofNat 256 ((off - 0x400) / 4)) := by
  unfold portReg
  rw [if_neg (by omega), if_pos h2]

theorem portReg_codeLen {off : Nat} (h1 : 0x800 ≤ off) (h2 : off < 0xC00) :
    portReg off = .codeLen (Fin.ofNat 256 ((off - 0x800) / 4)) := by
  unfold portReg
  rw [if_neg (by omega), if_neg (by omega), if_pos h2]

theorem portReg_codeBits {off : Nat} (h1 : 0x1000 ≤ off) (h2 : off < 0x3000) :
    portReg off = .codeBits (Fin.ofNat 256 ((off - 0x1000) / 32)) (Fin.ofNat 8 ((off - 0x1000) / 4)) := by
  unfold portReg
  rw [if_neg (by omega), if_neg (by omega), if_neg (by omega), if_neg (by omega), if_pos h2]

/-- CTRL stands at offset 0x008 alone. -/
theorem portReg_ctrl {off : Nat} (h : portReg off = .ctrl) : off = 8 := by
  unfold portReg at h
  split at h
  · unfold namedReg at h
    split at h <;> first | (cases h; done) | rfl
  · split at h
    · cases h
    · split at h
      · cases h
      · split at h
        · cases h
        · split at h <;> cases h

/-! ### The build as STATUS shows it -/

theorem treeInMotion_idle {s : State} (h : s.phase = .idle) : s.treeInMotion = false := by
  simp [State.treeInMotion, busy_of_idle h]

theorem treeInMotion_run {s : State} {i : Instr} (h : s.phase = .run) (hd : decodeWord s.curCmd = .ok i) :
    s.treeInMotion = reachesBuild i s := by
  simp [State.treeInMotion, busy_of_run h, hd]

/-- A command that reaches `build_tree` is one that builds, and it has passed its checks. -/
theorem reachesBuild_spec {i : Instr} {s : State} (h : reachesBuild i s = true) :
    (i = .encode ∧ ∃ data, encodeInput s = .ok data) ∨ (i = .decode ∧ ∃ hdr, decodeInput s = .ok hdr) ∨
      (i = .treeBuild ∧ s.tree.state = .empty) := by
  cases i <;> try cases h
  · refine .inl ⟨rfl, ?_⟩
    cases hd : encodeInput s with
    | ok data => exact ⟨data, rfl⟩
    | error e => simp [reachesBuild, hd, Except.isOk, Except.toBool] at h
  · refine .inr (.inl ⟨rfl, ?_⟩)
    cases hd : decodeInput s with
    | ok hdr => exact ⟨hdr, rfl⟩
    | error e => simp [reachesBuild, hd, Except.isOk, Except.toBool] at h
  · refine .inr (.inr ⟨rfl, ?_⟩)
    cases hd : requireEmpty s with
    | ok u => exact requireEmpty_pass hd
    | error e => simp [reachesBuild, hd, Except.isOk, Except.toBool] at h

/-- A builder whose run succeeds reaches `build_tree`. -/
theorem reachesBuild_of_ok {i : Instr} {s u : State} (hi : i ∈ [Instr.encode, .decode, .treeBuild])
    (h : runOf i s = .ok u) : reachesBuild i s = true := by
  simp only [List.mem_cons, List.not_mem_nil, or_false] at hi
  rcases hi with rfl | rfl | rfl <;> obtain ⟨_, h1, _⟩ := ok_of_bind h <;>
    simp [reachesBuild, h1, Except.isOk, Except.toBool]

/-- The checks of ENCODE and DECODE pass: the arena is EMPTY and the regions are in range and apart. -/
theorem codec_checks_iff {i : Instr} {s : State} (hi : i = .encode ∨ i = .decode) :
    (requireEmpty s = .ok () ∧ checkRegions s = .ok ()) ↔ prologueError i s = none := by
  constructor
  · rintro ⟨h1, h2⟩
    obtain ⟨r1, r2, r3⟩ := checkRegions_pass h2
    rcases hi with rfl | rfl <;>
      simp [prologueError, stateError, usesSrc, usesDst, requireEmpty_pass h1, Nat.not_lt.2 r1, Nat.not_lt.2 r2, r3]
  · intro h
    by_cases he : s.tree.state = .empty
    · rcases hi with rfl | rfl <;>
        simp only [prologueError, stateError, usesSrc, usesDst, he, if_true, true_and] at h <;>
        split_ifs at h with h1 h2 h3 <;>
        exact ⟨requireEmpty_ok he, checkRegions_ok (Nat.not_lt.1 h1) (Nat.not_lt.1 h2) h3⟩
    · rcases hi with rfl | rfl <;> simp [prologueError, stateError, he] at h

/-- What a header HDR_PARSE reads without an error is. -/
theorem hdrParse_iff {s : State} {n : Nat} (hr : s.srcAddr.toNat + s.srcLen.toNat ≤ s.cfg.memSize) :
    (∃ u, exec .hdrParse s = .next u ∧ u.err = false ∧ u.dataLen.toNat ≤ n) ↔
      ∃ hdr, parseHeader s = .ok hdr ∧ hdr.dataLength ≤ n := by
  rw [exec_eq]
  simp only [runOf, runHdrParse, checkSrc_ok hr, ok_bind]
  cases hp : parseHeader s with
  | error e =>
    have hc : e.code ≠ .none := fun h => by
      rcases (parseHeader_error hp).1 with h' | h' | h' <;> rw [h] at h' <;> cases h'
    rw [error_bind, conclude_error]
    constructor
    · rintro ⟨_, h, he, _⟩
      cases h
      exact absurd (by simpa [complete] using he) hc
    · rintro ⟨_, h, _⟩
      cases h
  | ok hdr =>
    have hl := parseHeader_pass hp
    have hd : (BitVec.ofNat 32 hdr.dataLength).toNat = hdr.dataLength := by
      rw [BitVec.toNat_ofNat, Nat.mod_eq_of_lt hl]
    rw [ok_bind]
    constructor
    · rintro ⟨_, h, _, hn⟩
      cases h
      exact ⟨hdr, rfl, hd ▸ hn⟩
    · rintro ⟨_, h, hn⟩
      cases h
      exact ⟨_, rfl, rfl, hd.symm ▸ hn⟩

/-- What a run that gets as far as `build_tree` is, in terms of the state. -/
theorem reachesBuild_iff {i : Instr} {s : State} : reachesBuild i s = true ↔ s.buildsTree i := by
  constructor
  · intro h
    rcases reachesBuild_spec h with ⟨rfl, data, hd⟩ | ⟨rfl, hdr, hd⟩ | ⟨rfl, he⟩
    · obtain ⟨_, h1, hd⟩ := ok_of_bind hd
      obtain ⟨_, h2, hd⟩ := ok_of_bind hd
      exact ⟨(codec_checks_iff (.inl rfl)).1 ⟨h1, h2⟩, (readBytes_eq hd).1⟩
    · obtain ⟨_, h1, hd⟩ := ok_of_bind hd
      obtain ⟨_, h2, hd⟩ := ok_of_bind hd
      obtain ⟨_, h3, hd⟩ := ok_of_bind hd
      obtain ⟨_, h4, hd⟩ := ok_of_bind hd
      exact ⟨(codec_checks_iff (.inr rfl)).1 ⟨h1, h2⟩,
        (hdrParse_iff (checkRegions_pass h2).1).2 ⟨_, h3, checkCapacity_pass h4⟩⟩
    · exact ⟨by simp [prologueError, stateError, he, usesSrc, usesDst], trivial⟩
  · rintro ⟨hp, hb⟩
    cases i <;> first | (cases hb; done) | skip
    · obtain ⟨h1, h2⟩ := (codec_checks_iff (.inl rfl)).2 hp
      simp only [reachesBuild, encodeInput, h1, h2, ok_bind, readSrc, readBytes_ok hb]
      rfl
    · obtain ⟨h1, h2⟩ := (codec_checks_iff (.inr rfl)).2 hp
      obtain ⟨hdr, h3, h4⟩ := (hdrParse_iff (checkRegions_pass h2).1).1 hb
      simp only [reachesBuild, decodeInput, h1, h2, h3, checkCapacity_ok h4, ok_bind]
      rfl
    · by_cases he : s.tree.state = .empty
      · simp only [reachesBuild, requireEmpty_ok he]
        rfl
      · simp [prologueError, stateError, he] at hp

/-- A run that got as far as `build_tree` reports only what comes after it. -/
theorem reachesBuild_error {i : Instr} {s : State} {e : Raise} (hb : reachesBuild i s = true)
    (h : runOf i s = .error e) :
    (i = .encode ∧ (e.code = .dstOverflow ∨ e.code = .memFault)) ∨
      (i = .decode ∧ (e.code = .truncatedStream ∨ e.code = .memFault)) := by
  rcases reachesBuild_spec hb with ⟨rfl, data, hd⟩ | ⟨rfl, hdr, hd⟩ | ⟨rfl, he⟩
  · refine .inl ⟨rfl, ?_⟩
    simp only [runOf, runEncode, hd, ok_bind] at h
    refine error_of_bind h (fun h => .inl (checkCapacity_error h).1) fun _ h => ?_
    exact error_of_bind h (fun h => .inr (writeDst_code h)) fun _ h => by cases h
  · refine .inr ⟨rfl, ?_⟩
    simp only [runOf, runDecode, hd, ok_bind] at h
    refine error_of_bind h (fun h => ?_) fun _ h => by cases h
    rcases decodeBody_touches _ _ _ _ _ _ _ _ _ with ⟨_, h', _⟩ | ⟨_, h', hc, _⟩ <;> rw [h'] at h <;> cases h
    exact hc
  · simp only [runOf, runTreeBuild, requireEmpty_ok he, ok_bind] at h
    cases h

@[simp] theorem BuildStage.ofRank_rank (b : BuildStage) : BuildStage.ofRank b.rank = b := by cases b <;> rfl

theorem BuildStage.rank_le (b : BuildStage) : b.rank ≤ 4 := by cases b <;> decide

theorem BuildStage.rank_ofRank {n : Nat} (h : n ≤ 4) : (BuildStage.ofRank n).rank = n := by
  match n, h with
  | 0, _ | 1, _ | 2, _ | 3, _ | 4, _ => rfl

theorem mem_buildOrder (b : BuildStage) (n : Nat) : (b, n) ∈ buildOrder ↔ n = b.rank := by
  cases b <;> simp [buildOrder, BuildStage.rank]

/-- TREE_STATE of a stage, by its place in the order. -/
theorem BuildStage.shows_code (b : BuildStage) :
    b.shows.code = BitVec.ofNat 2 (if b.rank = 4 then 0 else b.rank) := by cases b <;> rfl

theorem stageNow_still {s : State} (h : s.treeInMotion = false) : s.stageNow = s.buildStage := by
  unfold State.stageNow
  split
  · rw [if_neg (by simp [h])]
  · rfl

/-- While a tree is built the stage STATUS shows is not before that of an earlier read and not past the command's last
(42_tree.md R200). -/
theorem stageNow_rank {s : State} {i : Instr} (hd : decodeWord s.curCmd = .ok i) :
    s.buildStage.rank ≤ s.stageNow.rank ∧
      (s.buildStage.rank ≤ (lastStage i).rank → s.stageNow.rank ≤ (lastStage i).rank) := by
  have h1 := s.buildStage.rank_le
  have h2 := (lastStage i).rank_le
  unfold State.stageNow
  rw [hd]
  dsimp only
  split
  · rw [BuildStage.rank_ofRank (by omega)]
    omega
  · exact ⟨le_refl _, id⟩

/-- A read of STATUS never takes the stage back. -/
theorem rank_le_stageNow (s : State) : s.buildStage.rank ≤ s.stageNow.rank := by
  cases hd : decodeWord s.curCmd with
  | ok i => exact (stageNow_rank hd).1
  | error e =>
    unfold State.stageNow
    rw [hd]

/-- A read of any register but STATUS, or of STATUS while no tree is built. -/
theorem hostReadReg_still {s : State} {r : PortReg} (h : r ≠ .status ∨ s.treeInMotion = false)
    (hd : s.readDraws r = false) : hostReadReg s r = { s with busData := s.readReg r } := by
  unfold hostReadReg
  rw [hd]
  rcases h with h | h
  · rw [if_neg h]
    rfl
  · rw [stageNow_still h, ite_self]
    rfl

/-! ### Reset -/

/-- What a reset leaves: the reset values, the platform and the host's side as they were, and shared memory as it was
or, where the command in flight may have written, with free values in its DST. -/
theorem assertReset_spec (s : State) : ∃ m d,
    assertReset s = { State.reset with cfg := s.cfg, mem := m, agenda := s.agenda, busData := s.busData, draws := d } ∧
      (s.phase = .idle → m = s.mem) ∧
      (m = s.mem ∨ (s.mayHaveWritten = true ∧ m = s.mem.havoc s.dstAddr.toNat s.dstCap.toNat s.draws)) := by
  unfold assertReset
  split
  · rename_i h
    refine ⟨_, _, rfl, fun hp => ?_, .inr ⟨h, rfl⟩⟩
    simp [State.mayHaveWritten, busy_of_idle hp] at h
  · exact ⟨s.mem, s.draws, rfl, fun _ => rfl, .inl rfl⟩

/-- A command that may have written writes DST, which is in range, and its SRC lies apart from it. -/
theorem mayHaveWritten_spec {s : State} (h : s.mayHaveWritten = true) : ∃ i, decodeWord s.curCmd = .ok i ∧
    usesDst i = true ∧ s.dstInRange = true ∧ (usesSrc i = true → s.regionsOverlap = false) := by
  unfold State.mayHaveWritten at h
  rw [Bool.and_eq_true] at h
  cases hd : decodeWord s.curCmd with
  | error e =>
    rw [hd] at h
    exact absurd h.2 Bool.false_ne_true
  | ok i =>
    rw [hd] at h
    simp only [Bool.and_eq_true] at h
    obtain ⟨_, ⟨⟨h1, h2⟩, h3⟩, _⟩ := h
    refine ⟨i, rfl, h1, h2, fun hu => ?_⟩
    rw [hu] at h3
    simp only [Bool.not_true, Bool.false_or, Bool.and_eq_true, Bool.not_eq_true'] at h3
    exact h3.2

/-! ### Host writes -/

/-- A host write other than a reset leaves the codes, the tree, shared memory and the platform as they are. -/
structure Kept (s t : State) : Prop where
  codesValid : t.codesValid = s.codesValid
  codeLen : t.codeLen = s.codeLen
  codeBits : t.codeBits = s.codeBits
  tree : t.tree = s.tree
  mem : t.mem = s.mem
  cfg : t.cfg = s.cfg

/-- A host write resets the engine, or keeps these. -/
theorem hostWriteReg_cases (s : State) (r : PortReg) (v : Word) :
    (r = .ctrl ∧ v.getLsbD 1 = true ∧ hostWriteReg s r v = assertReset s) ∨ Kept s (hostWriteReg s r v) := by
  by_cases hc : r = .ctrl ∧ v.getLsbD 1 = true
  · left
    refine ⟨hc.1, hc.2, ?_⟩
    rw [hc.1]
    unfold hostWriteReg
    split <;> simp only [writeIdle, writeBusy, writeCtrl, hc.2, if_true]
  · right
    have hctrl : r = .ctrl → Kept s (writeCtrl s v) := fun hr => by
      have hv : v.getLsbD 1 = false := by simpa [hr] using hc
      unfold writeCtrl
      rw [hv]
      exact ⟨rfl, rfl, rfl, rfl, rfl, rfl⟩
    have hirq : Kept s (writeIrqStatus s v) := by
      unfold writeIrqStatus
      split <;> exact ⟨rfl, rfl, rfl, rfl, rfl, rfl⟩
    have hcmd : Kept s (accept v s) := by
      cases hd : decodeWord v with
      | ok i => rw [accept_ok hd]; exact ⟨rfl, rfl, rfl, rfl, rfl, rfl⟩
      | error e => rw [accept_error hd]; exact ⟨rfl, rfl, rfl, rfl, rfl, rfl⟩
    unfold hostWriteReg
    split <;> cases r <;> first
      | exact ⟨rfl, rfl, rfl, rfl, rfl, rfl⟩
      | exact hctrl rfl
      | exact hirq
      | exact hcmd

/-! ### Accesses to shared memory -/

/-- While a command runs, the bytes in use are those of the regions it uses. -/
theorem regionInUse_run {s : State} {i : Instr} (h : s.phase = .run) (hd : decodeWord s.curCmd = .ok i) (a : Nat) :
    s.regionInUse a = s.usesByte i a := by
  simp [State.regionInUse, busy_of_run h, hd]

theorem regionInUse_idle {s : State} (h : s.phase = .idle) (a : Nat) : s.regionInUse a = false := by
  simp [State.regionInUse, busy_of_idle h]

/-- Outside SRC and DST no byte is in use, whatever the latch holds. -/
theorem regionInUse_outside {s : State} {a : Nat} (h1 : s.inSrc a = false) (h2 : s.inDst a = false) :
    s.regionInUse a = false := by
  unfold State.regionInUse
  cases decodeWord s.curCmd <;> simp [State.usesByte, h1, h2]

/-- An access that takes place is one to a byte of memory that is no device and in no region in use. -/
theorem hostMemAccess_next {s t u : State} {a : Nat} (h : hostMemAccess s a t = .next u) :
    u = t ∧ a < s.cfg.memSize ∧ s.regionInUse a = false := by
  unfold hostMemAccess at h
  split at h
  · cases h
  · split at h
    · cases h
    · split at h
      · cases h
      · cases h
        exact ⟨rfl, not_not.1 ‹_›, by simpa using ‹¬ s.regionInUse a = true›⟩

/-- On a platform without devices an access to a byte of memory is refused where the byte is in use, and takes place
elsewhere. -/
theorem hostMemAccess_plain {s : State} {a : Nat} (h : a < s.cfg.memSize) (hd : s.cfg.devices = []) (t : State) :
    hostMemAccess s a t = if s.regionInUse a then .refused (.regionInUse a) else .next t := by
  simp [hostMemAccess, h, hd]

/-! ### A step -/

/-- Everything a step that answers a next state can have done. -/
inductive StepCase (s t : State) : Prop where
  /-- The engine had its turn. -/
  | engine (rest : List HostOp) (h : engineTurn { s with agenda := rest } = .next t)
  /-- The host read a register. -/
  | portRead (r : PortReg) (rest : List HostOp) (h : t = hostReadReg { s with agenda := rest } r)
  /-- The host wrote a register. -/
  | portWrite (off : Nat) (v : Word) (rest : List HostOp)
      (ha : s.agenda = .portWrite (s.cfg.csrBase + off) 4 v :: rest)
      (h : t = hostWriteReg { s with agenda := rest } (portReg off) v)
  /-- The host or another agent read a byte of shared memory. -/
  | memRead (a : Nat) (rest : List HostOp)
      (h : t = { s with agenda := rest, busData := (s.mem.read a).setWidth 32 })
  /-- The host or another agent wrote a byte of shared memory. -/
  | memWrite (a : Nat) (v : Byte) (rest : List HostOp) (ha : a < s.cfg.memSize)
      (h : t = { s with agenda := rest, mem := s.mem.write a v })
  /-- The `rst` input was asserted. -/
  | rst (rest : List HostOp) (ha : s.agenda = .rst :: rest) (h : t = assertReset { s with agenda := rest })

theorem step_cases {s t : State} (h : step s = .next t) : StepCase s t := by
  unfold step at h
  split at h
  · exact .engine s.agenda h
  · rename_i rest _
    exact .engine rest h
  · rename_i addr size rest ha
    unfold Machine.portRead at h
    split at h
    · cases h
    · split at h
      · cases h
      · cases h
        exact .portRead _ rest rfl
  · rename_i addr size v rest ha
    unfold Machine.portWrite at h
    split at h
    · cases h
    · rename_i hin
      split at h
      · cases h
      · rename_i hdef
        cases h
        have hin' : s.cfg.csrBase ≤ addr := by
          simp [Config.inPort] at hin
          exact hin.1
        have hdef' : size = 4 := by
          simp [Config.portAccessDefined] at hdef
          exact hdef.1
        subst hdef'
        exact .portWrite (addr - s.cfg.csrBase) v rest (by rw [ha]; congr 2; omega) rfl
  · rename_i a rest ha
    exact .memRead a rest (hostMemAccess_next h).1
  · rename_i a v rest ha
    obtain ⟨h1, h2, _⟩ := hostMemAccess_next h
    exact .memWrite a v rest h2 h1
  · rename_i rest ha
    cases h
    exact .rst rest ha rfl

end Sys2Proof.Machine
end

