-- ==== Sys2Proof/Laws/PerInstr.lean ====
section
/-! SUPPORT. The family `Encoding`, one lemma per command: the command is well formed, its row stands in the opcode map,
and its word decodes to it (30_encoding.md R112). -/

namespace Sys2Proof.Laws.Encoding

/-- The command is well formed, the opcode map holds the row of its word, and the decoder reads that word as it. -/
def Statement (i : Instr) : Prop :=
  i.wellFormed = true ∧ wholeWord (Sys2Proof.encode i) i ∈ opcodeMap ∧ decodeWord (Sys2Proof.encode i) = .ok i

theorem encode : Statement .encode := by unfold Statement; decide
theorem decode : Statement .decode := by unfold Statement; decide
theorem bitsPack : Statement .bitsPack := by unfold Statement; decide
theorem bitsUnpack : Statement .bitsUnpack := by unfold Statement; decide
theorem freqBuild : Statement .freqBuild := by unfold Statement; decide
theorem freqCompress : Statement .freqCompress := by unfold Statement; decide
theorem freqDecompress : Statement .freqDecompress := by unfold Statement; decide
theorem hdrWrite : Statement .hdrWrite := by unfold Statement; decide
theorem hdrParse : Statement .hdrParse := by unfold Statement; decide
theorem treeBuild : Statement .treeBuild := by unfold Statement; decide
theorem codesDerive : Statement .codesDerive := by unfold Statement; decide
theorem treeDestroy : Statement .treeDestroy := by unfold Statement; decide
theorem decodeOne : Statement .decodeOne := by unfold Statement; decide
theorem bodyEncode : Statement .bodyEncode := by unfold Statement; decide
theorem bodyDecode : Statement .bodyDecode := by unfold Statement; decide

end Sys2Proof.Laws.Encoding
end

