-- ==== Sys2Proof/Tests/Slice0.lean ====
section
/-! SUPPORT. The model's own tests, their expected results from spec/95_test_vectors.md or worked by hand from the rule
each names, and for every obligation with hypotheses a concrete state and operands that meet them. -/

namespace Sys2Proof.Machine

set_option Elab.async false

/-! ### Decoding: the words of 30_encoding.md R112, written out bit by bit -/

theorem test_decode_codec :
    decodeWord 0b00000000000000000000000000000001#32 = .ok .encode ∧
    decodeWord 0b00000000000000000000000000000010#32 = .ok .decode ∧
    decodeWord 0b00000000000000000000000001000000#32 = .ok .bodyEncode ∧
    decodeWord 0b00000000000000000000000001000001#32 = .ok .bodyDecode := by decide

theorem test_decode_bitPacker :
    decodeWord 0b00000000000000000000000000010000#32 = .ok .bitsPack ∧
    decodeWord 0b00000000000000000000000000010001#32 = .ok .bitsUnpack := by decide

theorem test_decode_frequency :
    decodeWord 0b00000000000000000000000000100000#32 = .ok .freqBuild ∧
    decodeWord 0b00000000000000000000000000100001#32 = .ok .freqCompress ∧
    decodeWord 0b00000000000000000000000000100010#32 = .ok .freqDecompress ∧
    decodeWord 0b00000000000000000000000000100011#32 = .ok .hdrWrite ∧
    decodeWord 0b00000000000000000000000000100100#32 = .ok .hdrParse := by decide

theorem test_decode_tree :
    decodeWord 0b00000000000000000000000000110000#32 = .ok .treeBuild ∧
    decodeWord 0b00000000000000000000000000110001#32 = .ok .codesDerive ∧
    decodeWord 0b00000000000000000000000000110010#32 = .ok .treeDestroy ∧
    decodeWord 0b00000000000000000000000000110011#32 = .ok .decodeOne := by decide

/-- T-ENC-1 to T-ENC-4: words that are no command's. -/
theorem test_decode_rejects :
    decodeWord 0x00000000#32 = .error (.notACommand 0x00000000#32) ∧
    decodeWord 0x00000003#32 = .error (.notACommand 0x00000003#32) ∧
    decodeWord 0x00000130#32 = .error (.notACommand 0x00000130#32) ∧
    decodeWord 0xFFFFFFFF#32 = .error (.notACommand 0xFFFFFFFF#32) := by decide

/-- The control port is little-endian (20_memory.md R84), and three bytes are no command word. -/
theorem test_decode_bytes :
    decodeBytes [0x33#8, 0x00#8, 0x00#8, 0x00#8, 0xAA#8] = .ok (.decodeOne, [0xAA#8]) ∧
    decodeBytes [0x00#8, 0x00#8, 0x00#8, 0x33#8] = .error (.notACommand 0x33000000#32) ∧
    decodeBytes [0x33#8, 0x00#8, 0x00#8] = .error .tooShort := by decide

theorem test_decode_table_word :
    decodeTableWord 32 0x30 = some .treeBuild ∧ decodeTableWord 8 0x30 = some .treeBuild ∧
    decodeTableWord 32 0x34 = none := by decide

/-- No two rows of the opcode map select one word. -/
theorem test_opcode_map_no_overlap : opcodeMap.Pairwise (fun r q => r.pattern ≠ q.pattern) := by decide

/-! ### Well-formedness -/

/-- A platform without memory and one with more than 2^32 bytes are ill formed (00_scope.md R13). -/
theorem test_wellFormed_memSize :
    Config.wellFormed { Config.default with memSize := 0 } = false ∧
    Config.wellFormed { Config.default with memSize := 2 ^ 32 + 1 } = false ∧
    Config.wellFormed { Config.default with memSize := 2 ^ 32 } = true := by decide

/-- A bus error or a device beyond the 32-bit address space is ill formed (20_memory.md R80). -/
theorem test_wellFormed_addresses :
    Config.wellFormed { Config.default with memFaults := [(2 ^ 32, .read)] } = false ∧
    Config.wellFormed { Config.default with devices := [2 ^ 32] } = false := by decide

/-- A halfword and an unaligned word access of the control port are not defined (20_memory.md R87), and an address
16 KiB above CSR_BASE is outside it (R81). -/
theorem test_wellFormed_portAccess :
    Config.portAccessDefined Config.default 0x18 2 = false ∧
    Config.portAccessDefined Config.default 0x1A 4 = false ∧
    Config.portAccessDefined Config.default 0x18 4 = true ∧
    Config.inPort { Config.default with csrBase := 0x1000 } 0x5000 = false ∧
    Config.inPort { Config.default with csrBase := 0x1000 } 0xFFF = false ∧
    Config.inPort { Config.default with csrBase := 0x1000 } 0x4FFC = true := by decide

/-- Every command is well formed: it has no operand (30_encoding.md R111). -/
theorem test_wellFormed_commands (i : Instr) : i.wellFormed = true := by cases i <;> rfl

/-! ### Helpers: small states -/

/-- Bytes in memory from an address on. -/
def holding : (a : Nat) → List Byte → Memory
  | _, [] => []
  | a, b :: bs => (holding (a + 1) bs).write a b

/-- The state from reset with the two regions set, memory as given and BITS_PACK in flight. -/
def probe (src len dst cap : Nat) (mem : Memory) : State :=
  { State.reset with
    mem := mem
    phase := .run
    curCmd := 0x10#32
    srcAddr := BitVec.ofNat 32 src
    srcLen := BitVec.ofNat 32 len
    dstAddr := BitVec.ofNat 32 dst
    dstCap := BitVec.ofNat 32 cap }

/-- The state after a command. -/
def after (i : Instr) (s : State) : State :=
  match exec i s with
  | .next t => t
  | _ => s

theorem exec_after (i : Instr) (s : State) : exec i s = .next (after i s) := by
  rcases exec_cases i s with ⟨t, _, _, h⟩ | ⟨e, _, _, h⟩ <;> rw [after, h]

/-- The state after a step. -/
def stepped (s : State) : State :=
  match step s with
  | .next t => t
  | _ => s

/-- The code and information word a command completed with. -/
def State.report (s : State) : ErrCode × Word := (s.errCode, s.errInfo)

/-- The bytes of memory from an address on. -/
def State.bytes (s : State) (a n : Nat) : List Byte := (List.range n).map (fun i => s.mem.read (a + i))

/-- A three-leaf tree: from the root, `0` is 0x41, `10` is 0x42 and `11` is 0x43. -/
def smallTree : Tree :=
  { Tree.unbuilt with
    state := .rooted
    root := 510
    arena := ((((Tree.unbuilt.arena.set 510
        { valid := true, kind := .internal 0x41 509, freq := 4#40, id := 510, parent := none }).set 509
        { valid := true, kind := .internal 0x42 0x43, freq := 2#40, id := 509, parent := some 510 }).set 0x41
        { valid := true, kind := .leaf 0x41#8, freq := 2#40, id := 0x41, parent := some 510 }).set 0x42
        { valid := true, kind := .leaf 0x42#8, freq := 1#40, id := 0x42, parent := some 509 }).set 0x43
        { valid := true, kind := .leaf 0x43#8, freq := 1#40, id := 0x43, parent := some 509 } }

/-- A probe with the small tree. -/
def rooted (src len dst cap : Nat) (mem : Memory) : State := { probe src len dst cap mem with tree := smallTree }

/-- "ABRACADABRA". -/
def abracadabra : List Byte :=
  [0x41#8, 0x42#8, 0x52#8, 0x41#8, 0x43#8, 0x41#8, 0x44#8, 0x41#8, 0x42#8, 0x52#8, 0x41#8]

/-! ### Memory -/

theorem test_memory_write :
    Memory.write [(1, 5#8), (3, 7#8)] 2 9#8 = [(1, 5#8), (2, 9#8), (3, 7#8)] ∧
    Memory.write [(1, 5#8), (3, 7#8)] 3 0#8 = [(1, 5#8)] ∧ Memory.write [(1, 5#8)] 1 6#8 = [(1, 6#8)] := by decide

/-! ### BITS_PACK, BITS_UNPACK -/

/-- T-PACK-3: a nonzero byte is bit 1. -/
theorem test_bitsPack :
    let t := after .bitsPack (probe 0x100 8 0x200 1
      (holding 0x100 [0x01#8, 0xFF#8, 0x00#8, 0x02#8, 0x00#8, 0x00#8, 0x00#8, 0x80#8]))
    t.report = (.none, 0#32) ∧ t.bytes 0x200 1 = [0x8B#8] ∧ t.resultLen = 1#32 ∧ t.bitCount = 8#40 := by decide

/-- T-PACK-5: nine bits need two bytes. -/
theorem test_bitsPack_overflow :
    let t := after .bitsPack (probe 0x100 9 0x200 1 (holding 0x100 (List.replicate 9 0x01#8)))
    t.report = (.dstOverflow, 2#32) ∧ t.bytes 0x200 1 = [0x00#8] ∧ t.resultLen = 0#32 := by decide

/-- T-PACK-6. -/
theorem test_bitsUnpack :
    let t := after .bitsUnpack (probe 0x100 1 0x200 8 (holding 0x100 [0x82#8]))
    t.report = (.none, 0#32) ∧ t.bytes 0x200 8 = [0x00#8, 0x01#8, 0x00#8, 0x00#8, 0x00#8, 0x00#8, 0x00#8, 0x01#8] ∧
      t.resultLen = 8#32 ∧ t.bitCount = 8#40 := by decide

/-- T-PACK-8. -/
theorem test_bitsUnpack_overflow :
    (after .bitsUnpack (probe 0x100 2 0x200 15 (holding 0x100 [0xA5#8, 0x0F#8]))).report = (.dstOverflow, 16#32) := by
  decide

/-! ### FREQ_BUILD, FREQ_COMPRESS, FREQ_DECOMPRESS, HDR_WRITE, HDR_PARSE -/

/-- T-FREQ-1. -/
theorem test_freqBuild :
    let t := after .freqBuild (probe 0x100 11 0x200 0 (holding 0x100 abracadabra))
    t.report = (.none, 0#32) ∧ t.freq[0x41] = 5#32 ∧ t.freq[0x42] = 2#32 ∧ t.freq[0x43] = 1#32 ∧
      t.freq[0x44] = 1#32 ∧ t.freq[0x52] = 2#32 ∧ t.freq[0x45] = 0#32 ∧ t.dataLen = 11#32 := by decide +kernel

/-- T-FREQ-30. -/
theorem test_freqBuild_bounds : (after .freqBuild (probe 0xFFF0 0x20 0 0 [])).report = (.bounds, 0#32) := by
  decide +kernel

/-- T-FREQ-3: 254 is BYTE, 255 and 65534 are SHORT, 65535 is INT. -/
theorem test_freqCompress :
    let t := after .freqCompress { probe 0 0 0x200 64 [] with
      freq := (((zeroTable.set 0 254#32).set 1 255#32).set 2 65534#32).set 3 65535#32 }
    t.report = (.none, 0#32) ∧ t.resultLen = 25#32 ∧ t.bytes 0x200 25 =
      [0x01#8, 0x00#8, 0x00#8, 0x00#8, 0x00#8, 0xFE#8, 0x02#8, 0x00#8, 0x00#8, 0x00#8, 0x01#8, 0xFF#8, 0x00#8, 0x02#8,
        0xFE#8, 0xFF#8, 0x01#8, 0x00#8, 0x00#8, 0x00#8, 0x03#8, 0xFF#8, 0xFF#8, 0x00#8, 0x00#8] := by decide +kernel

/-- T-FREQ-26: the last entry of a symbol wins. -/
theorem test_freqDecompress :
    let t := after .freqDecompress (probe 0x100 16 0 0
      (holding 0x100 [0x02#8, 0x00#8, 0x00#8, 0x00#8, 0x41#8, 0x05#8, 0x41#8, 0x07#8]))
    t.report = (.none, 0#32) ∧ t.freq[0x41] = 7#32 ∧ t.freq[0x40] = 0#32 := by decide +kernel

/-- T-FREQ-10: one entry promised, one byte left. -/
theorem test_freqDecompress_offset :
    (after .freqDecompress (probe 0x100 5 0 0 (holding 0x100 [0x01#8, 0x00#8, 0x00#8, 0x00#8, 0x41#8]))).report =
      (.invalidFrequencyData, 4#32) := by decide +kernel

/-- T-FREQ-16: one entry in each bucket. -/
theorem test_hdrWrite :
    let t := after .hdrWrite { probe 0 0 0x200 64 [] with
      freq := ((zeroTable.set 0x20 300#32).set 0x41 70000#32).set 0x7F 1#32, dataLen := 70301#32 }
    t.report = (.none, 0#32) ∧ t.hdrLen = 30#32 ∧ t.resultLen = 30#32 ∧ t.bytes 0x200 30 =
      [0x1E#8, 0x00#8, 0x00#8, 0x00#8, 0x9D#8, 0x12#8, 0x01#8, 0x00#8, 0x01#8, 0x00#8, 0x00#8, 0x00#8, 0x7F#8, 0x01#8,
        0x01#8, 0x00#8, 0x00#8, 0x00#8, 0x20#8, 0x2C#8, 0x01#8, 0x01#8, 0x00#8, 0x00#8, 0x00#8, 0x41#8, 0x70#8, 0x11#8,
        0x01#8, 0x00#8] := by decide +kernel

/-- T-FREQ-14. -/
theorem test_hdrWrite_overflow : (after .hdrWrite (probe 0 0 0x200 19 [])).report = (.dstOverflow, 20#32) := by
  decide +kernel

/-- T-FREQ-18. -/
theorem test_hdrParse :
    let t := after .hdrParse (probe 0x100 23 0 0 (holding 0x100
      [0x17#8, 0x00#8, 0x00#8, 0x00#8, 0xE8#8, 0x03#8, 0x00#8, 0x00#8, 0x00#8, 0x00#8, 0x00#8, 0x00#8, 0x01#8, 0x00#8,
        0x00#8, 0x00#8, 0x41#8, 0xE8#8, 0x03#8]))
    t.report = (.none, 0#32) ∧ t.freq[0x41] = 1000#32 ∧ t.freq[0x42] = 0#32 ∧ t.dataLen = 1000#32 ∧
      t.hdrLen = 23#32 := by decide +kernel

/-- T-FREQ-23: the third bucket count does not fit. -/
theorem test_hdrParse_offset :
    (after .hdrParse (probe 0x100 16 0 0 (holding 0x100 [0x10#8]))).report = (.invalidFrequencyData, 16#32) := by
  decide +kernel

/-! ### TREE_BUILD, CODES_DERIVE, TREE_DESTROY, DECODE_ONE -/

/-- 42_tree.md R202 by hand: of members with equal frequency the lower node is the left child, and the new node goes
behind an old one of its frequency. -/
theorem test_merge :
    let t := Tree.merge { Tree.unbuilt with
      pq := [{ freq := 1#40, node := 5 }, { freq := 1#40, node := 7 }, { freq := 2#40, node := 3 }], nextId := 300 }
    t.pq = [{ freq := 2#40, node := 3 }, { freq := 2#40, node := 300 }] ∧ t.nextId = 301 ∧
      t.arena[300].kind = .internal 5 7 ∧ t.arena[300].freq = 2#40 ∧ t.arena[5].parent = some 300 ∧
      t.arena[7].parent = some 300 := by decide +kernel

/-- 60_exceptions.md R283: TREE_BUILD needs an EMPTY arena. -/
theorem test_treeBuild_state : (after .treeBuild (rooted 0 0 0 0 [])).report = (.state, 1#32) := by decide +kernel

/-- 42_tree.md R207 by hand, on the small tree: bit 0 of CODE_BITS is the first bit from the root. -/
theorem test_codesDerive :
    let t := after .codesDerive (rooted 0 0 0 0 [])
    t.codesValid = true ∧ t.codeLen[0x41] = 1#8 ∧ t.codeBits[0x41] = 0#256 ∧ t.codeLen[0x42] = 2#8 ∧
      t.codeBits[0x42] = 1#256 ∧ t.codeBits[0x43] = 3#256 := by decide +kernel

/-- 42_tree.md R212. -/
theorem test_treeDestroy :
    let t := after .treeDestroy (rooted 0 0 0 0 [])
    t.report = (.none, 0#32) ∧ t.tree.state = .empty ∧ t.tree.arena[510].valid = false := by decide +kernel

/-- 60_exceptions.md R283. -/
theorem test_treeDestroy_state : (after .treeDestroy (probe 0 0 0 0 [])).report = (.state, 2#32) := by decide +kernel

/-- 42_tree.md R209 by hand: the stream 0xAC is 0 0 1 1 0 1 0 1 from bit 0, and `11` from bit 2 is 0x43. -/
theorem test_decodeOne :
    let t := after .decodeOne { rooted 0x100 1 0 0 (holding 0x100 [0xAC#8]) with bitCursor := 2#35 }
    t.report = (.none, 0#32) ∧ t.symbol = 0x43#8 ∧ t.bitCursor = 4#35 := by decide +kernel

/-- 42_tree.md R209 by hand: bit 7 of 0xAC is 1, and the stream ends inside the tree. -/
theorem test_decodeOne_truncated :
    let t := after .decodeOne { rooted 0x100 1 0 0 (holding 0x100 [0xAC#8]) with bitCursor := 7#35 }
    t.report = (.truncatedStream, 0#32) ∧ t.bitCursor = 7#35 := by decide +kernel

/-! ### BODY_ENCODE, BODY_DECODE, ENCODE, DECODE -/

/-- T-CODEC-26: the code of 0x43 is `1011`. -/
theorem test_bodyEncode :
    let s := probe 0x100 1 0x200 1 (holding 0x100 [0x43#8])
    let t := after .bodyEncode { s with
      codesValid := true, codeLen := s.codeLen.set 0x43 4#8, codeBits := s.codeBits.set 0x43 0xD#256 }
    t.report = (.none, 0#32) ∧ t.bytes 0x200 1 = [0x0D#8] ∧ t.bitCount = 4#40 ∧ t.resultLen = 1#32 := by decide +kernel

/-- T-CODEC-23. -/
theorem test_bodyEncode_state : (after .bodyEncode (probe 0 0 0 0 [])).report = (.state, 3#32) := by decide +kernel

/-- 43_codec.md R241 by hand: 0xAC is `0`, `0`, `11`, `0`, `10`, and a `1` that reaches no leaf. -/
theorem test_bodyDecode :
    let t := after .bodyDecode { rooted 0x100 1 0x200 8 (holding 0x100 [0xAC#8]) with dataLen := 5#32 }
    t.report = (.none, 0#32) ∧ t.bytes 0x200 6 = [0x41#8, 0x41#8, 0x43#8, 0x41#8, 0x42#8, 0x00#8] ∧
      t.bitCursor = 7#35 ∧ t.resultLen = 5#32 := by decide +kernel

/-- 60_exceptions.md R289 by hand, on the same stream: the sixth symbol is truncated and five stay written. -/
theorem test_bodyDecode_truncated :
    let t := after .bodyDecode { rooted 0x100 1 0x200 8 (holding 0x100 [0xAC#8]) with dataLen := 6#32 }
    t.report = (.truncatedStream, 5#32) ∧ t.bytes 0x200 6 = [0x41#8, 0x41#8, 0x43#8, 0x41#8, 0x42#8, 0x00#8] ∧
      t.resultLen = 0#32 ∧ t.bitCursor = 0#35 := by decide +kernel

/-- T-EXC-1: STATE before BOUNDS, and the tree stays. -/
theorem test_encode_state :
    let t := after .encode (rooted 0xFFFF 2 0 0 [])
    t.report = (.state, 1#32) ∧ t.tree.state = .rooted := by decide +kernel

/-- T-CODEC-22. -/
theorem test_decode_header :
    let t := after .decode (probe 0x100 8 0x200 8 (holding 0x100 [0x07#8]))
    t.report = (.malformedHeader, 1#32) ∧ t.tree.state = .empty := by decide +kernel

/-- T-EXC-2: BOUNDS before OVERLAP. -/
theorem test_decode_bounds : (after .decode (probe 0xFFFF 2 0xFFFF 1 [])).report = (.bounds, 0#32) := by decide +kernel

/-! ### Steps -/

/-- T-ENC-2 and the STATUS word after it, as T-ENC-1 gives it: the word completes in the step of its acceptance
(30_encoding.md R118), so the write behind it lands. -/
theorem test_step_illegal :
    let t := stepped { State.reset with agenda := [.portWrite 0x014 4 3#32, .portWrite 0x018 4 5#32] }
    t.report = (.illegalCmd, 3#32) ∧ t.statusWord = 0x00000106#32 ∧ (stepped t).srcAddr = 5#32 ∧
      (stepped t).wrIgnored = false := by decide +kernel

/-- 42_tree.md R200 and 70_reset_and_hazards.md R331 by hand: while ENCODE runs that fails its BOUNDS check, and while
DECODE runs whose header is malformed, no tree is built and STATUS reads BUSY alone. -/
theorem test_status_noBuild :
    ({ probe 0xFFFF 2 0x200 8 [] with curCmd := 0x1#32 } : State).statusWord = 0x00000001#32 ∧
    ({ probe 0x100 8 0x200 8 (holding 0x100 [0x07#8]) with curCmd := 0x2#32 } : State).statusWord = 0x00000001#32 := by
  decide +kernel

/-- 42_tree.md R200: once STATUS has shown TREE_BUILD's tree ROOTED it shows nothing else. -/
theorem test_status_rooted :
    ({ probe 0 0 0 0 [] with curCmd := 0x30#32, buildStage := .rooted } : State).stageNow = .rooted := by
  have h := stageNow_rank (s := { probe 0 0 0 0 [] with curCmd := 0x30#32, buildStage := .rooted })
    (i := .treeBuild) (by decide)
  have h1 : BuildStage.rank _ = 3 := Nat.le_antisymm (h.2 (by decide)) h.1
  rw [← BuildStage.ofRank_rank (State.stageNow _), h1]
  rfl

/-- T-EXC-3: an interrupt after a completion, cleared by writing 1. -/
theorem test_step_irq :
    let t := stepped { State.reset.withFetchWord 32 0x00000032 with irqEn := true }
    t.irq = true ∧ (stepped { t with agenda := [.portWrite 0x010 4 1#32] }).irq = false := by decide +kernel

/-- T-EXC-7: a write to SRC_ADDR during a command is dropped and flagged. -/
theorem test_step_writeBusy :
    let t := stepped { probe 0x100 0 0 0 [] with agenda := [.portWrite 0x018 4 5#32] }
    t.srcAddr = 0x100#32 ∧ t.wrIgnored = true ∧ t.cmdDropped = false := by decide +kernel

/-- T-RST-3: CTRL written with 3 resets, and IRQ_EN is 0 afterwards. -/
theorem test_step_softReset :
    let t := stepped { State.reset with
      irqEn := true, srcAddr := 5#32, phase := .run, agenda := [.portWrite 0x008 4 3#32] }
    t.irqEn = false ∧ t.srcAddr = 0#32 ∧ t.phase = .idle ∧ t.done = false := by decide +kernel

/-! ### Witnesses: for each obligation with hypotheses, states and operands that meet them -/

/-- Bytes put into memory stand there. -/
theorem holding_holds (a : Nat) (bs : List Byte) : HoldsAt (holding a bs) a bs := by
  induction bs generalizing a with
  | nil => intro i hi; simp at hi
  | cons b bs ih =>
    intro i hi
    cases i with
    | zero => exact Memory.read_write_same _ _ _
    | succ i =>
      have h := ih (a + 1) i (by simpa using hi)
      rw [holding, Memory.read_write_other _ _ (by omega), show a + (i + 1) = a + 1 + i by omega, h]
      rfl

/-- A probe whose SRC holds the bytes. -/
theorem probe_srcBytes {a dst cap : Nat} {bs : List Byte} (ha : a < 2 ^ 32) (hl : bs.length < 2 ^ 32) :
    (probe a bs.length dst cap (holding a bs)).srcBytes = bs := by
  have h1 : (probe a bs.length dst cap (holding a bs)).srcLen.toNat = bs.length := by simpa [probe] using hl
  have h2 : (probe a bs.length dst cap (holding a bs)).srcAddr.toNat = a := by simpa [probe] using ha
  apply List.ext_getElem
  · rw [srcBytes_length, h1]
  · intro i h3 h4
    simp only [State.srcBytes, List.getElem_map, List.getElem_range, h2]
    exact holding_holds a bs i h4

/-- On the default platform no access is rejected. -/
theorem noFault_default (kind : AccessKind) (lo n : Nat) : NoFault Config.default kind lo n := by
  intro a _ _ h; simp [Config.default] at h

/-- On the default platform a probe whose SRC ends inside memory can be read. -/
theorem srcReady_of {s : State} (hc : s.cfg = Config.default) (h : s.srcAddr.toNat + s.srcLen.toNat ≤ 0x10000) :
    s.srcReady := ⟨by rw [hc]; exact h, by rw [hc]; exact noFault_default _ _ _⟩

/-- On the default platform a probe whose DST ends inside memory and has room can be written. -/
theorem dstReady_of {s : State} {n : Nat} (hc : s.cfg = Config.default)
    (h : s.dstAddr.toNat + s.dstCap.toNat ≤ 0x10000) (hn : n ≤ s.dstCap.toNat) : s.dstReady n :=
  ⟨by rw [hc]; exact h, hn, by rw [hc]; exact noFault_default _ _ _⟩

theorem unbuilt_vacant : Tree.unbuilt.Vacant := ⟨rfl, rfl, fun i => by simp [Tree.unbuilt, Node.unused]⟩

/-- A probe with a tree built from the all-zero table. -/
def built (src len dst cap : Nat) (mem : Memory) : State :=
  { probe src len dst cap mem with tree := buildTree zeroTable Tree.unbuilt }

theorem built_built (src len dst cap : Nat) (mem : Memory) : (built src len dst cap mem).tree.Built := by
  simp only [built]; exact (buildTree_spec zeroTable Tree.unbuilt).1

theorem probe_invariant (src len dst cap : Nat) : Invariant (probe src len dst cap []) :=
  ⟨⟨List.Pairwise.nil, by simp [probe]⟩, by simp [probe], fun _ => ⟨rfl, rfl, rfl, rfl, rfl⟩,
    by simp [probe, State.reset],
    fun _ => rfl, fun _ => rfl, .inl unbuilt_vacant, fun h => (by cases h), fun _ => ⟨.bitsPack, rfl⟩,
    fun _ => rfl⟩

/-- Another built tree keeps the invariant. -/
theorem Invariant.withTree {s : State} (h : Invariant s) {t : Tree} (ht : t.Built) : Invariant { s with tree := t } :=
  { h with tree := .inr ht }

theorem built_invariant (src len dst cap : Nat) : Invariant (built src len dst cap []) := by
  simp only [built]; exact (probe_invariant src len dst cap).withTree (buildTree_spec zeroTable Tree.unbuilt).1

/-- A word that is no command's. -/
theorem three_no_command (i : Instr) : 3#32 ≠ encode i := by cases i <;> decide

/-! Encoding, acceptance, the engine's turn -/

theorem witness_DecodeAndEncodeAgree :
    (∀ i, 3#32 ≠ encode i) ∧ decodeWord 0x00000041#32 = .ok .bodyDecode := ⟨three_no_command, by decide⟩

/-- The device stands at the byte after SRC. -/
theorem witness_EngineTurnRunsTheLatchedCommand :
    let s := { probe 0x100 0x100 0 0 [] with
      curCmd := 0x20#32, cfg := { Config.default with devices := [0x200] } }
    (s.running .freqBuild ∧ s.coversDevice .freqBuild = false ∧ s.agenda = [] ∧
      ({ s with agenda := [.engine, .rst] } : State).agenda = .engine :: [.rst]) ∧
    (({ s with curCmd := 3#32 } : State).phase = .run ∧ ∀ i, ({ s with curCmd := 3#32 } : State).curCmd ≠ encode i) ∧
    ({ s with phase := .idle } : State).phase = .idle :=
  ⟨⟨⟨rfl, rfl⟩, by decide, rfl, rfl⟩, ⟨rfl, three_no_command⟩, rfl⟩

/-- Other accesses wait behind the write, or the engine moves next, or nothing waits. -/
theorem witness_CmdWriteIsAcceptedAndRuns :
    ∀ rest ∈ [[], [.engine, .rst], [.portWrite 0x018 4 5#32, .engine]],
      (let s := { State.reset with agenda := .portWrite 0x014 4 0x20#32 :: rest, irqEn := true };
        s.phase = .idle ∧ s.agenda = .portWrite (s.cfg.csrBase + 0x014) 4 0x20#32 :: rest ∧ 0x20#32 = encode .freqBuild ∧
          (latch 0x20#32 { s with agenda := rest }).coversDevice .freqBuild = false) ∧
      (let u := { State.reset with agenda := .portWrite 0x014 4 3#32 :: rest };
        u.phase = .idle ∧ u.agenda = .portWrite (u.cfg.csrBase + 0x014) 4 3#32 :: rest ∧ ∀ i, 3#32 ≠ encode i) :=
  fun _ _ => ⟨⟨rfl, rfl, rfl, rfl⟩, rfl, rfl, three_no_command⟩

theorem witness_EveryCommandCompletes :
    (after .decode (probe 0x100 7 0x200 8 [])).errCode ≠ .state := by decide +kernel

theorem witness_FailedCommandKeepsRegisters :
    let s := probe 0x100 0 0x200 0 []
    Invariant s ∧ exec .bodyEncode s = .next (after .bodyEncode s) ∧ (after .bodyEncode s).err = true :=
  ⟨probe_invariant _ _ _ _, exec_after _ _, by decide +kernel⟩

theorem witness_CommandsReportOnlyTheirErrors :
    let s := probe 0xFFFF 2 0 0 []
    exec .freqBuild s = .next (after .freqBuild s) ∧ (after .freqBuild s).err = true :=
  ⟨exec_after _ _, by decide +kernel⟩

theorem rooted_prologue {s : State} (h : s.tree.state = .rooted) : prologueError .encode s = some (.state, 1#32) := by
  simp [prologueError, stateError, h]

/-- STATE on each precondition, BOUNDS(0) and BOUNDS(1) one byte past the end of memory, OVERLAP by one byte. -/
theorem witness_PrologueErrorsInOrder :
    (Invariant (built 0 0 0 0 []) ∧ prologueError .encode (built 0 0 0 0 []) = some (.state, 1#32)) ∧
    (Invariant (probe 0 0 0 0 []) ∧ prologueError .treeDestroy (probe 0 0 0 0 []) = some (.state, 2#32) ∧
      prologueError .bodyEncode (probe 0 0 0 0 []) = some (.state, 3#32)) ∧
    (Invariant (probe 0xFFFF 2 0x100 1 []) ∧
      prologueError .bitsPack (probe 0xFFFF 2 0x100 1 []) = some (.bounds, 0#32)) ∧
    (Invariant (probe 0x100 1 0xFFFF 2 []) ∧
      prologueError .bitsPack (probe 0x100 1 0xFFFF 2 []) = some (.bounds, 1#32)) ∧
    (Invariant (probe 0x100 8 0x107 8 []) ∧
      prologueError .bitsPack (probe 0x100 8 0x107 8 []) = some (.overlap, 0#32)) := by
  refine ⟨⟨built_invariant _ _ _ _, rooted_prologue (built_built 0 0 0 0 []).rooted⟩,
    ⟨probe_invariant _ _ _ _, by decide, by decide⟩,
    ⟨probe_invariant _ _ _ _, by decide⟩, ⟨probe_invariant _ _ _ _, by decide⟩, probe_invariant _ _ _ _, by decide⟩

theorem witness_CommandsKeepOperandRegisters :
    exec .bitsPack (probe 0x100 1 0x200 1 []) = .next (after .bitsPack (probe 0x100 1 0x200 1 [])) := exec_after _ _

theorem witness_CommandsWriteOnlyDst :
    (exec .freqBuild (probe 0x100 1 0 0 []) = .next (after .freqBuild (probe 0x100 1 0 0 [])) ∧
      usesDst .freqBuild = false) ∧
    (let t := after .bitsPack (probe 0x100 9 0x200 1 []);
      exec .bitsPack (probe 0x100 9 0x200 1 []) = .next t ∧ t.err = true ∧ t.errCode ≠ .truncatedStream ∧
        t.errCode ≠ .memFault) :=
  ⟨⟨exec_after _ _, rfl⟩, exec_after _ _, by decide +kernel⟩

theorem witness_SuccessWritesResultLenBytes :
    (let s := probe 0x100 8 0x200 1 [];
      s.resultLen = 0#32 ∧ exec .bitsPack s = .next (after .bitsPack s) ∧ (after .bitsPack s).err = false) ∧
    (let s := probe 0x100 8 0 0 [];
      s.resultLen = 0#32 ∧ exec .freqBuild s = .next (after .freqBuild s) ∧ (after .freqBuild s).err = false ∧
        usesDst .freqBuild = false) :=
  ⟨⟨rfl, exec_after _ _, by decide +kernel⟩, rfl, exec_after _ _, by decide +kernel, rfl⟩

/-- The memories differ in the byte after SRC; and, for a command without SRC, in a byte of SRC. -/
theorem witness_CommandsReadOnlySrc :
    let s := probe 0x100 8 0x200 12 []
    ((usesSrc .bitsPack = true → ∀ a, s.inSrc a = true → (s.mem.write 0x108 5#8).read a = s.mem.read a) ∧
      exec .bitsPack s = .next (after .bitsPack s) ∧
      exec .bitsPack { s with mem := s.mem.write 0x108 5#8 } =
        .next (after .bitsPack { s with mem := s.mem.write 0x108 5#8 })) ∧
    (usesSrc .freqCompress = false ∧ exec .freqCompress s = .next (after .freqCompress s) ∧
      exec .freqCompress { s with mem := s.mem.write 0x100 5#8 } =
        .next (after .freqCompress { s with mem := s.mem.write 0x100 5#8 })) := by
  refine ⟨⟨fun _ a h => Memory.read_write_other _ _ ?_, exec_after _ _, exec_after _ _⟩, rfl, exec_after _ _,
    exec_after _ _⟩
  rintro rfl
  exact absurd h (by decide)

theorem witness_DroppedWritesDoNotDisturbTheCommand :
    exec .bitsPack (probe 0x100 8 0x200 1 []) = .next (after .bitsPack (probe 0x100 8 0x200 1 [])) := exec_after _ _

/-! BitPacker and FrequencyTable -/

/-- SRC ends with memory's last byte, and DST has room for just the output. -/
theorem witness_BitsPackPacksSrc :
    let s := probe 0xFFF7 9 0x200 2 []
    s.srcReady ∧ s.dstReady ((s.srcLen.toNat + 7) / 8) ∧ s.disjoint :=
  ⟨srcReady_of rfl (by decide), dstReady_of rfl (by decide) (by decide), by decide⟩

/-- DST ends where SRC begins. -/
theorem witness_BitsUnpackUnpacksSrc :
    let s := probe 0x210 2 0x200 16 (holding 0x210 [0x82#8])
    s.srcReady ∧ s.dstReady (8 * s.srcLen.toNat) ∧ s.disjoint :=
  ⟨srcReady_of rfl (by decide), dstReady_of rfl (by decide) (by decide), by decide⟩

theorem witness_FreqBuildCountsSrc : (probe 0xFFF5 11 0 0 (holding 0xFFF5 abracadabra)).srcReady :=
  srcReady_of rfl (by decide)

/-- Counts at both ends of every bucket, a table of zeros and one of counts at both ends of the last bucket. -/
theorem witness_CompressedTableLayout :
    (let F : FreqTable := ((((zeroTable.set 0 1#32).set 1 254#32).set 2 255#32).set 3 65534#32).set 255 65535#32;
      (∀ x ∈ [F[(0 : Fin 256)].toNat, F[(1 : Fin 256)].toNat], 1 ≤ x ∧ x < 255) ∧
      (∀ x ∈ [F[(2 : Fin 256)].toNat, F[(3 : Fin 256)].toNat], 255 ≤ x ∧ x < 65535) ∧
      (65535 ≤ F[(255 : Fin 256)].toNat ∧ F[(255 : Fin 256)].toNat < 2 ^ 32)) ∧
    (∀ nB nS : Nat,
      let ps : List (Nat × Nat × Nat × Nat) :=
        [(1, 255, 1, 0), (255, 65535, 2, 4 + 2 * nB), (65535, 2 ^ 32, 4, 8 + 2 * nB + 3 * nS)]
      (1, 255, 1, 0) ∈ ps ∧ (255, 65535, 2, 4 + 2 * nB) ∈ ps ∧ (65535, 2 ^ 32, 4, 8 + 2 * nB + 3 * nS) ∈ ps) ∧
    (∀ sym : Fin 256, zeroTable[sym] = 0#32) ∧
    (let F : FreqTable := (Vector.replicate 256 65535#32).set 0 0xFFFFFFFF#32;
      ∀ sym : Fin 256, 65535 ≤ F[sym].toNat) :=
  ⟨by decide +kernel, fun _ _ => ⟨.head _, .tail _ (.head _), .tail _ (.tail _ (.head _))⟩,
    fun sym => by simp [zeroTable], fun sym => by simp only [Fin.getElem_fin, Vector.getElem_set]; split <;> simp⟩

/-- The largest table takes 1292 bytes, the all-zero one just 12. -/
theorem witness_FreqCompressWritesTable :
    (probe 0 0 0x200 12 []).dstReady (compress (probe 0 0 0x200 12 []).freq).length ∧
    (probe 0 0 0xFAF4 1292 []).dstReady (compress (probe 0 0 0xFAF4 1292 []).freq).length :=
  ⟨dstReady_of rfl (by decide) (by decide +kernel), dstReady_of rfl (by decide) (compress_bounds _).2⟩

theorem witness_HdrWriteWritesHeader :
    (probe 0 0 0x200 20 []).dstReady (8 + (compress (probe 0 0 0x200 20 []).freq).length) ∧
    (probe 0 0 0x200 1300 []).dstReady (8 + (compress (probe 0 0 0x200 1300 []).freq).length) :=
  ⟨dstReady_of rfl (by decide) (by decide +kernel),
    dstReady_of rfl (by decide) (by show _ ≤ 1300; exact Nat.add_le_add_left (compress_bounds _).2 8)⟩

/-- A repeated symbol, every bucket's largest count, symbols 0 and 255, and a byte after the table. -/
theorem witness_FreqDecompressReadsTable :
    let eB : List (Byte × Nat) := [(0x41#8, 255), (0x41#8, 7)]
    let eS : List (Byte × Nat) := [(0x00#8, 65535)]
    let eI : List (Byte × Nat) := [(0xFF#8, 0xFFFFFFFF)]
    let bs := tableBytes eB eS eI ++ [0xAA#8]
    let s := probe 0x100 bs.length 0 0 (holding 0x100 bs)
    s.srcReady ∧ CountsFit eB eS eI ∧ s.srcBytes = tableBytes eB eS eI ++ [0xAA#8] :=
  ⟨srcReady_of rfl (by decide), by unfold CountsFit; decide, probe_srcBytes (by decide) (by decide)⟩

theorem witness_HdrParseReadsHeader :
    let eI : List (Byte × Nat) := [(0xFF#8, 0xFFFFFFFF)]
    let bs := le (8 + (tableBytes [] [] eI ++ [0xBB#8]).length) 4 ++ le 0xFFFFFFFF 4 ++ tableBytes [] [] eI ++ [0xBB#8] ++
      [0xAA#8]
    let s := probe 0x100 bs.length 0 0 (holding 0x100 bs)
    s.srcReady ∧ CountsFit [] [] eI ∧ 0xFFFFFFFF < 2 ^ 32 ∧
      s.srcBytes = le (8 + (tableBytes [] [] eI ++ [0xBB#8]).length) 4 ++ le 0xFFFFFFFF 4 ++ tableBytes [] [] eI ++
        [0xBB#8] ++ [0xAA#8] :=
  ⟨srcReady_of rfl (by decide), by unfold CountsFit; decide, by decide, probe_srcBytes (by decide) (by decide)⟩

/-- A table prefix and bytes after it meet the premises of FREQ_DECOMPRESS's offsets. -/
def TableFails (eB eS : List (Byte × Nat)) (w : Nat) (pre rest : List Byte) : Prop :=
  let s := probe 0x100 (pre ++ rest).length 0 0 (holding 0x100 (pre ++ rest))
  s.srcReady ∧ (w, pre) ∈ [(1, []), (2, entryBytes 1 eB), (4, entryBytes 1 eB ++ entryBytes 2 eS)] ∧
    s.srcBytes = pre ++ rest

theorem tableFails {eB eS : List (Byte × Nat)} {w : Nat} {pre rest : List Byte}
    (hm : (w, pre) ∈ [(1, []), (2, entryBytes 1 eB), (4, entryBytes 1 eB ++ entryBytes 2 eS)])
    (hl : (pre ++ rest).length < 0x100) : TableFails eB eS w pre rest := by
  refine ⟨srcReady_of rfl ?_, hm, probe_srcBytes (by decide) (by omega)⟩
  have h1 : (probe 0x100 (pre ++ rest).length 0 0 (holding 0x100 (pre ++ rest))).srcLen.toNat = (pre ++ rest).length :=
    Nat.mod_eq_of_lt (by omega)
  rw [h1]
  show 0x100 + _ ≤ _
  omega

/-- In each bucket: three bytes left where the count stands; and one byte too few for one entry. -/
theorem witness_FreqDecompressReportsOffset :
    let eB : List (Byte × Nat) := [(0x41#8, 5)]
    let eS : List (Byte × Nat) := [(0x42#8, 500)]
    let p2 := entryBytes 1 eB
    let p3 := entryBytes 1 eB ++ entryBytes 2 eS
    (TableFails eB eS 1 [] [0#8, 0#8, 0#8] ∧ TableFails eB eS 2 p2 [0#8, 0#8, 0#8] ∧
      TableFails eB eS 4 p3 [0#8, 0#8, 0#8]) ∧
    (TableFails eB eS 1 [] (le 1 4 ++ List.replicate 1 0#8) ∧ (List.replicate 1 0#8).length < 1 * (1 + 1)) ∧
    (TableFails eB eS 2 p2 (le 1 4 ++ List.replicate 2 0#8) ∧ (List.replicate 2 0#8).length < 1 * (1 + 2)) ∧
    (TableFails eB eS 4 p3 (le 0xFFFFFFFF 4 ++ List.replicate 4 0#8) ∧
      0xFFFFFFFF < 2 ^ 32 ∧ (List.replicate 4 0#8).length < 0xFFFFFFFF * (1 + 4)) :=
  ⟨⟨tableFails (.head _) (by decide), tableFails (.tail _ (.head _)) (by decide),
      tableFails (.tail _ (.tail _ (.head _))) (by decide)⟩,
    ⟨tableFails (.head _) (by decide), by decide⟩, ⟨tableFails (.tail _ (.head _)) (by decide), by decide⟩,
    tableFails (.tail _ (.tail _ (.head _))) (by decide), by decide, by decide⟩

/-- The premises that HDR_PARSE's and DECODE's header errors share. -/
def HeaderRuns (i : Instr) (s : State) : Prop :=
  (i = .hdrParse ∨ (i = .decode ∧ s.tree.Vacant ∧ s.disjoint ∧ s.dstAddr.toNat + s.dstCap.toNat ≤ s.cfg.memSize)) ∧
    s.srcReady

theorem headerRuns {len : Nat} {mem : Memory} (hl : len ≤ 0x100) (i : Instr) (hi : i = .hdrParse ∨ i = .decode) :
    HeaderRuns i (probe 0x100 len 0x200 8 mem) := by
  have h1 : (probe 0x100 len 0x200 8 mem).srcLen.toNat = len := Nat.mod_eq_of_lt (by omega)
  have h2 : (probe 0x100 len 0x200 8 mem).srcAddr.toNat = 0x100 := rfl
  have h3 : (probe 0x100 len 0x200 8 mem).dstAddr.toNat = 0x200 := rfl
  refine ⟨hi.imp_right fun h => ⟨h, unbuilt_vacant, .inr (.inr (.inr ?_)), by show 0x200 + 8 ≤ 0x10000; decide⟩,
    srcReady_of rfl ?_⟩ <;> omega

/-- SRC_LEN 7; headerLength 7; headerLength one more than SRC_LEN 8. -/
theorem witness_MalformedHeaderReported :
    let short := probe 0x100 7 0x200 8 []
    let low := le 7 4 ++ le 0 4 ++ ([] : List Byte)
    let high := le 9 4 ++ le 0xFFFFFFFF 4 ++ ([] : List Byte)
    (HeaderRuns .hdrParse short ∧ HeaderRuns .decode short ∧ short.srcLen.toNat < 8) ∧
    (∀ bs ∈ [low, high], HeaderRuns .hdrParse (probe 0x100 bs.length 0x200 8 (holding 0x100 bs)) ∧
      HeaderRuns .decode (probe 0x100 bs.length 0x200 8 (holding 0x100 bs)) ∧
      (probe 0x100 bs.length 0x200 8 (holding 0x100 bs)).srcBytes = bs) ∧
    7 < 8 ∧ 8 ≤ 9 ∧ (probe 0x100 high.length 0x200 8 (holding 0x100 high)).srcLen.toNat < 9 := by
  refine ⟨⟨headerRuns (by decide) _ (.inl rfl), headerRuns (by decide) _ (.inr rfl), by decide⟩, fun bs h => ?_,
    by decide, by decide, by decide⟩
  have hl : bs.length = 8 := by
    rcases List.mem_cons.1 h with rfl | h
    · rfl
    · rcases List.mem_cons.1 h with rfl | h
      · rfl
      · cases h
  exact ⟨headerRuns (by omega) _ (.inl rfl), headerRuns (by omega) _ (.inr rfl), probe_srcBytes (by decide) (by omega)⟩

/-- A header whose table fails, with the premises of its offsets. -/
def HeaderFails (eB eS : List (Byte × Nat)) (w : Nat) (pre rest : List Byte) : Prop :=
  let bs := le (8 + (pre ++ rest).length) 4 ++ le 5 4 ++ pre ++ rest ++ [0x77#8, 0x77#8]
  let s := probe 0x100 bs.length 0x200 8 (holding 0x100 bs)
  HeaderRuns .hdrParse s ∧ HeaderRuns .decode s ∧ 5 < 2 ^ 32 ∧
    (w, pre) ∈ [(1, []), (2, entryBytes 1 eB), (4, entryBytes 1 eB ++ entryBytes 2 eS)] ∧ s.srcBytes = bs

theorem headerFails {eB eS : List (Byte × Nat)} {w : Nat} {pre rest : List Byte}
    (hm : (w, pre) ∈ [(1, []), (2, entryBytes 1 eB), (4, entryBytes 1 eB ++ entryBytes 2 eS)])
    (hl : (pre ++ rest).length < 0x80) : HeaderFails eB eS w pre rest := by
  have hb : (le (8 + (pre ++ rest).length) 4 ++ le 5 4 ++ pre ++ rest ++ [0x77#8, 0x77#8]).length ≤ 0x100 := by
    simp only [List.length_append, le_length, List.length_cons, List.length_nil] at *
    omega
  exact ⟨headerRuns hb _ (.inl rfl), headerRuns hb _ (.inr rfl), by decide, hm, probe_srcBytes (by decide) (by omega)⟩

/-- The same cases inside `headerLength`, with two bytes after it that the table may not use. -/
theorem witness_HeaderTableErrorReported :
    let eB : List (Byte × Nat) := [(0x41#8, 5)]
    let eS : List (Byte × Nat) := [(0x42#8, 500)]
    let p2 := entryBytes 1 eB
    let p3 := entryBytes 1 eB ++ entryBytes 2 eS
    (HeaderFails eB eS 1 [] [0#8, 0#8, 0#8] ∧ HeaderFails eB eS 2 p2 [0#8, 0#8, 0#8] ∧
      HeaderFails eB eS 4 p3 [0#8, 0#8, 0#8]) ∧
    (HeaderFails eB eS 1 [] (le 1 4 ++ List.replicate 1 0#8) ∧ (List.replicate 1 0#8).length < 1 * (1 + 1)) ∧
    (HeaderFails eB eS 2 p2 (le 1 4 ++ List.replicate 2 0#8) ∧ (List.replicate 2 0#8).length < 1 * (1 + 2)) ∧
    (HeaderFails eB eS 4 p3 (le 0xFFFFFFFF 4 ++ List.replicate 4 0#8) ∧
      0xFFFFFFFF < 2 ^ 32 ∧ (List.replicate 4 0#8).length < 0xFFFFFFFF * (1 + 4)) :=
  ⟨⟨headerFails (.head _) (by decide), headerFails (.tail _ (.head _)) (by decide),
      headerFails (.tail _ (.tail _ (.head _))) (by decide)⟩,
    ⟨headerFails (.head _) (by decide), by decide⟩, ⟨headerFails (.tail _ (.head _)) (by decide), by decide⟩,
    headerFails (.tail _ (.tail _ (.head _))) (by decide), by decide, by decide⟩

/-- SRC moved to where DST stood reads the bytes of DST. -/
theorem read_moved (t : State) (a len : Word) (i : Nat) :
    ({ t with srcAddr := a, srcLen := len } : State).mem.read
      (({ t with srcAddr := a, srcLen := len } : State).srcAddr.toNat + i) = t.mem.read (a.toNat + i) := rfl

theorem freqCompress_done : (after .freqCompress (probe 0 0 0x200 12 [])).err = false ∧
    (after .freqCompress (probe 0 0 0x200 12 [])).resultLen.toNat ≤ 12 ∧
    (after .freqCompress (probe 0 0 0x200 12 [])).cfg = Config.default := by decide +kernel

theorem hdrWrite_done : (after .hdrWrite (probe 0 0 0x200 20 [])).err = false ∧
    (after .hdrWrite (probe 0 0 0x200 20 [])).resultLen.toNat ≤ 20 ∧
    (after .hdrWrite (probe 0 0 0x200 20 [])).cfg = Config.default := by decide +kernel

/-- A later state reads back what a first command wrote when its SRC is where DST was, or longer. -/
theorem reads_back {t : State} {n : Nat} {len : Word} (hc : t.cfg = Config.default) (hn : t.resultLen.toNat ≤ n)
    (hl : n ≤ len.toNat) (hb : len.toNat ≤ 0x100) :
    let u := { t with srcAddr := 0x200#32, srcLen := len }
    u.srcReady ∧ t.resultLen.toNat ≤ u.srcLen.toNat ∧
      ∀ i, i < t.resultLen.toNat → u.mem.read (u.srcAddr.toNat + i) = t.mem.read ((0x200#32).toNat + i) :=
  ⟨srcReady_of hc (by show 0x200 + len.toNat ≤ _; omega), Nat.le_trans hn hl, fun i _ => read_moved _ _ _ i⟩

/-- SRC of the second command is where DST of the first was, and one byte longer. -/
theorem witness_FrequencyRoundTrip :
    (let s := probe 0 0 0x200 12 []
      let t := after .freqCompress s
      let u := { t with srcAddr := 0x200#32, srcLen := 13#32 }
      exec .freqCompress s = .next t ∧ t.err = false ∧ u.srcReady ∧ t.resultLen.toNat ≤ u.srcLen.toNat ∧
        ∀ i, i < t.resultLen.toNat → u.mem.read (u.srcAddr.toNat + i) = t.mem.read (s.dstAddr.toNat + i)) ∧
    (let s := probe 0 0 0x200 20 []
      let t := after .hdrWrite s
      let u := { t with srcAddr := 0x200#32, srcLen := 21#32 }
      exec .hdrWrite s = .next t ∧ t.err = false ∧ u.srcReady ∧ t.resultLen.toNat ≤ u.srcLen.toNat ∧
        ∀ i, i < t.resultLen.toNat → u.mem.read (u.srcAddr.toNat + i) = t.mem.read (s.dstAddr.toNat + i)) :=
  ⟨⟨exec_after _ _, freqCompress_done.1,
      reads_back freqCompress_done.2.2 freqCompress_done.2.1 (by decide) (by decide)⟩,
    exec_after _ _, hdrWrite_done.1, reads_back hdrWrite_done.2.2 hdrWrite_done.2.1 (by decide) (by decide)⟩

/-! HuffmanTree -/

theorem witness_TreeBuildBuildsTree : (probe 0 0 0 0 []).tree.state = .empty := rfl

theorem treeBuild_done (s : State) (h : s.tree.state = .empty) : (after .treeBuild s).err = false := by
  have h' : runOf .treeBuild s = .ok { s with tree := buildTree s.freq s.tree } := by
    simp only [runOf, runTreeBuild, requireEmpty, h, if_true, ok_bind]; rfl
  unfold after
  rw [exec_eq, h']
  rfl

theorem witness_TreeBuildMergesTheTwoLeast :
    exec .treeBuild (probe 0 0 0 0 []) = .next (after .treeBuild (probe 0 0 0 0 [])) ∧
      (after .treeBuild (probe 0 0 0 0 [])).err = false := ⟨exec_after _ _, treeBuild_done _ rfl⟩

/-- The two states differ in what the arena held before. -/
theorem witness_TreeBuildIsDeterministic :
    let s := probe 0 0 0 0 []
    let s' := { probe 0x100 5 0 0 [] with
      tree := { Tree.unbuilt with arena := Tree.unbuilt.arena.set 300 { Node.unused with freq := 9#40 } } }
    s.freq = s'.freq ∧ exec .treeBuild s = .next (after .treeBuild s) ∧ exec .treeBuild s' = .next (after .treeBuild s') ∧
      (after .treeBuild s).err = false ∧ (after .treeBuild s').err = false :=
  ⟨rfl, exec_after _ _, exec_after _ _, treeBuild_done _ rfl, treeBuild_done _ rfl⟩

theorem witness_CodesDeriveWritesCodes : (built 0 0 0 0 []).tree.Built := built_built 0 0 0 0 []

theorem witness_CodesArePrefixFree :
    ∃ T, T = buildTree zeroTable Tree.unbuilt ∧ (0 : Fin 256) ≠ 255 := ⟨_, rfl, by decide⟩

theorem witness_TreeDestroyClearsArena : (built 0 0 0 0 []).tree.state = .rooted := (built_built 0 0 0 0 []).rooted

/-- In the small tree `0` is 0x41, `10` is 0x42 and `11` is 0x43. -/
theorem smallTree_leads : Leads smallTree.arena smallTree.root [false] 0x41#8 ∧
    Leads smallTree.arena smallTree.root [true, false] 0x42#8 ∧
    Leads smallTree.arena smallTree.root [true, true] 0x43#8 :=
  ⟨⟨0x41, 509, by decide +kernel, show _ = _ by decide +kernel⟩,
    ⟨0x41, 509, by decide +kernel, 0x42, 0x43, by decide +kernel, show _ = _ by decide +kernel⟩,
    ⟨0x41, 509, by decide +kernel, 0x42, 0x43, by decide +kernel, show _ = _ by decide +kernel⟩⟩

theorem smallTree_astray : Astray smallTree.arena smallTree.root [] ∧ Astray smallTree.arena smallTree.root [true] :=
  ⟨⟨0x41, 509, by decide +kernel⟩, 0x41, 509, by decide +kernel, 0x42, 0x43, by decide +kernel⟩

/-- At the root of a built tree no leaf is reached yet. -/
theorem built_astray {t : Tree} (h : t.Built) : Astray t.arena t.root [] := by
  obtain ⟨l, r, hk, _⟩ := h.internal 510 (by decide)
  exact ⟨l, r, by rw [h.root]; exact hk⟩

/-- The code ends with the last bit of SRC. -/
theorem witness_DecodeOneFollowsBits :
    let s := { rooted 0x100 1 0 0 (holding 0x100 [0xC0#8]) with bitCursor := 6#35 }
    s.tree.state = .rooted ∧ s.srcReady ∧ Leads s.tree.arena s.tree.root [true, true] 0x43#8 ∧
      s.bitCursor.toNat + 2 ≤ 8 * s.srcLen.toNat ∧ StreamHas s.mem s.srcAddr.toNat s.bitCursor.toNat [true, true] :=
  ⟨rfl, srcReady_of rfl (by decide), smallTree_leads.2.2, by decide, by unfold StreamHas; decide⟩

/-- One bit left, no bit left, and a cursor past the end. -/
theorem witness_DecodeOneReportsTruncation :
    let s := rooted 0x100 1 0 0 (holding 0x100 [0xAC#8])
    s.tree.state = .rooted ∧ s.srcReady ∧
      (∀ c ∈ [(7#35, [true]), (8#35, []), (0x7FFFFFFFF#35, [])],
        (c.2 : Code).length = 8 * s.srcLen.toNat - c.1.toNat ∧ StreamHas s.mem s.srcAddr.toNat c.1.toNat c.2 ∧
          Astray s.tree.arena s.tree.root c.2) := by
  refine ⟨rfl, srcReady_of rfl (by decide), fun c h => ?_⟩
  rcases List.mem_cons.1 h with rfl | h
  · exact ⟨by decide, by unfold StreamHas; decide, smallTree_astray.2⟩
  · rcases List.mem_cons.1 h with rfl | h
    · exact ⟨by decide, by unfold StreamHas; decide, smallTree_astray.1⟩
    · rcases List.mem_cons.1 h with rfl | h
      · exact ⟨by decide, by unfold StreamHas; decide, smallTree_astray.1⟩
      · cases h

/-! Codec -/

theorem witness_BodyEncodeWritesBody :
    let p := probe 0x100 3 0x200 1 (holding 0x100 [0x43#8, 0x43#8, 0x00#8])
    let s := { p with
      codesValid := true, codeLen := p.codeLen.set 0x43 4#8, codeBits := p.codeBits.set 0x43 0xD#256 }
    let bits := s.srcBytes.flatMap (fun b =>
      (List.range (s.codeLen[symbolOf b]).toNat).map (fun k => (s.codeBits[symbolOf b]).getLsbD k))
    s.codesValid = true ∧ s.srcReady ∧ s.disjoint ∧ bits.length = 8 ∧ s.dstReady ((bits.length + 7) / 8) :=
  ⟨rfl, srcReady_of rfl (by decide), by decide, by decide +kernel,
    dstReady_of rfl (by decide) (by decide +kernel)⟩

/-- The codes of 0x43, 0x41, 0x43, 0x42 and 0x41 fill SRC's one byte 0x5B, `11 0 11 0 10` and no bit is left for more. -/
theorem witness_BodyDecodeWritesSymbols :
    let s := { rooted 0x100 1 0x200 5 (holding 0x100 [0x5B#8]) with dataLen := 5#32 }
    let found : List (Code × Byte) :=
      [([true, true], 0x43#8), ([false], 0x41#8), ([true, true], 0x43#8), ([false], 0x41#8), ([true, false], 0x42#8)]
    s.tree.state = .rooted ∧ s.srcReady ∧ s.disjoint ∧ s.dstReady s.dataLen.toNat ∧ found.length = s.dataLen.toNat ∧
      (∀ f ∈ found, Leads s.tree.arena s.tree.root f.1 f.2) ∧
      (found.flatMap Prod.fst).length ≤ 8 * s.srcLen.toNat ∧
      StreamHas s.mem s.srcAddr.toNat 0 (found.flatMap Prod.fst) := by
  obtain ⟨l1, l2, l3⟩ := smallTree_leads
  refine ⟨rfl, srcReady_of rfl (by decide), by decide, dstReady_of rfl (by decide) (by decide), by decide, ?_,
    by decide, by unfold StreamHas; decide⟩
  simp only [List.forall_mem_cons]
  exact ⟨l3, l1, l3, l1, l2, by simp⟩

/-- SRC is empty; the last bit of 0x9B, `11 0 11 0 0 1`, reaches no leaf; and, for DECODE, a header of one symbol with
no body after it. -/
theorem witness_BodyDecodeTruncatedKeepsPrefix :
    (let s := { rooted 0x100 0 0x200 1 [] with dataLen := 1#32 };
      s.tree.state = .rooted ∧ s.srcReady ∧ s.disjoint ∧ s.dstReady s.dataLen.toNat ∧
        ([] : List (Code × Byte)).length < s.dataLen.toNat ∧ Astray s.tree.arena s.tree.root [] ∧
        (([] : List (Code × Byte)).flatMap Prod.fst ++ []).length = 8 * s.srcLen.toNat ∧
        StreamHas s.mem s.srcAddr.toNat 0 (([] : List (Code × Byte)).flatMap Prod.fst ++ [])) ∧
    (let s := { rooted 0x100 1 0x200 6 (holding 0x100 [0x9B#8]) with dataLen := 6#32 };
      let found : List (Code × Byte) :=
        [([true, true], 0x43#8), ([false], 0x41#8), ([true, true], 0x43#8), ([false], 0x41#8), ([false], 0x41#8)]
      s.tree.state = .rooted ∧ s.srcReady ∧ s.disjoint ∧ s.dstReady s.dataLen.toNat ∧
        found.length < s.dataLen.toNat ∧ (∀ f ∈ found, Leads s.tree.arena s.tree.root f.1 f.2) ∧
        Astray s.tree.arena s.tree.root [true] ∧
        (found.flatMap Prod.fst ++ [true]).length = 8 * s.srcLen.toNat ∧
        StreamHas s.mem s.srcAddr.toNat 0 (found.flatMap Prod.fst ++ [true])) ∧
    (let bs := le (8 + (tableBytes [] [] [] ++ []).length) 4 ++ le 1 4 ++ tableBytes [] [] [] ++ [] ++ ([] : List Byte)
      let s := probe 0x100 bs.length 0x200 1 (holding 0x100 bs)
      let T := buildTree (assigned ([] ++ [] ++ [])) s.tree
      s.tree.Vacant ∧ s.srcReady ∧ s.disjoint ∧ s.dstReady 1 ∧ CountsFit [] [] [] ∧ 1 < 2 ^ 32 ∧ s.srcBytes = bs ∧
        ([] : List (Code × Byte)).length < 1 ∧ Astray T.arena T.root [] ∧
        ([] : List (Code × Byte)).flatMap Prod.fst ++ [] = unpack []) := by
  obtain ⟨l1, l2, l3⟩ := smallTree_leads
  refine ⟨⟨rfl, srcReady_of rfl (by decide), by decide, dstReady_of rfl (by decide) (by decide), by decide,
      smallTree_astray.1, by decide, by unfold StreamHas; decide⟩,
    ⟨rfl, srcReady_of rfl (by decide), by decide, dstReady_of rfl (by decide) (by decide), by decide, ?_,
      smallTree_astray.2, by decide, by unfold StreamHas; decide⟩,
    unbuilt_vacant, srcReady_of rfl (by decide), by decide, dstReady_of rfl (by decide) (by decide),
    by unfold CountsFit; decide, by decide, probe_srcBytes (by decide) (by decide), by decide, ?_, rfl⟩
  · simp only [List.forall_mem_cons]
    exact ⟨l3, l1, l3, l1, l1, by simp⟩
  · exact built_astray (buildTree_spec _ _).1

/-- One source byte and the 1332 bytes that always suffice for it. -/
def oneByte : State := probe 0x100 1 0x200 1332 (holding 0x100 [0x41#8])

theorem oneByte_srcBytes : oneByte.srcBytes = [0x41#8] := probe_srcBytes (by decide) (by decide)

theorem oneByte_code :
    (codeOf (buildTree (count oneByte.srcBytes) oneByte.tree).arena (symbolOf 0x41#8)).length ≤ 255 :=
  (codeOf_spec (buildTree_spec _ _).1 _).2.2

theorem oneByte_length {T : Tree} {F : FreqTable} {bits : Code}
    (hb : bits = [0x41#8].flatMap (fun b => codeOf T.arena (symbolOf b)))
    (hT : (codeOf T.arena (symbolOf 0x41#8)).length ≤ 255) :
    (headerBytes F oneByte.srcLen.toNat ++ pack bits).length ≤ 1332 := by
  have h1 := (compress_bounds F).2
  have h2 : bits.length ≤ 255 := by rw [hb]; simpa using hT
  rw [List.length_append, headerBytes_length, pack_length, ceil8]
  omega

theorem witness_EncodeWritesStream :
    let code := codeOf (buildTree (count oneByte.srcBytes) oneByte.tree).arena
    let bits := oneByte.srcBytes.flatMap (fun b => code (symbolOf b))
    let out := headerBytes (count oneByte.srcBytes) oneByte.srcLen.toNat ++ pack bits
    oneByte.tree.state = .empty ∧ oneByte.srcReady ∧ oneByte.disjoint ∧ oneByte.dstReady out.length :=
  ⟨rfl, srcReady_of rfl (by decide), by decide,
    dstReady_of rfl (by decide) (oneByte_length (by rw [oneByte_srcBytes]) oneByte_code)⟩

/-- Both bounds met with no byte to spare. -/
theorem witness_CapacityBoundSuffices :
    (oneByte.srcReady ∧ oneByte.disjoint ∧ oneByte.dstReady oneByte.dstCap.toNat ∧ oneByte.tree.state = .empty ∧
      1300 + 32 * oneByte.srcLen.toNat ≤ oneByte.dstCap.toNat) ∧
    (let s := { probe 0x100 1 0x200 32 [] with codesValid := true };
      s.srcReady ∧ s.disjoint ∧ s.dstReady s.dstCap.toNat ∧ s.codesValid = true ∧
        32 * s.srcLen.toNat ≤ s.dstCap.toNat) :=
  ⟨⟨srcReady_of rfl (by decide), by decide, dstReady_of rfl (by decide) (by decide), rfl, by decide⟩,
    srcReady_of rfl (by decide), by decide, dstReady_of rfl (by decide) (by decide), rfl, by decide⟩

/-- The header of the table of one 0x41, and the tree built from it. -/
def oneHeader : List Byte :=
  le (8 + (tableBytes [(0x41#8, 1)] [] [] ++ []).length) 4 ++ le 1 4 ++ tableBytes [(0x41#8, 1)] [] [] ++ []

theorem oneHeader_length : oneHeader.length = 22 := by
  simp [oneHeader, tableBytes, entryBytes]

theorem probe_regions {n : Nat} {mem : Memory} (h : n ≤ 0x100) :
    (probe 0x100 n 0x200 1 mem).srcReady ∧ (probe 0x100 n 0x200 1 mem).disjoint ∧
      (probe 0x100 n 0x200 1 mem).dstReady 1 := by
  have h1 : (probe 0x100 n 0x200 1 mem).srcLen.toNat = n := Nat.mod_eq_of_lt (by omega)
  have h2 : (probe 0x100 n 0x200 1 mem).srcAddr.toNat = 0x100 := rfl
  have h3 : (probe 0x100 n 0x200 1 mem).dstAddr.toNat = 0x200 := rfl
  exact ⟨srcReady_of rfl (by omega), .inr (.inr (.inr (by omega))),
    dstReady_of rfl (by show 0x200 + 1 ≤ 0x10000; decide) (by show 1 ≤ 1; decide)⟩

/-- A packed code begins with the code. -/
theorem prefix_unpack_pack (c : Code) : [(c, 0x41#8)].flatMap Prod.fst <+: unpack (pack c) := by
  rw [List.prefix_iff_eq_take]
  apply List.ext_getElem?
  intro i
  simp only [List.flatMap_cons, List.flatMap_nil, List.append_nil]
  by_cases hi : i < c.length
  · have hj : i / 8 < (pack c).length := by rw [pack_length, ceil8]; omega
    rw [List.getElem?_take, if_pos hi, unpack_bit, List.getElem?_eq_getElem hj, Option.map_some,
      pack_bit c _ _ hj (Nat.mod_lt _ (by omega)), Nat.div_add_mod, List.getD_eq_getElem?_getD,
      List.getElem?_eq_getElem hi]
    rfl
  · rw [List.getElem?_take, if_neg hi, List.getElem?_eq_none (by omega)]

def oneTree : Tree := buildTree (assigned ([(0x41#8, 1)] ++ [] ++ [])) Tree.unbuilt

theorem oneStream {T : Tree} (h : T.Built) :
    let s := probe 0x100 (oneHeader ++ pack (codeOf T.arena 0x41)).length 0x200 1
      (holding 0x100 (oneHeader ++ pack (codeOf T.arena 0x41)))
    s.srcReady ∧ s.disjoint ∧ s.dstReady 1 ∧ s.srcBytes = oneHeader ++ pack (codeOf T.arena 0x41) ∧
      ∀ f ∈ [(codeOf T.arena 0x41, 0x41#8)], Leads T.arena T.root f.1 f.2 := by
  obtain ⟨hc, _, hl⟩ := codeOf_spec h 0x41
  have hlen : (oneHeader ++ pack (codeOf T.arena 0x41)).length ≤ 0x100 := by
    rw [List.length_append, pack_length, ceil8, oneHeader_length]; omega
  obtain ⟨h1, h2, h3⟩ := probe_regions (mem := holding 0x100 (oneHeader ++ pack (codeOf T.arena 0x41))) hlen
  exact ⟨h1, h2, h3, probe_srcBytes (by decide) (by omega), by simpa using hc⟩

/-- A stream of one symbol: its body is the code of 0x41 in the tree of the header's table. -/
theorem witness_DecodeWritesData :
    let found : List (Code × Byte) := [(codeOf oneTree.arena 0x41, 0x41#8)]
    let body := pack (codeOf oneTree.arena 0x41)
    let s := probe 0x100 (oneHeader ++ body).length 0x200 1 (holding 0x100 (oneHeader ++ body))
    s.tree.state = .empty ∧ s.srcReady ∧ s.disjoint ∧ s.dstReady found.length ∧ CountsFit [(0x41#8, 1)] [] [] ∧
      s.srcBytes = oneHeader ++ body ∧
      oneTree = buildTree (assigned ([(0x41#8, 1)] ++ [] ++ [])) s.tree ∧
      (∀ f ∈ found, Leads oneTree.arena oneTree.root f.1 f.2) ∧ found.flatMap Prod.fst <+: unpack body := by
  have h := oneStream (T := oneTree) (buildTree_spec _ Tree.unbuilt).1
  exact ⟨rfl, h.1, h.2.1, h.2.2.1, by unfold CountsFit; decide, h.2.2.2.1, rfl, h.2.2.2.2, prefix_unpack_pack _⟩

/-- ENCODE runs to its commit when its output fits. -/
theorem encode_commits {s : State} (h0 : s.tree.state = .empty) (h1 : s.srcReady) (h2 : s.disjoint)
    (h3 : ∀ (T : Tree) (F : FreqTable) (bits : List Bool), T.Built →
      bits = s.srcBytes.flatMap (fun b => codeOf T.arena (symbolOf b)) →
      s.dstReady (headerBytes F s.srcLen.toNat ++ pack bits).length) : ∃ t, runOf .encode s = .ok t := by
  have hB := (buildTree_spec (count s.srcBytes) s.tree).1
  have hn := encodeBits_length (data := s.srcBytes) (by rw [srcBytes_length]; exact s.srcLen.isLt)
    (deriveCodes (buildTree (count s.srcBytes) s.tree).arena)
  have he : requireEmpty s = .ok () := by simp [requireEmpty, h0]
  have hr : checkRegions s = .ok () :=
    checkRegions_ok h1.1 (h3 _ (count s.srcBytes) _ hB rfl).1 h2
  show ∃ t, runEncode s = .ok t
  unfold runEncode encodeInput
  rw [he, ok_bind, hr, ok_bind, readSrc_ok h1, ok_bind]
  have hx : s.srcBytes.flatMap (fun b => codeOf (buildTree (count s.srcBytes) s.tree).arena (symbolOf b)) =
      encodeBits s.srcBytes fun sym => (deriveCodes (buildTree (count s.srcBytes) s.tree).arena)[sym] := by
    simp [encodeBits, deriveCodes]
  have h4 := h3 _ (count s.srcBytes) _ hB hx.symm
  obtain ⟨m, hm, _⟩ := writeBytes_ok (m := s.mem) h4.2.2
  have hw : writeDst s (headerBytes (count s.srcBytes) s.srcLen.toNat ++
      pack (encodeBits s.srcBytes fun sym => (deriveCodes (buildTree (count s.srcBytes) s.tree).arena)[sym])) =
      .ok m := hm
  have h5 := h4.2.1
  rw [List.length_append, pack_length] at h5
  simp only [hn]
  rw [checkCapacity_ok h5, ok_bind, hw, ok_bind]
  exact ⟨_, rfl⟩

/-- After an ENCODE that commits. -/
theorem after_encode {s : State} (h : ∃ t, runOf .encode s = .ok t) :
    (after .encode s).err = false ∧ (after .encode s).tree.state = .empty ∧ (after .encode s).cfg = s.cfg ∧
      (after .encode s).resultLen.toNat ≤ s.dstCap.toNat := by
  obtain ⟨t, ht⟩ := h
  rcases exec_cases .encode s with ⟨t', hr, hs, he⟩ | ⟨e, hr, _, _⟩
  · have : after .encode s = complete true .none 0#32 t' := by unfold after; rw [he]; rfl
    rw [this]
    exact ⟨rfl, rfl, by rw [complete_cfg, hs.frame], (hs.dst rfl).2.1⟩
  · rw [ht] at hr; cases hr

/-- ENCODE of the one byte commits. -/
theorem oneByte_commits : ∃ t, runOf .encode oneByte = .ok t :=
  encode_commits rfl (srcReady_of rfl (by decide)) (by decide)
    (fun T F bits hB hb => dstReady_of rfl (by decide)
      (oneByte_length (by rw [hb, oneByte_srcBytes]) (codeOf_spec hB _).2.2))

/-- ENCODE of the one byte succeeds. -/
theorem oneByte_encodes : (after .encode oneByte).err = false ∧ (after .encode oneByte).tree.state = .empty ∧
    (after .encode oneByte).cfg = Config.default ∧ (after .encode oneByte).resultLen.toNat ≤ 1332 :=
  after_encode oneByte_commits

/-- SRC at 0x200 with the length of the result, and room for one byte at 0x1000. -/
theorem decode_premises {t : State} (he : t.tree.state = .empty) (hc : t.cfg = Config.default)
    (hn : t.resultLen.toNat ≤ 1332) :
    let u := { t with srcAddr := 0x200#32, srcLen := t.resultLen, dstAddr := 0x1000#32, dstCap := 1#32 }
    u.tree.state = .empty ∧ u.srcReady ∧ u.disjoint ∧ u.dstReady 1 ∧ u.srcLen = t.resultLen ∧
      ∀ i, i < t.resultLen.toNat → u.mem.read (u.srcAddr.toNat + i) = t.mem.read ((0x200#32).toNat + i) :=
  ⟨he, srcReady_of hc (by show 0x200 + t.resultLen.toNat ≤ _; omega),
    .inr (.inr (.inr (by show 0x200 + t.resultLen.toNat ≤ 0x1000; omega))),
    dstReady_of hc (by show 0x1000 + 1 ≤ 0x10000; decide) (by show 1 ≤ 1; decide), rfl, fun _ _ => rfl⟩

/-- DECODE's SRC is where ENCODE's DST was, and its DST has room for the one byte. -/
theorem witness_DecodeInvertsEncode :
    let t := after .encode oneByte
    let u := { t with srcAddr := 0x200#32, srcLen := t.resultLen, dstAddr := 0x1000#32, dstCap := 1#32 }
    exec .encode oneByte = .next t ∧ t.err = false ∧ (u.tree.state = .empty ∧ u.srcReady ∧ u.disjoint ∧
      u.dstReady oneByte.srcLen.toNat ∧ u.srcLen = t.resultLen ∧
      ∀ i, i < t.resultLen.toNat → u.mem.read (u.srcAddr.toNat + i) = t.mem.read (oneByte.dstAddr.toNat + i)) :=
  ⟨exec_after .encode oneByte, oneByte_encodes.1,
    decode_premises oneByte_encodes.2.1 oneByte_encodes.2.2.1 oneByte_encodes.2.2.2⟩

/-! Errors of the destination and of the memory port -/

/-- For each command, a capacity one byte short of what is needed; for the two without SRC, SRC registers that name a
region over DST, and one past the end of memory. -/
theorem witness_OverflowReportsBytesNeeded :
    (let s := probe 0x200 4 0x200 11 [];
      s.dstReady 0 ∧ s.dstCap.toNat < (compress s.freq).length ∧ ¬ s.disjoint) ∧
    (let s := probe 0xFFFF 2 0x200 19 [];
      s.dstReady 0 ∧ s.dstCap.toNat < 8 + (compress s.freq).length ∧ ¬ s.srcReady) ∧
    (let s := probe 0x100 9 0x200 1 [];
      s.srcReady ∧ s.dstReady 0 ∧ s.disjoint ∧ s.dstCap.toNat < (s.srcLen.toNat + 7) / 8) ∧
    (let s := probe 0x100 2 0x200 15 [];
      s.srcReady ∧ s.dstReady 0 ∧ s.disjoint ∧ s.dstCap.toNat < 8 * s.srcLen.toNat) ∧
    (let s := { rooted 0x100 1 0x200 4 [] with dataLen := 5#32 };
      s.srcReady ∧ s.dstReady 0 ∧ s.disjoint ∧ s.tree.state = .rooted ∧ s.dstCap.toNat < s.dataLen.toNat) ∧
    (let p := probe 0x100 1 0x200 0 [];
      let s := { p with codesValid := true, codeLen := p.codeLen.set 0 1#8 };
      s.srcReady ∧ s.dstReady 0 ∧ s.disjoint ∧ s.codesValid = true ∧
        s.dstCap.toNat < ((s.srcBytes.map (fun b => (s.codeLen[symbolOf b]).toNat)).sum + 7) / 8) :=
  ⟨⟨dstReady_of rfl (by decide) (by decide), lt_of_lt_of_le (by decide) (compress_bounds _).1, by decide⟩,
    ⟨dstReady_of rfl (by decide) (by decide), lt_of_lt_of_le (by decide) (Nat.add_le_add_left (compress_bounds _).1 8),
      fun h => absurd h.1 (by decide)⟩,
    ⟨srcReady_of rfl (by decide), dstReady_of rfl (by decide) (by decide), by decide, by decide⟩,
    ⟨srcReady_of rfl (by decide), dstReady_of rfl (by decide) (by decide), by decide, by decide⟩,
    ⟨srcReady_of rfl (by decide), dstReady_of rfl (by decide) (by decide), by decide, rfl, by decide⟩,
    srcReady_of rfl (by decide), dstReady_of rfl (by decide) (by decide), by decide, rfl, by decide +kernel⟩

theorem header_needs (F : FreqTable) (dl n : Nat) : 19 < (headerBytes F dl).length + n := by
  have := (compress_bounds F).1
  rw [headerBytes_length]
  omega

/-- ENCODE of nothing with 19 bytes, and DECODE of five symbols with room for four. -/
theorem witness_CodecOverflowReportsBytesNeeded :
    (let s := probe 0x100 0 0x200 19 [];
      s.tree.Vacant ∧ s.srcReady ∧ s.dstReady 0 ∧ s.disjoint ∧
        s.dstCap.toNat < (headerBytes (count s.srcBytes) s.srcLen.toNat).length +
          ((s.srcBytes.map (fun b => (codeOf (buildTree (count s.srcBytes) s.tree).arena (symbolOf b)).length)).sum +
            7) / 8) ∧
    (let bs := le (8 + (tableBytes [] [] [] ++ []).length) 4 ++ le 5 4 ++ tableBytes [] [] [] ++ [] ++ ([] : List Byte);
      let s := probe 0x100 bs.length 0x200 4 (holding 0x100 bs);
      s.tree.Vacant ∧ s.srcReady ∧ s.dstReady 0 ∧ s.disjoint ∧ CountsFit [] [] [] ∧ 5 < 2 ^ 32 ∧
        s.srcBytes = bs ∧ s.dstCap.toNat < 5) :=
  ⟨⟨unbuilt_vacant, srcReady_of rfl (by decide), dstReady_of rfl (by decide) (by decide), by decide,
      header_needs _ _ _⟩,
    unbuilt_vacant, srcReady_of rfl (by decide), dstReady_of rfl (by decide) (by decide), by decide,
    by unfold CountsFit; decide, by decide, probe_srcBytes (by decide) (by decide), by decide⟩

theorem noFault_nothing (c : Config) (kind : AccessKind) (lo : Nat) : NoFault c kind lo 0 := by
  intro a h1 h2; omega

/-- No access is rejected where no rejected byte stands. -/
theorem noFault_apart {c : Config} {kind : AccessKind} {lo n : Nat}
    (h : ∀ f ∈ c.memFaults, f.1 < lo ∨ lo + n ≤ f.1) : NoFault c kind lo n := fun a h1 h2 hm => by
  have := h _ hm
  simp only at this
  omega

/-- The platform that rejects one access. -/
def State.rejecting (s : State) (a : Nat) (kind : AccessKind) : State :=
  { s with cfg := { s.cfg with memFaults := [(a, kind)] } }

theorem rejecting_noFault (s : State) {a lo n : Nat} {kind k : AccessKind} (h : a < lo ∨ lo + n ≤ a) :
    NoFault (s.rejecting a kind).cfg k lo n :=
  noFault_apart fun f hf => by rw [List.mem_singleton.1 hf]; exact h

theorem Invariant.rejecting {s : State} (h : Invariant s) (a : Nat) (kind : AccessKind) :
    Invariant (s.rejecting a kind) := { h with }

theorem holding_wf (a : Nat) (bs : List Byte) : (holding a bs).wf := by
  induction bs generalizing a with
  | nil => exact ⟨List.Pairwise.nil, by simp [holding]⟩
  | cons b bs ih => exact Memory.wf_write _ _ (ih _)

theorem holding_range (a : Nat) (bs : List Byte) : ∀ c ∈ holding a bs, c.1 < a + bs.length := by
  induction bs generalizing a with
  | nil => intro c hc; cases hc
  | cons b bs ih =>
    intro c hc
    rw [List.length_cons]
    rcases Memory.mem_write hc with rfl | hc
    · show a < _; omega
    · have := ih _ c hc; omega

/-- A probe of bytes meets the invariant. -/
theorem probe_holding (len dst cap : Nat) {bs : List Byte} (h : bs.length ≤ 0x100) :
    Invariant (probe 0x100 len dst cap (holding 0x100 bs)) :=
  { probe_invariant 0x100 len dst cap with
    memWf := holding_wf _ _
    memRange := fun c hc => Nat.lt_of_lt_of_le (holding_range _ _ c hc) (by show _ ≤ 0x10000; omega) }

theorem rejecting_srcBytes {bs : List Byte} {n dst cap a : Nat} {kind : AccessKind} (hn : bs.length = n)
    (hl : n < 0x100) : ((probe 0x100 n dst cap (holding 0x100 bs)).rejecting a kind).srcBytes = bs := by
  subst hn
  exact probe_srcBytes (dst := dst) (cap := cap) (by decide) (by omega)

/-- The command meets a read of SRC's byte `j` that is rejected, the first to be so. -/
def FirstRead (i : Instr) (s : State) (j : Nat) : Prop :=
  prologueError i s = none ∧ NoFault s.cfg .read s.srcAddr.toNat j ∧
    (s.srcAddr.toNat + j, AccessKind.read) ∈ s.cfg.memFaults

theorem firstRead {i : Instr} {s : State} {j : Nat} (h : prologueError i (s.rejecting (s.srcAddr.toNat + j) .read) = none) :
    FirstRead i (s.rejecting (s.srcAddr.toNat + j) .read) j :=
  ⟨h, rejecting_noFault s (.inr (Nat.le_refl _)), .head _⟩

/-- A probe with every code one bit long. -/
def coded : State := { probe 0x100 8 0x200 8 [] with codesValid := true, codeLen := Vector.replicate 256 1#8 }

theorem coded_invariant : Invariant coded :=
  { probe_invariant 0x100 8 0x200 8 with
    codes := fun _ sym => ⟨by simp [coded], fun k _ => by simp [coded, probe, State.reset]⟩ }

/-- A MEM_FAULT; the first and the last byte of SRC, for each command that reads all of SRC at first and for BITS_UNPACK;
and of a table and of a header. -/
theorem witness_RejectedAccessRaisesMemFault :
    (let s := coded.rejecting 0x100 .read;
      exec .freqBuild s = .next (after .freqBuild s) ∧ (after .freqBuild s).errCode = .memFault) ∧
    (∀ j ∈ [0, 7], let s := coded.rejecting (0x100 + j) .read;
      Invariant s ∧ (s.srcLen.toNat + 7) / 8 ≤ s.dstCap.toNat ∧ j < s.srcLen.toNat ∧
        ∀ i ∈ [Instr.freqBuild, .bitsPack, .encode, .bodyEncode], FirstRead i s j) ∧
    (∀ j ∈ [0, 1], let s := (probe 0x100 2 0x200 16 []).rejecting (0x100 + j) .read;
      FirstRead .bitsUnpack s j ∧ 8 * s.srcLen.toNat ≤ s.dstCap.toNat ∧ j < s.srcLen.toNat ∧
        NoFault s.cfg .write s.dstAddr.toNat (8 * j)) ∧
    (∀ j ∈ [0, 11], let s := (probe 0x100 12 0 0 (holding 0x100 (tableBytes [] [] []))).rejecting (0x100 + j) .read;
      CountsFit [] [] [] ∧ FirstRead .freqDecompress s j ∧ s.srcBytes = tableBytes [] [] [] ++ [] ∧
        j < (tableBytes [] [] []).length) ∧
    (∀ j ∈ [0, 19], let bs := le (8 + (tableBytes [] [] [] ++ []).length) 4 ++ le 5 4 ++ tableBytes [] [] [] ++ [] ++ []
      let s := (probe 0x100 20 0x200 8 (holding 0x100 bs)).rejecting (0x100 + j) .read
      Invariant s ∧ CountsFit [] [] [] ∧ 5 < 2 ^ 32 ∧ FirstRead .hdrParse s j ∧ FirstRead .decode s j ∧
        s.srcBytes = bs ∧ j < 8 + (tableBytes [] [] []).length) := by
  refine ⟨⟨exec_after _ _, by decide +kernel⟩, fun j hj => ⟨coded_invariant.rejecting _ _, by show (8 + 7) / 8 ≤ 8; decide, ?_, fun i hi => ?_⟩,
    fun j hj => ⟨firstRead (s := probe 0x100 2 0x200 16 []) rfl, by show 8 * 2 ≤ 16; decide, ?_, rejecting_noFault _ (.inl ?_)⟩,
    fun j hj => ⟨by unfold CountsFit; decide, firstRead (s := probe 0x100 12 0 0 _) rfl,
      rejecting_srcBytes (by decide) (by decide), ?_⟩,
    fun j hj => ⟨(probe_holding _ _ _ (by decide)).rejecting _ _, by unfold CountsFit; decide, by decide,
      firstRead (s := probe 0x100 20 0x200 8 _) rfl, firstRead (s := probe 0x100 20 0x200 8 _) rfl,
      rejecting_srcBytes (by decide) (by decide), ?_⟩⟩
  · show j < 8; simp at hj; omega
  · refine firstRead (s := coded) ?_
    simp only [List.mem_cons, List.not_mem_nil, or_false] at hi
    rcases hi with rfl | rfl | rfl | rfl <;> rfl
  · show j < 2; simp at hj; omega
  · show 0x100 + j < 0x200; simp at hj; omega
  · rw [show (tableBytes [] [] []).length = 12 from rfl]; simp at hj; omega
  · rw [show (tableBytes [] [] []).length = 12 from rfl]; simp at hj; omega

/-- The bit at the cursor; a first bit, and a bit after one symbol; and the first bit of a body after its header. -/
theorem witness_RejectedAccessRaisesMemFault_walks :
    (let s := { rooted 0x100 1 0 0 [] with bitCursor := 7#35 }.rejecting 0x100 .read;
      prologueError .decodeOne s = none ∧ Astray s.tree.arena s.tree.root [] ∧ 7 < 8 * s.srcLen.toNat ∧
        7 = s.bitCursor.toNat + ([] : Code).length ∧ StreamHas s.mem s.srcAddr.toNat s.bitCursor.toNat [] ∧
        BitsReadable s.cfg s.srcAddr.toNat s.bitCursor.toNat 0 ∧
        (s.srcAddr.toNat + 7 / 8, AccessKind.read) ∈ s.cfg.memFaults) ∧
    (let s := { rooted 0x100 1 0x200 1 [] with dataLen := 1#32 }.rejecting 0x100 .read;
      prologueError .bodyDecode s = none ∧ s.dataLen.toNat ≤ s.dstCap.toNat ∧ 0 < s.dataLen.toNat ∧
        Astray s.tree.arena s.tree.root [] ∧ 0 < 8 * s.srcLen.toNat ∧ StreamHas s.mem s.srcAddr.toNat 0 [] ∧
        BitsReadable s.cfg s.srcAddr.toNat 0 0 ∧ (s.srcAddr.toNat + 0 / 8, AccessKind.read) ∈ s.cfg.memFaults ∧
        NoFault s.cfg .write s.dstAddr.toNat 0) ∧
    (let bs := le (8 + (tableBytes [] [] [] ++ []).length) 4 ++ le 1 4 ++ tableBytes [] [] [] ++ [] ++ [0xFF#8]
      let s := (probe 0x100 21 0x200 8 (holding 0x100 bs)).rejecting 0x114 .read
      let T := buildTree (assigned ([] ++ [] ++ [])) s.tree
      Invariant s ∧ prologueError .decode s = none ∧ CountsFit [] [] [] ∧ 1 < 2 ^ 32 ∧ 1 ≤ s.dstCap.toNat ∧
        20 = 8 + (tableBytes [] [] [] ++ []).length ∧ s.srcBytes = bs ∧ Astray T.arena T.root [] ∧
        ([] : List (Code × Byte)).flatMap Prod.fst ++ [] ++ unpack [0xFF#8] = unpack [0xFF#8] ∧ unpack [0xFF#8] ≠ [] ∧
        NoFault s.cfg .read s.srcAddr.toNat 20 ∧ BitsReadable s.cfg (s.srcAddr.toNat + 20) 0 0 ∧
        (s.srcAddr.toNat + 20 + 0 / 8, AccessKind.read) ∈ s.cfg.memFaults ∧ NoFault s.cfg .write s.dstAddr.toNat 0) := by
  have hb : ∀ c base at', BitsReadable c base at' 0 := fun c base at' j h1 h2 => absurd h2 (by omega)
  exact ⟨⟨by decide +kernel, smallTree_astray.1, by decide, by decide, by unfold StreamHas; decide, hb _ _ _, .head _⟩,
    ⟨by decide +kernel, by decide, by decide, smallTree_astray.1, by decide, by unfold StreamHas; decide, hb _ _ _,
      .head _, noFault_nothing _ _ _⟩,
    (probe_holding _ _ _ (by decide)).rejecting _ _, rfl, by unfold CountsFit; decide, by decide, by decide, by decide,
    rejecting_srcBytes (by decide) (by decide), built_astray (buildTree_spec _ _).1, rfl, by decide,
    rejecting_noFault _ (.inr (by decide)), hb _ _ _, .head _, noFault_nothing _ _ _⟩

/-- The first and the last byte that FREQ_COMPRESS writes, and that BITS_PACK writes. -/
theorem witness_RejectedAccessRaisesMemFault_writes :
    (∀ j ∈ [0, 11], let s := (probe 0 0 0x200 12 []).rejecting (0x200 + j) .write
      let t := after .freqCompress { s with cfg := unrejected s.cfg }
      usesDst .freqCompress = true ∧ Invariant s ∧ usesSrc .freqCompress = false ∧
        exec .freqCompress { s with cfg := unrejected s.cfg } = .next t ∧ t.err = false ∧ j < t.resultLen.toNat ∧
        NoFault s.cfg .write s.dstAddr.toNat j ∧ (s.dstAddr.toNat + j, AccessKind.write) ∈ s.cfg.memFaults) ∧
    (∀ j ∈ [0, 1], let s := (probe 0x100 16 0x200 2 []).rejecting (0x200 + j) .write
      let t := after .bitsPack { s with cfg := unrejected s.cfg }
      usesDst .bitsPack = true ∧ Invariant s ∧ NoFault s.cfg .read s.srcAddr.toNat s.srcLen.toNat ∧
        exec .bitsPack { s with cfg := unrejected s.cfg } = .next t ∧ t.err = false ∧ j < t.resultLen.toNat ∧
        NoFault s.cfg .write s.dstAddr.toNat j ∧ (s.dstAddr.toNat + j, AccessKind.write) ∈ s.cfg.memFaults) := by
  refine ⟨fun j hj => ?_, fun j hj => ?_⟩ <;> simp only [List.mem_cons, List.not_mem_nil, or_false] at hj
  · refine ⟨rfl, (probe_invariant _ _ _ _).rejecting _ _, rfl, exec_after _ _, ?_, ?_,
      rejecting_noFault _ (.inr (Nat.le_refl _)), .head _⟩ <;> rcases hj with rfl | rfl <;> decide +kernel
  · refine ⟨rfl, (probe_invariant _ _ _ _).rejecting _ _, rejecting_noFault _ (.inr ?_), exec_after _ _, ?_, ?_,
      rejecting_noFault _ (.inr (Nat.le_refl _)), .head _⟩ <;> rcases hj with rfl | rfl <;> decide +kernel

/-! The control port -/

/-- A state with an agenda, idle or busy. -/
def facing (p : Phase) (op : HostOp) : State := { probe 0x100 8 0x200 8 [] with phase := p, agenda := [op, .engine] }

theorem facing_invariant (p : Phase) (op : HostOp) : Invariant (facing p op) :=
  { probe_invariant 0x100 8 0x200 8 with
    busyClear := fun _ => ⟨rfl, rfl, rfl, rfl, rfl⟩
    runsCommand := fun _ => ⟨.bitsPack, rfl⟩
    noBuild := fun _ => rfl }

/-- A named register; STATUS while a command runs that builds no tree, and while none runs, each end of the encodings. -/
theorem witness_RegisterReads :
    (facing .run (.portRead 0x014 4)).agenda =
      .portRead ((facing .run (.portRead 0x014 4)).cfg.csrBase + 0x014) 4 :: [.engine] ∧
    (let s := facing .run (.portRead 0x00C 4);
      s.agenda = .portRead (s.cfg.csrBase + 0x00C) 4 :: [.engine] ∧ s.treeInMotion = false ∧
        (s.tree.state, 0) ∈ [(TreeState.empty, 0), (.seeding, 1), (.merging, 2), (.rooted, 3)] ∧ s.errCode = .none) ∧
    (let s := { facing .idle (.portRead 0x00C 4) with tree := smallTree, errCode := .memFault };
      s.agenda = .portRead (s.cfg.csrBase + 0x00C) 4 :: [.engine] ∧ s.treeInMotion = false ∧
        (s.tree.state, 3) ∈ [(TreeState.empty, 0), (.seeding, 1), (.merging, 2), (.rooted, 3)] ∧
        (s.errCode, 9) ∈ [(ErrCode.none, 0), (.illegalCmd, 1), (.bounds, 2), (.overlap, 3), (.state, 4),
          (.dstOverflow, 5), (.malformedHeader, 6), (.invalidFrequencyData, 7), (.truncatedStream, 8), (.memFault, 9)]) :=
  ⟨rfl, ⟨rfl, by decide +kernel, by decide, rfl⟩, rfl, by decide +kernel, by decide, by decide⟩

theorem witness_OperandRegisterWrites :
    let s := facing .idle (.portWrite 0x038 4 0xFFFFFFFF#32)
    s.phase = .idle ∧ s.agenda = .portWrite (s.cfg.csrBase + 0x038) 4 0xFFFFFFFF#32 :: [.engine] := ⟨rfl, rfl⟩

/-- Each range at its first and last word. -/
theorem witness_ReadOnlyAndReservedOffsets :
    (∀ off ∈ [0x000, 0x048, 0x800, 0xBFC, 0x1000, 0x2FFC], off % 4 = 0 ∧
      (off ∈ [0x000, 0x00C, 0x028, 0x030, 0x03C, 0x040, 0x044, 0x048] ∨
        (0x800 ≤ off ∧ off < 0xC00) ∨ (0x1000 ≤ off ∧ off < 0x3000))) ∧
    (∀ off ∈ [0x004, 0x04C, 0x3FC, 0xC00, 0xFFC, 0x3000, 0x3FFC], off % 4 = 0 ∧
      (off = 0x004 ∨ (0x04C ≤ off ∧ off < 0x400) ∨ (0xC00 ≤ off ∧ off < 0x1000) ∨
        (0x3000 ≤ off ∧ off < 0x4000))) ∧
    (∀ off, (facing .idle (.portWrite off 4 5#32)).phase = .idle ∧
      (facing .idle (.portWrite off 4 5#32)).agenda =
        .portWrite ((facing .idle (.portWrite off 4 5#32)).cfg.csrBase + off) 4 5#32 :: [.engine] ∧
      (facing .run (.portRead off 4)).agenda =
        .portRead ((facing .run (.portRead off 4)).cfg.csrBase + off) 4 :: [.engine]) :=
  ⟨by decide, by decide, fun off => ⟨rfl,
    by show [HostOp.portWrite off 4 5#32, .engine] = [.portWrite (0 + off) 4 5#32, .engine]; rw [Nat.zero_add],
    by show [HostOp.portRead off 4, .engine] = [.portRead (0 + off) 4, .engine]; rw [Nat.zero_add]⟩⟩

/-- The last symbol and the last word of its code. -/
theorem witness_WindowAccesses :
    let sym : Fin 256 := 255
    let w : Fin 8 := 7
    let s := { facing .run (.portRead 0x7FC 4) with codesValid := true }
    let u := { s with agenda := [.portRead 0xBFC 4] }
    let v := { s with agenda := [.portRead 0x2FFC 4] }
    let x := facing .idle (.portWrite 0x7FC 4 9#32)
    s.agenda = .portRead (s.cfg.csrBase + (0x400 + 4 * sym.val)) 4 :: [.engine] ∧
      (x.phase = .idle ∧ x.agenda = .portWrite (x.cfg.csrBase + (0x400 + 4 * sym.val)) 4 9#32 :: [.engine]) ∧
      (u.codesValid = true ∧ u.agenda = .portRead (u.cfg.csrBase + (0x800 + 4 * sym.val)) 4 :: []) ∧
      (v.codesValid = true ∧ v.agenda = .portRead (v.cfg.csrBase + (0x1000 + 32 * sym.val + 4 * w.val)) 4 :: []) :=
  ⟨rfl, ⟨rfl, rfl⟩, ⟨rfl, rfl⟩, rfl, rfl⟩

/-- A byte access, an access that is not aligned at the last byte of the port, and a double-word access. -/
theorem witness_NarrowPortAccessRefused :
    ((0x018 < 0x4000 ∧ (1 ≠ 4 ∨ 0x018 % 4 ≠ 0)) ∧
      (facing .run (.portRead 0x018 1)).agenda = .portRead (0 + 0x018) 1 :: [.engine]) ∧
    ((0x3FFF < 0x4000 ∧ (4 ≠ 4 ∨ 0x3FFF % 4 ≠ 0)) ∧
      (facing .run (.portWrite 0x3FFF 4 5#32)).agenda = .portWrite (0 + 0x3FFF) 4 5#32 :: [.engine]) ∧
    ((0x000 < 0x4000 ∧ (8 ≠ 4 ∨ 0x000 % 4 ≠ 0)) ∧
      (facing .idle (.portRead 0x000 8)).agenda = .portRead (0 + 0x000) 8 :: [.engine]) :=
  ⟨⟨by decide, rfl⟩, ⟨by decide, rfl⟩, by decide, rfl⟩

theorem witness_InterruptRegisterWrites :
    ((1#32).getLsbD 1 = false ∧
      (facing .run (.portWrite 0x008 4 1#32)).agenda = .portWrite (0 + 0x008) 4 1#32 :: [.engine]) ∧
    (facing .run (.portWrite 0x010 4 1#32)).agenda = .portWrite (0 + 0x010) 4 1#32 :: [.engine] :=
  ⟨⟨by decide, rfl⟩, rfl⟩

/-- Each range of the dropped writes at its first and last word. -/
theorem witness_AccessesWhileBusy :
    (∀ op, Invariant (facing .run op) ∧ (facing .run op).phase = .run) ∧
    (∀ off ∈ [0x014, 0x000, 0x048, 0x400, 0xBFC, 0x1000, 0x2FFC], off % 4 = 0 ∧ (off = 0x014 ∨
      off ∈ [0x000, 0x00C, 0x018, 0x01C, 0x020, 0x024, 0x028, 0x02C, 0x030, 0x034, 0x038, 0x03C, 0x040, 0x044,
        0x048] ∨ (0x400 ≤ off ∧ off < 0xC00) ∨ (0x1000 ≤ off ∧ off < 0x3000))) ∧
    (facing .run (.portWrite 0x014 4 5#32)).agenda = .portWrite (0 + 0x014) 4 5#32 :: [.engine] ∧
    (facing .run (.portRead 0x00C 4)).agenda = .portRead (0 + 0x00C) 4 :: [.engine] :=
  ⟨fun op => ⟨facing_invariant _ op, rfl⟩, by decide, rfl, rfl⟩

theorem not_builds {i : Instr} {s : State} (h : reachesBuild i s = false) : ¬ s.buildsTree i :=
  fun hb => by rw [reachesBuild_iff.2 hb] at h; cases h

/-- The machine with a STATUS read before the engine's turn and the word in the latch. -/
def polled (w : Word) : State := { facing .run (.portRead 0x00C 4) with curCmd := w }

/-- A STATUS read while these commands run: TREE_DESTROY; ENCODE that fails its prologue, and with a source byte that
cannot be read; DECODE with a malformed header, with a table that does not fit, with too small a capacity, and with a
header byte that cannot be read. -/
theorem witness_AccessesWhileBusy_still :
    let d := { polled 0x32#32 with tree := smallTree }
    let u := { polled 0x1#32 with srcAddr := 0xFFFF#32, srcLen := 2#32 }
    let r := { polled 0x1#32 with cfg := { Config.default with memFaults := [(0x107, .read)] } }
    let v := polled 0x2#32
    let x := { v with srcLen := 16#32, mem := holding 0x100 [0x10#8] }
    let y := { v with srcLen := 20#32, mem := holding 0x100 [0x14#8, 0#8, 0#8, 0#8, 9#8] }
    let z := { y with dstCap := 9#32, cfg := { Config.default with memFaults := [(0x113, .read)] } }
    (d.running .treeDestroy ∧ ¬ d.buildsTree .treeDestroy ∧ d.tree.state = .rooted ∧
      d.agenda = .portRead (d.cfg.csrBase + 0x00C) 4 :: [.engine]) ∧
    (u.running .encode ∧ ¬ u.buildsTree .encode ∧ u.tree.state = .empty) ∧
    (r.running .encode ∧ ¬ r.buildsTree .encode ∧ exec .encode r = .next (after .encode r) ∧
      (after .encode r).errCode = .memFault) ∧
    (v.running .decode ∧ ¬ v.buildsTree .decode ∧ exec .decode v = .next (after .decode v) ∧
      (after .decode v).errCode = .malformedHeader) ∧
    (¬ x.buildsTree .decode ∧ exec .decode x = .next (after .decode x) ∧
      (after .decode x).errCode = .invalidFrequencyData) ∧
    (¬ y.buildsTree .decode ∧ exec .decode y = .next (after .decode y) ∧ (after .decode y).errCode = .dstOverflow) ∧
    (¬ z.buildsTree .decode ∧ exec .decode z = .next (after .decode z) ∧ (after .decode z).errCode = .memFault) :=
  ⟨⟨⟨rfl, rfl⟩, not_builds rfl, rfl, rfl⟩, ⟨⟨rfl, rfl⟩, not_builds (by decide +kernel), rfl⟩,
    ⟨⟨rfl, rfl⟩, not_builds (by decide +kernel), exec_after _ _, by decide +kernel⟩,
    ⟨⟨rfl, rfl⟩, not_builds (by decide +kernel), exec_after _ _, by decide +kernel⟩,
    ⟨not_builds (by decide +kernel), exec_after _ _, by decide +kernel⟩,
    ⟨not_builds (by decide +kernel), exec_after _ _, by decide +kernel⟩,
    not_builds (by decide +kernel), exec_after _ _, by decide +kernel⟩

theorem encode_overflows {s : State} (h : reachesBuild .encode s = true) (hc : s.dstCap.toNat ≤ 19) :
    (after .encode s).errCode = .dstOverflow := by
  rcases reachesBuild_spec h with ⟨_, data, h⟩ | ⟨h, _⟩ | ⟨h, _⟩
  · have h' := checkCapacity_over (s := s) (n := (headerBytes (count data) s.srcLen.toNat).length +
      ceil8 (symbols.map (fun sym => (count data)[sym].toNat *
        (deriveCodes (buildTree (count data) s.tree).arena)[sym].length)).sum)
      (lt_of_le_of_lt hc (header_needs _ _ _))
    unfold after
    rw [exec_eq]
    simp only [runOf, runEncode, h, ok_bind, h']
    rfl
  · cases h
  · cases h

/-- A STATUS read at the first stage and at the last while TREE_BUILD runs, and a step from one busy state to the
next. -/
theorem witness_AccessesWhileBusy_moving :
    (∀ b ∈ [BuildStage.notBegun, .rooted],
      let s := { polled 0x30#32 with buildStage := b }
      s.running .treeBuild ∧ s.agenda = .portRead (s.cfg.csrBase + 0x00C) 4 :: [.engine] ∧ s.buildsTree .treeBuild ∧
        exec .treeBuild s = .next (after .treeBuild s) ∧ (after .treeBuild s).err = false ∧
        (s.buildStage, b.rank) ∈ buildOrder ∧ b.rank ≤ 3) ∧
    (let s := facing .run (.portRead 0x014 4);
      step s = .next (stepped s) ∧ s.phase = .run ∧ (stepped s).phase = .run ∧ (s.buildStage, 0) ∈ buildOrder ∧
        ((stepped s).buildStage, 0) ∈ buildOrder) := by
  refine ⟨fun b hb => ⟨⟨rfl, rfl⟩, rfl, reachesBuild_iff.1 rfl, exec_after _ _, treeBuild_done _ rfl,
      (mem_buildOrder _ _).2 rfl, ?_⟩, rfl, rfl, rfl, .head _, .head _⟩
  simp only [List.mem_cons, List.not_mem_nil, or_false] at hb
  rcases hb with rfl | rfl <;> decide

/-- ENCODE whose stream does not fit, and ENCODE with a byte of DST that cannot be written, get to `build_tree`. -/
theorem witness_AccessesWhileBusy_encode :
    (let s := polled 0x1#32;
      s.running .encode ∧ s.buildsTree .encode ∧ exec .encode s = .next (after .encode s) ∧
        (after .encode s).errCode = .dstOverflow) ∧
    (let s := { polled 0x1#32 with cfg := { Config.default with memFaults := [(0x200, .write)] } };
      s.running .encode ∧ s.buildsTree .encode) := by
  have h : reachesBuild .encode (polled 0x1#32) = true := by decide +kernel
  exact ⟨⟨⟨rfl, rfl⟩, reachesBuild_iff.1 h, exec_after _ _, encode_overflows h (by decide)⟩, ⟨rfl, rfl⟩,
    reachesBuild_iff.1 (by decide +kernel)⟩

/-- A stream that ends with its header and promises eight bytes. -/
theorem decode_truncates {s : State}
    (h : ((decodeInput s).toOption.map fun hdr => (hdr.dataLength, hdr.headerLength)) = some (8, s.srcLen.toNat)) :
    (after .decode s).errCode = .truncatedStream := by
  cases hd : decodeInput s with
  | error e => simp [hd, Except.toOption] at h
  | ok hdr =>
    simp only [hd, Except.toOption, Option.map_some, Option.some.injEq, Prod.mk.injEq] at h
    have hB := (buildTree_spec hdr.table s.tree).1
    generalize hT : buildTree hdr.table s.tree = T at hB
    obtain ⟨l, r, hk, _⟩ := hB.internal 510 (by decide)
    have hw : ∀ base dst m, decodeBody s.cfg T base 0 dst 8 0 0 m =
        .error { code := .truncatedStream, info := 0#32, mem := m } := fun base dst m => by
      simp only [decodeBody, decodeOneAt, hB.root, Nat.sub_self, walk, hk]
      rfl
    unfold after
    rw [exec_eq]
    simp only [runOf, runDecode, hd, ok_bind, h.1, h.2, Nat.sub_self, hT, Nat.mul_zero, hw]
    rfl

/-- DECODE whose stream ends before its first symbol, and DECODE with a byte of the body that cannot be read, get to
`build_tree`. -/
theorem witness_AccessesWhileBusy_decode :
    (let s := { polled 0x2#32 with srcLen := 20#32, mem := holding 0x100 [0x14#8, 0#8, 0#8, 0#8, 8#8] };
      s.running .decode ∧ s.buildsTree .decode ∧ exec .decode s = .next (after .decode s) ∧
        (after .decode s).errCode = .truncatedStream) ∧
    (let s := { polled 0x2#32 with
        srcLen := 21#32, mem := holding 0x100 [0x14#8, 0#8, 0#8, 0#8, 8#8]
        cfg := { Config.default with memFaults := [(0x114, .read)] } };
      s.running .decode ∧ s.buildsTree .decode) :=
  ⟨⟨⟨rfl, rfl⟩, reachesBuild_iff.1 (by decide +kernel), exec_after _ _, decode_truncates (by decide +kernel)⟩, ⟨rfl, rfl⟩,
    reachesBuild_iff.1 (by decide +kernel)⟩

/-! Shared memory and the host -/

/-- The first and the last byte of SRC and of DST, and the bytes next to them; bytes of SRC while FREQ_COMPRESS runs and
of DST while FREQ_BUILD does, which do not use them. -/
theorem witness_HostMemoryAccesses :
    let s := { facing .run (.memRead 0x207) with curCmd := 0x10#32 }
    s.cfg.devices = [] ∧ s.running .bitsPack ∧ usesSrc .bitsPack = true ∧ usesDst .bitsPack = true ∧
      (∀ a ∈ [0x100, 0x107], a < s.cfg.memSize ∧ s.inSrc a = true) ∧
      (∀ a ∈ [0x200, 0x207], a < s.cfg.memSize ∧ s.inDst a = true) ∧
      (∀ a ∈ [0xFF, 0x108, 0x1FF, 0x208, 0xFFFF], a < s.cfg.memSize ∧ s.inSrc a = false ∧ s.inDst a = false) ∧
      (({ s with curCmd := 0x21#32 } : State).running .freqCompress ∧ usesSrc .freqCompress = false ∧
        s.inDst 0x107 = false) ∧
      (({ s with curCmd := 0x20#32 } : State).running .freqBuild ∧ usesDst .freqBuild = false ∧
        s.inSrc 0x207 = false) ∧
      s.agenda = .memRead 0x207 :: [.engine] ∧
      ({ s with agenda := [.memWrite 0x107 9#8] } : State).agenda = .memWrite 0x107 9#8 :: [] ∧
      (facing .idle (.memWrite 0x107 9#8)).phase = .idle :=
  ⟨rfl, ⟨rfl, rfl⟩, rfl, rfl, by decide, by decide, by decide, ⟨⟨rfl, rfl⟩, rfl, by decide⟩,
    ⟨⟨rfl, rfl⟩, rfl, by decide⟩, rfl, rfl, rfl⟩

/-! Reset -/

/-- While idle, and while a command runs. -/
theorem witness_ResetValues :
    (∀ p, (facing p .rst).agenda = .rst :: [.engine]) ∧ (facing .idle .rst).phase = .idle ∧
      ({ facing .run .rst with agenda := [.rst] } : State).agenda = .rst :: [] := ⟨fun _ => rfl, rfl, rfl⟩

theorem witness_SoftResetIsReset : (2#32).getLsbD 1 = true ∧ (3#32).getLsbD 1 = true := by decide

theorem witness_ResetAbandonsTheCommand :
    let s := { facing .run .rst with curCmd := 0x10#32 }
    let u := { facing .run .rst with curCmd := 0x20#32 }
    (s.running .bitsPack ∧ s.agenda = .rst :: [.engine] ∧ usesSrc .bitsPack = true ∧ s.inSrc 0x107 = true) ∧
    (u.running .freqBuild ∧ u.agenda = .rst :: [.engine] ∧ usesDst .freqBuild = false) :=
  ⟨⟨⟨rfl, rfl⟩, rfl, rfl, by decide⟩, ⟨rfl, rfl⟩, rfl, rfl⟩

/-! Whole-machine rules -/

theorem engine_step {s : State} {i : Instr} (hr : s.running i) (ha : s.agenda = []) (hd : s.cfg.devices = []) :
    step s = .next (after i s) := by
  have hc : s.coversDevice i = false := by simp [State.coversDevice, hd]
  have hb : s.busy = true := by simp [State.busy, hr.1]
  simp only [step, ha, engineTurn, hb, if_true]
  rw [runLatched_ok (i := i) (by rw [hr.2]; cases i <;> decide), hc, exec_after]
  rfl

/-- A step for each way the codes may go: kept, derived, reset. -/
theorem witness_CodesChangeOnlyByDeriveEncodeOrReset :
    (let s := { built 0 0 0 0 [] with curCmd := 0x31#32 };
      step s = .next (after .codesDerive s) ∧ s.running .codesDerive) ∧
    (let s := { probe 0x100 1 0x200 8 [] with curCmd := 0x10#32 };
      step s = .next (after .bitsPack s) ∧ s.running .bitsPack) ∧
    step (facing .run .rst) = .next (assertReset { facing .run .rst with agenda := [.engine] }) :=
  ⟨⟨engine_step ⟨rfl, rfl⟩ rfl rfl, rfl, rfl⟩, ⟨engine_step ⟨rfl, rfl⟩ rfl rfl, rfl, rfl⟩, rfl⟩

/-- A step for each way a rooted tree may go: kept, destroyed, reset. -/
theorem witness_RootedTreeLastsUntilDestroyed :
    (let s := { rooted 0x100 1 0x200 8 [] with curCmd := 0x10#32 };
      step s = .next (after .bitsPack s) ∧ s.tree.state = .rooted) ∧
    (let s := { rooted 0 0 0 0 [] with curCmd := 0x32#32 };
      step s = .next (after .treeDestroy s) ∧ s.tree.state = .rooted ∧ s.running .treeDestroy) ∧
    (let s := { rooted 0 0 0 0 [] with agenda := [.portWrite 0x008 4 2#32] };
      step s = .next (assertReset { s with agenda := [] }) ∧ s.tree.state = .rooted ∧ (2#32).getLsbD 1 = true) :=
  ⟨⟨engine_step ⟨rfl, rfl⟩ rfl rfl, rfl⟩, ⟨engine_step ⟨rfl, rfl⟩ rfl rfl, rfl, rfl, rfl⟩, rfl, rfl, by decide⟩

/-- Before a command's run and before an access while it runs. -/
theorem witness_StepKeepsInvariant :
    (let s := { probe 0x100 8 0x200 1 [] with curCmd := 0x10#32 };
      Invariant s ∧ step s = .next (after .bitsPack s)) ∧
    (Invariant (facing .run (.portWrite 0x018 4 5#32)) ∧
      step (facing .run (.portWrite 0x018 4 5#32)) =
        .next { facing .run (.portWrite 0x018 4 5#32) with agenda := [.engine], wrIgnored := true }) :=
  ⟨⟨probe_invariant 0x100 8 0x200 1, engine_step ⟨rfl, rfl⟩ rfl rfl⟩, facing_invariant _ _, rfl⟩

end Sys2Proof.Machine
end

section
/-! PROOFS. The family of the engine's state: what stands in each register and window and what a host access does to it
(10_state.md R33 to R55), what a command and a step leave unchanged, and the invariant. -/

namespace Sys2Proof.Machine

/-! ### The decoder and the command words -/

theorem opcodeMap_rows : ∀ r ∈ opcodeMap, r.mask = BitVec.allOnes 32 ∧ r.pattern = encode r.instr := by decide

/-- A word that decodes to a command is the command's word (30_encoding.md R112). -/
theorem eq_encode_of_decodeWord {w : Word} {i : Instr} (h : decodeWord w = .ok i) : w = encode i := by
  unfold decodeWord at h
  split at h
  · rename_i r hr
    cases h
    obtain ⟨hmask, hpattern⟩ := opcodeMap_rows r (List.mem_of_find?_eq_some hr)
    have hs : w &&& r.mask = r.pattern := by simpa [OpcodeRow.selects] using List.find?_some hr
    rw [← hpattern, ← hs, hmask, BitVec.and_allOnes]
  · cases h

theorem decodeWord_encode (i : Instr) : decodeWord (encode i) = .ok i := by cases i <;> decide

/-- The latch holds the command's word, so the decoder reads the command from it. -/
theorem State.running.decodes {s : State} {i : Instr} (h : s.running i) : decodeWord s.curCmd = .ok i := by
  rw [h.2, decodeWord_encode]

/-! ### The codes a command commits -/

/-- Every code in the RAM has 1 to 255 bits, and the RAM bits above it are 0 (10_state.md R54, R55). -/
def State.CodesWf (s : State) : Prop :=
  ∀ sym : Fin 256, 1 ≤ (s.codeLen[sym]).toNat ∧
    ∀ k, (s.codeLen[sym]).toNat ≤ k → (s.codeBits[sym]).getLsbD k = false

theorem State.CodesWf.of_eq {s t : State} (h : s.CodesWf) (hlen : t.codeLen = s.codeLen)
    (hbits : t.codeBits = s.codeBits) : t.CodesWf := by
  unfold State.CodesWf
  rw [hlen, hbits]
  exact h

/-- The code RAM written from a built tree is well formed. -/
theorem commitCodes_wf {T : Tree} (hT : T.Built) (s : State) : (s.commitCodes (deriveCodes T.arena)).CodesWf := by
  intro sym
  obtain ⟨_, hlo, hhi⟩ := codeOf_spec hT sym
  have hlen : ((s.commitCodes (deriveCodes T.arena)).codeLen[sym]).toNat = (codeOf T.arena sym).length := by
    simpa [deriveCodes] using hhi.trans_lt (by decide : 255 < 256)
  refine ⟨hlen ▸ hlo, fun k hk => ?_⟩
  rw [hlen] at hk
  simp [deriveCodes, getLsbD_ofNat_bitsValue, List.getElem?_eq_none hk]

/-- ENCODE and CODES_DERIVE commit the codes of a tree: the one ENCODE built, or the ROOTED one of the state. -/
theorem run_commits_codes {i : Instr} {s t : State} (hi : i = .encode ∨ i = .codesDerive) (h : runOf i s = .ok t) :
    ∃ T : Tree, (T.Built ∨ (T = s.tree ∧ s.tree.state = .rooted)) ∧ t.codesValid = true ∧
      t.codeLen = (s.commitCodes (deriveCodes T.arena)).codeLen ∧
      t.codeBits = (s.commitCodes (deriveCodes T.arena)).codeBits := by
  rcases hi with rfl | rfl
  · obtain ⟨data, _, h⟩ := ok_of_bind h
    obtain ⟨_, _, h⟩ := ok_of_bind h
    obtain ⟨m, _, h⟩ := ok_of_bind h
    cases h
    exact ⟨buildTree (count data) s.tree, .inl (buildTree_spec _ _).1, rfl, rfl, rfl⟩
  · obtain ⟨_, hr, h⟩ := ok_of_bind h
    cases h
    exact ⟨s.tree, .inr ⟨rfl, requireRooted_pass hr⟩, rfl, rfl, rfl⟩

/-! ### The tree a command commits -/

/-- Clearing a vacant or a built arena leaves a vacant one. -/
theorem Tree.clear_vacant_or_built {t : Tree} (h : t.Vacant ∨ t.Built) : t.clear.Vacant :=
  Tree.vacant_clear (h.elim (·.pq) (·.pq))

/-- A command that succeeds leaves the arena vacant or built. -/
theorem run_commits_tree {i : Instr} {s t : State} (hs : s.tree.Vacant ∨ s.tree.Built) (h : runOf i s = .ok t)
    (hc : CommitSpec i s t) : t.tree.Vacant ∨ t.tree.Built := by
  by_cases hi : i ∈ [Instr.encode, .decode, .treeBuild, .treeDestroy]
  · simp only [List.mem_cons, List.not_mem_nil, or_false] at hi
    rcases hi with rfl | rfl | rfl | rfl
    · obtain ⟨data, _, h⟩ := ok_of_bind h
      obtain ⟨_, _, h⟩ := ok_of_bind h
      obtain ⟨m, _, h⟩ := ok_of_bind h
      cases h
      exact .inl (Tree.clear_vacant_or_built (.inr (buildTree_spec _ _).1))
    · obtain ⟨hdr, _, h⟩ := ok_of_bind h
      obtain ⟨r, _, h⟩ := ok_of_bind h
      cases h
      exact .inl (Tree.clear_vacant_or_built (.inr (buildTree_spec _ _).1))
    · obtain ⟨_, _, h⟩ := ok_of_bind h
      cases h
      dsimp only
      exact .inr (buildTree_spec s.freq s.tree).1
    · obtain ⟨_, _, h⟩ := ok_of_bind h
      cases h
      exact .inl (Tree.clear_vacant_or_built hs)
  · simp only [List.mem_cons, List.not_mem_nil, or_false, not_or] at hi
    obtain ⟨h1, h2, h3, h4⟩ := hi
    rw [hc.tree h1 h2 h3 h4]
    exact hs

/-- Completion keeps an arena vacant or built. -/
theorem complete_tree_wf {codec : Bool} {code : ErrCode} {info : Word} {s : State} (h : s.tree.Vacant ∨ s.tree.Built) :
    (complete codec code info s).tree.Vacant ∨ (complete codec code info s).tree.Built := by
  rw [complete_tree]
  split
  · exact .inl (Tree.clear_vacant_or_built h)
  · exact h

/-! ### The invariant and shared memory -/

/-- Memory is canonical and lists bytes of the address space alone. -/
def Memory.Canonical (m : Memory) (size : Nat) : Prop := m.wf ∧ ∀ c ∈ m, c.1 < size

theorem Invariant.canonical {s : State} (h : Invariant s) : s.mem.Canonical s.cfg.memSize := ⟨h.memWf, h.memRange⟩

/-- Writes inside the address space keep memory canonical. -/
theorem Touches.canonical {m m' : Memory} {lo n size : Nat} (h : Touches m m' lo n) (hs : lo + n ≤ size)
    (hm : m.Canonical size) : m'.Canonical size :=
  ⟨h.wf hm.1, h.range size hs hm.2⟩

/-- A write of a byte of the address space keeps memory canonical. -/
theorem Memory.Canonical.write {m : Memory} {size a : Nat} (h : m.Canonical size) (ha : a < size) (v : Byte) :
    (m.write a v).Canonical size :=
  (Touches.write m v (le_refl a) (Nat.lt_add_one a)).canonical (n := 1) ha h

theorem CommitSpec.canonical {i : Instr} {s t : State} (hc : CommitSpec i s t) (h : Invariant s) :
    t.mem.Canonical s.cfg.memSize := by
  by_cases hu : usesDst i = true
  · obtain ⟨ht, hl, hr⟩ := hc.dst hu
    have hr := (dstInRange_iff s).1 hr
    exact ht.canonical (by omega) h.canonical
  · rw [(hc.noDst (by simpa using hu)).1]
    exact h.canonical

theorem RaiseSpec.canonical {i : Instr} {s : State} {e : Raise} (he : RaiseSpec i s e) (h : Invariant s) :
    e.mem.Canonical s.cfg.memSize := by
  by_cases hm : e.mem = s.mem
  · rw [hm]
    exact h.canonical
  · exact he.touches.canonical ((dstInRange_iff s).1 (he.range hm).2) h.canonical

/-! ### The invariant at a completion -/

/-- A completion meets the invariant when what it commits does, and a failure leaves RESULT_LEN 0. -/
theorem complete_meets_invariant {codec : Bool} {code : ErrCode} {info : Word} {t : State}
    (hmem : t.mem.Canonical t.cfg.memSize) (htree : t.tree.Vacant ∨ t.tree.Built)
    (hcodes : t.codesValid = true → t.CodesWf) (hinfo : code = .none → info = 0#32)
    (hresult : code ≠ .none → t.resultLen = 0#32) :
    Invariant (complete codec code info t) where
  memWf := hmem.1
  memRange := hmem.2
  busyClear := fun h => by cases h
  errExact := by simp
  infoClear := hinfo
  resultClear := fun h => hresult (by simpa using h)
  tree := complete_tree_wf htree
  codes := hcodes
  runsCommand := fun h => by cases h
  noBuild := fun _ => rfl

/-- A command that succeeds from a state that meets the invariant leaves codes that meet it. -/
theorem run_codes_wf {i : Instr} {s t : State} (h : Invariant s) (hr : runOf i s = .ok t) (hc : CommitSpec i s t)
    (hv : t.codesValid = true) : t.CodesWf := by
  by_cases hi : i = .encode ∨ i = .codesDerive
  · obtain ⟨T, hT, _, hlen, hbits⟩ := run_commits_codes hi hr
    have hB : T.Built := by
      rcases hT with hT | ⟨rfl, hrooted⟩
      · exact hT
      · exact h.tree.resolve_left fun hv => by rw [hv.empty] at hrooted; cases hrooted
    exact (commitCodes_wf hB s).of_eq hlen hbits
  · obtain ⟨h1, h2⟩ := not_or.1 hi
    obtain ⟨hvalid, hlen, hbits⟩ := hc.codes h1 h2
    exact State.CodesWf.of_eq (h.codes (hvalid ▸ hv)) hlen hbits

/-- A command's run keeps the invariant (from RESULT_LEN = 0, as acceptance leaves it), and the platform. -/
theorem exec_keeps_invariant {i : Instr} {s t : State} (h : Invariant s) (hl : s.resultLen = 0#32)
    (he : exec i s = .next t) : Invariant t ∧ t.cfg = s.cfg := by
  rcases exec_cases i s with ⟨u, hr, hc, hx⟩ | ⟨e, hr, hc, hx⟩ <;> rw [hx] at he <;> cases he
  · have hcfg : u.cfg = s.cfg := by rw [hc.frame]
    refine ⟨complete_meets_invariant ?_ (run_commits_tree h.tree hr hc) (run_codes_wf h hr hc) (fun _ => rfl)
      (fun hn => absurd rfl hn), hcfg⟩
    rw [hcfg]
    exact hc.canonical h
  · refine ⟨complete_meets_invariant (hc.canonical h) h.tree h.codes (fun hn => ?_) (fun _ => hl), rfl⟩
    exact absurd (hn ▸ hc.code) (none_not_reported i)

/-! ### The invariant at the other steps -/

/-- Nothing the invariant speaks of depends on the agenda. -/
theorem Invariant.withAgenda {s : State} (h : Invariant s) (rest : List HostOp) : Invariant { s with agenda := rest } :=
  { h with }

theorem Invariant.withMem {s : State} (h : Invariant s) {m : Memory} (hm : m.Canonical s.cfg.memSize) :
    Invariant { s with mem := m } :=
  { h with memWf := hm.1, memRange := hm.2 }

/-- The engine's turn keeps the invariant and the platform. -/
theorem engineTurn_keeps_invariant {s t : State} (h : Invariant s) (ht : engineTurn s = .next t) :
    Invariant t ∧ t.cfg = s.cfg := by
  rcases engineTurn_cases ht with ⟨_, rfl⟩ | ⟨i, hp, _, _, he⟩ | ⟨hp, rfl⟩
  · exact ⟨h, rfl⟩
  · obtain ⟨_, _, _, hl, _⟩ := h.busyClear hp
    exact exec_keeps_invariant h hl he
  · obtain ⟨_, _, _, hl, _⟩ := h.busyClear hp
    rw [← complete_false]
    exact ⟨complete_meets_invariant h.canonical h.tree h.codes (fun hn => by cases hn) (fun _ => hl), rfl⟩

/-- A read changes the stage of a build alone, and not while no command runs. -/
theorem hostReadReg_keeps_invariant {s : State} (h : Invariant s) (r : PortReg) : Invariant (hostReadReg s r) :=
  { h with
    noBuild := fun hp => by
      have hp : s.phase = .idle := hp
      rw [hostReadReg_buildStage, stageNow_still (treeInMotion_idle hp), ite_self]
      exact h.noBuild hp }

/-- Acceptance latches a command with the completion fields cleared, or completes an illegal word. -/
theorem accept_keeps_invariant {s : State} (h : Invariant s) (w : Word) : Invariant (accept w s) := by
  cases hd : decodeWord w with
  | ok i =>
    rw [accept_ok hd]
    exact { h with
      busyClear := fun _ => ⟨rfl, rfl, rfl, rfl, rfl⟩
      errExact := by simp
      infoClear := fun _ => rfl
      resultClear := fun _ => rfl
      runsCommand := fun _ => ⟨i, eq_encode_of_decodeWord hd⟩
      noBuild := fun hp => by cases hp }
  | error e =>
    rw [accept_error hd, ← complete_false]
    exact complete_meets_invariant h.canonical h.tree h.codes (fun hn => by cases hn) (fun _ => rfl)

/-- A reset leaves a state that meets the invariant. -/
theorem assertReset_keeps_invariant {s : State} (h : Invariant s) :
    Invariant (assertReset s) ∧ (assertReset s).cfg = s.cfg := by
  obtain ⟨m, d, heq, _, hm⟩ := assertReset_spec s
  rw [heq]
  have hcanon : m.Canonical s.cfg.memSize := by
    rcases hm with rfl | ⟨hw, rfl⟩
    · exact h.canonical
    · obtain ⟨i, _, _, hr, _⟩ := mayHaveWritten_spec hw
      exact (s.mem.havoc_touches _ _ _).canonical ((dstInRange_iff s).1 hr) h.canonical
  exact ⟨{
    memWf := hcanon.1
    memRange := hcanon.2
    busyClear := fun hp => by cases hp
    errExact := by simp [State.reset]
    infoClear := fun _ => rfl
    resultClear := fun _ => rfl
    tree := .inl ⟨rfl, rfl, fun i => by simp [State.reset, Tree.unbuilt, Node.unused]⟩
    codes := fun hv => by cases hv
    runsCommand := fun hp => by cases hp
    noBuild := fun _ => rfl }, rfl⟩

theorem writeIrqStatus_keeps_invariant {s : State} (h : Invariant s) (v : Word) : Invariant (writeIrqStatus s v) := by
  unfold writeIrqStatus
  split
  · exact { h with }
  · exact h

theorem writeCtrl_keeps_invariant {s : State} (h : Invariant s) (v : Word) : Invariant (writeCtrl s v) := by
  unfold writeCtrl
  split
  · exact (assertReset_keeps_invariant h).1
  · exact { h with }

theorem hostWriteReg_keeps_invariant {s : State} (h : Invariant s) (r : PortReg) (v : Word) :
    Invariant (hostWriteReg s r v) := by
  unfold hostWriteReg
  split <;> cases r
  case isTrue.ctrl | isFalse.ctrl => exact writeCtrl_keeps_invariant h v
  case isTrue.irqStatus | isFalse.irqStatus => exact writeIrqStatus_keeps_invariant h v
  case isFalse.cmd => exact accept_keeps_invariant h v
  all_goals exact { h with }

theorem hostWriteReg_cfg (s : State) (r : PortReg) (v : Word) : (hostWriteReg s r v).cfg = s.cfg := by
  rcases hostWriteReg_cases s r v with ⟨_, _, heq⟩ | hk
  · obtain ⟨m, d, hr, _⟩ := assertReset_spec s
    rw [heq, hr]
  · exact hk.cfg

/-- Settles O60, by the cases of a step. -/
theorem stepKeepsInvariant : Obligations.StepKeepsInvariant := by
  intro s t h hs
  rcases step_cases hs with ⟨rest, ht⟩ | ⟨r, rest, rfl⟩ | ⟨off, v, rest, _, rfl⟩ | ⟨a, rest, rfl⟩ |
    ⟨a, v, rest, ha, rfl⟩ | ⟨rest, _, rfl⟩
  · exact engineTurn_keeps_invariant (s := { s with agenda := rest }) (h.withAgenda rest) ht
  · exact ⟨hostReadReg_keeps_invariant (h.withAgenda rest) r, rfl⟩
  · exact ⟨hostWriteReg_keeps_invariant (h.withAgenda rest) _ v, hostWriteReg_cfg _ _ v⟩
  · exact ⟨{ h with }, rfl⟩
  · exact ⟨(h.withAgenda rest).withMem (h.canonical.write ha v), rfl⟩
  · exact assertReset_keeps_invariant (s := { s with agenda := rest }) (h.withAgenda rest)

/-! ### Words and their fields -/

theorem toNat_append_add {n m : Nat} (x : BitVec n) (y : BitVec m) :
    (x ++ y).toNat = x.toNat * 2 ^ m + y.toNat := by
  rw [BitVec.toNat_append, ← Nat.shiftLeft_add_eq_or_of_lt y.isLt, Nat.shiftLeft_eq]

theorem extractLsb'_eq_ofNat {n : Nat} (x : BitVec n) (start len : Nat) :
    x.extractLsb' start len = BitVec.ofNat len (x.toNat / 2 ^ start) := by
  rw [BitVec.extractLsb', Nat.shiftRight_eq_div_pow]

/-- The upper half of a two-word register as its own word. -/
theorem highWord_eq_ofNat {n k : Nat} (x : BitVec n) (hn : n ≤ 32 + k) :
    (x.extractLsb' 32 k).setWidth 32 = BitVec.ofNat 32 (x.toNat / 2 ^ 32) := by
  have hlt : x.toNat / 2 ^ 32 < 2 ^ k := by
    rw [Nat.div_lt_iff_lt_mul (by positivity), ← pow_add, Nat.add_comm k]
    exact lt_of_lt_of_le x.isLt (Nat.pow_le_pow_right (by decide) hn)
  rw [extractLsb'_eq_ofNat, ← BitVec.ofNat_toNat, BitVec.toNat_ofNat, Nat.mod_eq_of_lt hlt]

/-- The STATUS word as a number (10_state.md R36). -/
theorem statusWith_toNat (s : State) (f : BitVec 2) : (s.statusWith f).toNat =
    s.busy.toNat + 2 * s.done.toNat + 4 * s.err.toNat + 8 * s.codesValid.toNat + 16 * f.toNat +
      64 * s.wrIgnored.toNat + 128 * s.cmdDropped.toNat + 256 * s.errCode.code.toNat := by
  simp only [State.statusWith, toNat_append_add, BitVec.toNat_ofBool, BitVec.toNat_ofNat]
  omega

/-- The single-bit fields of STATUS (10_state.md R36). -/
theorem statusWith_bits (s : State) (f : BitVec 2) :
    (s.statusWith f).getLsbD 0 = s.busy ∧ (s.statusWith f).getLsbD 1 = s.done ∧
      (s.statusWith f).getLsbD 2 = s.err ∧ (s.statusWith f).getLsbD 3 = s.codesValid ∧
      (s.statusWith f).getLsbD 6 = s.wrIgnored ∧ (s.statusWith f).getLsbD 7 = s.cmdDropped := by
  simp only [State.statusWith, BitVec.getLsbD_append, BitVec.getLsbD_ofBool]
  simp

/-- The wider fields of STATUS: TREE_STATE, ERRCODE and the bits above it (10_state.md R36). -/
theorem statusWith_fields (s : State) (f : BitVec 2) :
    (s.statusWith f).extractLsb' 4 2 = f ∧ (s.statusWith f).extractLsb' 8 4 = s.errCode.code ∧
      (s.statusWith f).extractLsb' 12 20 = 0#20 := by
  have hbusy := s.busy.toNat_le
  have hdone := s.done.toNat_le
  have herr := s.err.toNat_le
  have hvalid := s.codesValid.toNat_le
  have hign := s.wrIgnored.toNat_le
  have hdrop := s.cmdDropped.toNat_le
  have hfield := f.isLt
  have hcode := s.errCode.code.isLt
  simp only [extractLsb'_eq_ofNat, statusWith_toNat, ← BitVec.toNat_inj, BitVec.toNat_ofNat]
  omega

theorem busy_eq_decide (s : State) : s.busy = decide (s.phase = .run) := by
  cases hp : s.phase <;> simp [State.busy, hp]

/-- Settles O45, field by field. -/
theorem statusWordLayout : Obligations.StatusWordLayout := by
  intro s f
  obtain ⟨h0, h1, h2, h3, h6, h7⟩ := statusWith_bits s f
  obtain ⟨h4, h8, h12⟩ := statusWith_fields s f
  exact ⟨h0.trans (busy_eq_decide s), h1, h2, h3, h4, h6, h7, h8, h12⟩

/-! ### The offsets of the control port -/

theorem portReg_freq_at (sym : Fin 256) : portReg (0x400 + 4 * sym.val) = .freq sym := by
  rw [portReg_freq (by omega) (by omega)]
  congr 1
  ext
  simp only [Fin.val_ofNat]
  omega

theorem portReg_codeLen_at (sym : Fin 256) : portReg (0x800 + 4 * sym.val) = .codeLen sym := by
  rw [portReg_codeLen (by omega) (by omega)]
  congr 1
  ext
  simp only [Fin.val_ofNat]
  omega

theorem portReg_codeBits_at (sym : Fin 256) (w : Fin 8) :
    portReg (0x1000 + 32 * sym.val + 4 * w.val) = .codeBits sym w := by
  rw [portReg_codeBits (by omega) (by omega)]
  congr 1 <;> ext <;> simp only [Fin.val_ofNat] <;> omega

/-- The offsets at which nothing stands (10_state.md R34, 20_memory.md R87). -/
theorem portReg_reserved {off : Nat} (h : off = 0x004 ∨ (0x04C ≤ off ∧ off < 0x400) ∨ (0xC00 ≤ off ∧ off < 0x1000) ∨
    (0x3000 ≤ off ∧ off < 0x4000)) : portReg off = .reserved := by
  unfold portReg
  split
  · unfold namedReg
    split
    case h_19 => rfl
    all_goals omega
  · rw [if_neg (by omega)]
    split
    · omega
    · split
      · rfl
      · rw [if_neg (by omega)]

/-! ### Accesses at an offset, one rule each -/

/-! Nothing a read returns depends on the agenda. -/

@[simp] theorem treeInMotion_withAgenda (s : State) (rest : List HostOp) :
    State.treeInMotion { s with agenda := rest } = s.treeInMotion := rfl

@[simp] theorem stageNow_withAgenda (s : State) (rest : List HostOp) :
    State.stageNow { s with agenda := rest } = s.stageNow := rfl

@[simp] theorem statusWord_withAgenda (s : State) (rest : List HostOp) :
    State.statusWord { s with agenda := rest } = s.statusWord := rfl

@[simp] theorem readReg_withAgenda (s : State) (rest : List HostOp) (r : PortReg) :
    State.readReg { s with agenda := rest } r = s.readReg r := by cases r <;> rfl

@[simp] theorem readDraws_withAgenda (s : State) (rest : List HostOp) (r : PortReg) :
    State.readDraws { s with agenda := rest } r = s.readDraws r := by cases r <;> rfl

/-- A read of a register that neither draws a free value nor shows a build in flight changes the host's data alone. -/
theorem step_portRead_still {s : State} {off : Nat} {r : PortReg} {v : Word} {rest : List HostOp}
    (ha : s.agenda = .portRead (s.cfg.csrBase + off) 4 :: rest) (h : off < 0x4000) (h4 : off % 4 = 0)
    (hr : portReg off = r) (hm : r ≠ .status ∨ s.treeInMotion = false) (hd : s.readDraws r = false)
    (hv : s.readReg r = v) : step s = .next { s with agenda := rest, busData := v } := by
  rw [step_portRead ha h h4, hr, hostReadReg_still (by simpa using hm) (by simpa using hd), readReg_withAgenda, hv]

/-- A write of a register while no command runs. -/
theorem step_portWrite_idle {s t : State} {off : Nat} {r : PortReg} {v : Word} {rest : List HostOp}
    (hp : s.phase = .idle) (ha : s.agenda = .portWrite (s.cfg.csrBase + off) 4 v :: rest) (h : off < 0x4000)
    (h4 : off % 4 = 0) (hr : portReg off = r) (ht : writeIdle { s with agenda := rest } r v = t) : step s = .next t := by
  rw [step_portWrite ha h h4, hr, hostWriteReg_idle (s := { s with agenda := rest }) _ _ hp, ht]

/-- A write of a register while a command runs. -/
theorem step_portWrite_busy {s t : State} {off : Nat} {r : PortReg} {v : Word} {rest : List HostOp}
    (hp : s.phase = .run) (ha : s.agenda = .portWrite (s.cfg.csrBase + off) 4 v :: rest) (h : off < 0x4000)
    (h4 : off % 4 = 0) (hr : portReg off = r) (ht : writeBusy { s with agenda := rest } r v = t) : step s = .next t := by
  rw [step_portWrite ha h h4, hr, hostWriteReg_busy (s := { s with agenda := rest }) _ _ hp, ht]

/-! ### Reads -/

theorem readDraws_status (s : State) : s.readDraws .status = s.treeInMotion := rfl

theorem readReg_status (s : State) : s.readReg .status = s.statusWord := rfl

theorem statusWord_still {s : State} (h : s.treeInMotion = false) : s.statusWord = s.statusWith s.tree.state.code := by
  simp [State.statusWord, h]

theorem statusWord_moving {s : State} (h : s.treeInMotion = true) :
    s.statusWord = s.statusWith s.stageNow.shows.code := by
  simp [State.statusWord, h]

/-- The encoding of TREE_STATE (10_state.md R40). -/
theorem treeState_codes :
    ∀ p ∈ [(TreeState.empty, 0), (.seeding, 1), (.merging, 2), (.rooted, 3)], p.1.code.toNat = p.2 := by decide

/-- The encoding of ERRCODE (60_exceptions.md R280). -/
theorem errCode_codes :
    ∀ p ∈ [(ErrCode.none, 0), (.illegalCmd, 1), (.bounds, 2), (.overlap, 3), (.state, 4), (.dstOverflow, 5),
      (.malformedHeader, 6), (.invalidFrequencyData, 7), (.truncatedStream, 8), (.memFault, 9)],
      p.1.code.toNat = p.2 := by decide

theorem busy_toNat (s : State) : s.busy.toNat = if s.phase = .run then 1 else 0 := by
  cases hp : s.phase <;> simp [State.busy, hp]

/-- Settles O46: each named register by its arm of `readReg`, STATUS by its value as a number. -/
theorem registerReads : Obligations.RegisterReads := by
  intro s rest
  refine ⟨fun off v ha hv => ?_, fun tree code ha hm htree hcode => ?_⟩
  · have hcursor := highWord_eq_ofNat s.bitCursor (k := 3) (by decide)
    have hcount := highWord_eq_ofNat s.bitCount (k := 8) (by decide)
    simp only [List.mem_cons, Prod.mk.injEq, List.not_mem_nil, or_false] at hv
    rcases hv with ⟨rfl, rfl⟩ | ⟨rfl, rfl⟩ | ⟨rfl, rfl⟩ | ⟨rfl, rfl⟩ | ⟨rfl, rfl⟩ | ⟨rfl, rfl⟩ |
      ⟨rfl, rfl⟩ | ⟨rfl, rfl⟩ | ⟨rfl, rfl⟩ | ⟨rfl, rfl⟩ | ⟨rfl, rfl⟩ | ⟨rfl, rfl⟩ |
      ⟨rfl, rfl⟩ | ⟨rfl, rfl⟩ | ⟨rfl, rfl⟩ | ⟨rfl, rfl⟩ | ⟨rfl, rfl⟩ <;>
      refine step_portRead_still ha (by decide) (by decide) rfl (.inl (by decide)) rfl ?_
    exacts [rfl, rfl, rfl, rfl, rfl, rfl, rfl, rfl, rfl, rfl, rfl, (BitVec.ofNat_toNat 32 s.bitCursor).symm, hcursor,
      (BitVec.ofNat_toNat 32 s.bitCount).symm, hcount, rfl, rfl]
  · refine step_portRead_still ha (by decide) (by decide) (r := .status) rfl (.inr hm) hm ?_
    have hnat := statusWith_toNat s s.tree.state.code
    rw [treeState_codes _ htree, errCode_codes _ hcode, busy_toNat] at hnat
    calc s.readReg .status = s.statusWith s.tree.state.code := statusWord_still hm
      _ = BitVec.ofNat 32 (s.statusWith s.tree.state.code).toNat := by simp
      _ = _ := by rw [hnat]

/-! ### Writes while no command runs -/

/-- Settles O47: each register by its arm of `writeIdle`, the halves of BIT_CURSOR as numbers. -/
theorem operandRegisterWrites : Obligations.OperandRegisterWrites := by
  intro s t off v rest hp ha ht
  have hlo : s.bitCursor.extractLsb' 32 3 ++ v =
      BitVec.ofNat 35 (s.bitCursor.toNat / 2 ^ 32 * 2 ^ 32 + v.toNat) := by
    apply BitVec.eq_of_toNat_eq
    rw [toNat_append_add, BitVec.extractLsb'_toNat, BitVec.toNat_ofNat, Nat.shiftRight_eq_div_pow]
    omega
  have hhi : v.setWidth 3 ++ s.bitCursor.setWidth 32 =
      BitVec.ofNat 35 (v.toNat % 8 * 2 ^ 32 + s.bitCursor.toNat % 2 ^ 32) := by
    apply BitVec.eq_of_toNat_eq
    rw [toNat_append_add, BitVec.toNat_setWidth, BitVec.toNat_setWidth, BitVec.toNat_ofNat]
    omega
  simp only [List.mem_cons, Prod.mk.injEq, List.not_mem_nil, or_false] at ht
  rcases ht with ⟨rfl, rfl⟩ | ⟨rfl, rfl⟩ | ⟨rfl, rfl⟩ | ⟨rfl, rfl⟩ | ⟨rfl, rfl⟩ | ⟨rfl, rfl⟩ | ⟨rfl, rfl⟩ <;>
    refine step_portWrite_idle hp ha (by decide) (by decide) rfl ?_
  exacts [rfl, rfl, rfl, rfl, rfl, by rw [← hlo]; rfl, by rw [← hhi]; rfl]

/-- The read-only registers and windows ignore writes (10_state.md R34). -/
theorem writeIdle_readOnly {off : Nat} (h : off ∈ [0x000, 0x00C, 0x028, 0x030, 0x03C, 0x040, 0x044, 0x048] ∨
    (0x800 ≤ off ∧ off < 0xC00) ∨ (0x1000 ≤ off ∧ off < 0x3000)) (s : State) (v : Word) :
    writeIdle s (portReg off) v = s := by
  rcases h with h | ⟨h1, h2⟩ | ⟨h1, h2⟩
  · simp only [List.mem_cons, List.not_mem_nil, or_false] at h
    rcases h with rfl | rfl | rfl | rfl | rfl | rfl | rfl | rfl <;> rfl
  · rw [portReg_codeLen h1 h2]
    rfl
  · rw [portReg_codeBits h1 h2]
    rfl

/-- A reserved offset ignores writes at any time (20_memory.md R87). -/
theorem hostWriteReg_reserved (s : State) (v : Word) : hostWriteReg s .reserved v = s := by
  unfold hostWriteReg
  split <;> rfl

/-- Settles O48, by what stands at the offset. -/
theorem readOnlyAndReservedOffsets : Obligations.ReadOnlyAndReservedOffsets := by
  intro s off v rest h4
  refine ⟨fun hp hoff ha => ?_, fun hoff => ⟨fun ha => ?_, fun ha => ?_⟩⟩
  · have hlt : off < 0x4000 := by
      simp only [List.mem_cons, List.not_mem_nil, or_false] at hoff
      omega
    exact step_portWrite_idle hp ha hlt h4 rfl (writeIdle_readOnly hoff _ v)
  · exact step_portRead_still ha (by omega) h4 (portReg_reserved hoff) (.inl (by decide)) rfl rfl
  · rw [step_portWrite ha (by omega) h4, portReg_reserved hoff, hostWriteReg_reserved]

/-- With CODES_VALID = 1 a read of the CODE_LEN window returns the length (10_state.md R54). -/
theorem readReg_codeLen {s : State} (hv : s.codesValid = true) (sym : Fin 256) :
    s.readReg (.codeLen sym) = (s.codeLen[sym]).setWidth 32 := if_pos hv

/-- With CODES_VALID = 1 a read of the CODE_BITS window returns a word of the code's bits (10_state.md R55). -/
theorem readReg_codeBits {s : State} (hv : s.codesValid = true) (sym : Fin 256) (w : Fin 8) :
    s.readReg (.codeBits sym w) = (s.codeBits[sym]).extractLsb' (32 * w.val) 32 := if_pos hv

/-- Settles O49, by the register at each offset of a window. -/
theorem windowAccesses : Obligations.WindowAccesses := by
  intro s sym w v rest
  refine ⟨fun ha => ?_, fun hp ha => ?_, fun hv ha => ?_, fun hv ha => ?_⟩
  · exact step_portRead_still ha (by omega) (by omega) (portReg_freq_at sym) (.inl nofun) rfl rfl
  · refine ⟨s.freq.set sym.val v sym.isLt,
      step_portWrite_idle hp ha (by omega) (by omega) (portReg_freq_at sym) rfl, by simp, fun other hne => ?_⟩
    have hval : sym.val ≠ other.val := fun heq => hne (Fin.ext heq.symm)
    simp [hval]
  · refine step_portRead_still ha (by omega) (by omega) (portReg_codeLen_at sym) (.inl nofun) (congrArg not hv) ?_
    rw [readReg_codeLen hv, BitVec.ofNat_toNat]
  · refine step_portRead_still ha (by omega) (by omega) (portReg_codeBits_at sym w) (.inl nofun) (congrArg not hv) ?_
    rw [readReg_codeBits hv, extractLsb'_eq_ofNat]

/-! ### Writes at any time -/

/-- A write of CTRL does the same whether a command runs or not. -/
theorem hostWriteReg_ctrl (s : State) (v : Word) : hostWriteReg s .ctrl v = writeCtrl s v := by
  unfold hostWriteReg
  split <;> rfl

/-- A write of IRQ_STATUS does the same whether a command runs or not. -/
theorem hostWriteReg_irqStatus (s : State) (v : Word) : hostWriteReg s .irqStatus v = writeIrqStatus s v := by
  unfold hostWriteReg
  split <;> rfl

/-- Settles O51: neither write depends on BUSY. -/
theorem interruptRegisterWrites : Obligations.InterruptRegisterWrites := by
  intro s v rest
  refine ⟨fun hv ha => ?_, fun ha => ?_⟩
  · rw [step_portWrite ha (by decide) (by decide), show portReg 0x008 = .ctrl from rfl, hostWriteReg_ctrl,
      writeCtrl, hv]
    rfl
  · rw [step_portWrite ha (by decide) (by decide), show portReg 0x010 = .irqStatus from rfl, hostWriteReg_irqStatus,
      writeIrqStatus]
    cases v.getLsbD 0 <;> simp

/-! ### What a command leaves alone -/

/-- Settles O9, by the frame of a commit and the memory that a raise leaves. -/
theorem commandsKeepOperandRegisters : Obligations.CommandsKeepOperandRegisters := by
  intro i s t h
  rcases exec_cases i s with ⟨u, _, hc, hx⟩ | ⟨e, _, _, hx⟩ <;> rw [hx] at h <;> cases h
  · rw [hc.frame]
    exact ⟨rfl, rfl, rfl, rfl, rfl, rfl, rfl, rfl, rfl, rfl, rfl, rfl⟩
  · exact ⟨rfl, rfl, rfl, rfl, rfl, rfl, rfl, rfl, rfl, rfl, rfl, rfl⟩

/-- What a command's run does to the codes: none, or CODES_DERIVE or ENCODE succeeds and CODES_VALID is 1. -/
theorem exec_codes {i : Instr} {s t : State} (h : exec i s = .next t) :
    (t.codesValid = s.codesValid ∧ t.codeLen = s.codeLen ∧ t.codeBits = s.codeBits) ∨
      ((i = .codesDerive ∨ i = .encode) ∧ t.phase = .idle ∧ t.done = true ∧ t.err = false ∧ t.codesValid = true) := by
  rcases exec_cases i s with ⟨u, hr, hc, hx⟩ | ⟨e, _, _, hx⟩ <;> rw [hx] at h <;> cases h
  · by_cases hi : i = .encode ∨ i = .codesDerive
    · obtain ⟨_, _, hv, _⟩ := run_commits_codes hi hr
      exact .inr ⟨hi.symm, rfl, rfl, rfl, hv⟩
    · obtain ⟨h1, h2⟩ := not_or.1 hi
      exact .inl (hc.codes h1 h2)
  · exact .inl ⟨rfl, rfl, rfl⟩

/-- A reset clears CODES_VALID. -/
theorem assertReset_codesValid (s : State) : (assertReset s).codesValid = false := by
  obtain ⟨m, d, heq, _⟩ := assertReset_spec s
  rw [heq]
  rfl

/-- Settles O57, by the cases of a step. -/
theorem codesChangeOnlyByDeriveEncodeOrReset : Obligations.CodesChangeOnlyByDeriveEncodeOrReset := by
  intro s t hs
  rcases step_cases hs with ⟨rest, ht⟩ | ⟨r, rest, rfl⟩ | ⟨off, v, rest, ha, rfl⟩ | ⟨a, rest, rfl⟩ |
    ⟨a, v, rest, _, rfl⟩ | ⟨rest, ha, rfl⟩
  · rcases engineTurn_cases ht with ⟨_, rfl⟩ | ⟨i, hp, hd, _, he⟩ | ⟨_, rfl⟩
    · exact .inl ⟨rfl, rfl, rfl⟩
    · refine (exec_codes he).imp id fun ⟨hi, hdone⟩ => .inl ⟨?_, hdone⟩
      have hrun : s.running i := ⟨hp, eq_encode_of_decodeWord hd⟩
      rcases hi with rfl | rfl
      · exact .inl hrun
      · exact .inr hrun
    · exact .inl ⟨rfl, rfl, rfl⟩
  · exact .inl ⟨rfl, rfl, rfl⟩
  · rcases hostWriteReg_cases { s with agenda := rest } (portReg off) v with ⟨hr, hv, heq⟩ | hk
    · obtain rfl := portReg_ctrl hr
      exact .inr (.inr ⟨.inr ⟨v, rest, ha, hv⟩, heq ▸ assertReset_codesValid _⟩)
    · exact .inl ⟨hk.codesValid, hk.codeLen, hk.codeBits⟩
  · exact .inl ⟨rfl, rfl, rfl⟩
  · exact .inl ⟨rfl, rfl, rfl⟩
  · exact .inr (.inr ⟨.inl ⟨rest, ha⟩, assertReset_codesValid _⟩)

/-! ### Accesses while a command runs -/

/-- A write of any register or window but CTRL, IRQ_STATUS and CMD is dropped and flagged (10_state.md R41). -/
theorem writeBusy_dropped {off : Nat}
    (h : off ∈ [0x000, 0x00C, 0x018, 0x01C, 0x020, 0x024, 0x028, 0x02C, 0x030, 0x034, 0x038, 0x03C, 0x040, 0x044,
      0x048] ∨ (0x400 ≤ off ∧ off < 0xC00) ∨ (0x1000 ≤ off ∧ off < 0x3000)) (s : State) (v : Word) :
    writeBusy s (portReg off) v = { s with wrIgnored := true } := by
  rcases h with h | ⟨h1, h2⟩ | ⟨h1, h2⟩
  · simp only [List.mem_cons, List.not_mem_nil, or_false] at h
    rcases h with rfl | rfl | rfl | rfl | rfl | rfl | rfl | rfl | rfl | rfl | rfl | rfl | rfl | rfl | rfl <;> rfl
  · rcases Nat.lt_or_ge off 0x800 with h3 | h3
    · rw [portReg_freq h1 h3]
      rfl
    · rw [portReg_codeLen h3 h2]
      rfl
  · rw [portReg_codeBits h1 h2]
    rfl

/-- A STATUS read while a command runs shows BUSY alone of the completion fields (70_reset_and_hazards.md R331). -/
theorem step_statusRead_busy {s : State} {rest : List HostOp} (hI : Invariant s) (hp : s.phase = .run)
    (ha : s.agenda = .portRead (s.cfg.csrBase + 0x00C) 4 :: rest) :
    ∃ t, step s = .next t ∧ t.busData.getLsbD 0 = true ∧ t.busData.getLsbD 1 = false ∧
      t.busData.getLsbD 2 = false ∧ t.busData.extractLsb' 8 4 = 0#4 := by
  obtain ⟨hdone, herr, hcode, _⟩ := hI.busyClear hp
  refine ⟨_, step_portRead ha (by decide) (by decide), ?_⟩
  rw [hostReadReg_busData, readReg_withAgenda]
  obtain ⟨h0, h1, h2, _⟩ := statusWith_bits s (if s.treeInMotion then s.stageNow.shows else s.tree.state).code
  have h8 := (statusWith_fields s (if s.treeInMotion then s.stageNow.shows else s.tree.state).code).2.1
  exact ⟨h0.trans (busy_of_run hp), h1.trans hdone, h2.trans herr, h8.trans (by rw [hcode]; rfl)⟩

/-- RESULT_LEN and ERR_INFO read 0 while a command runs (70_reset_and_hazards.md R331). -/
theorem step_resultRead_busy {s : State} {off : Nat} {rest : List HostOp} (hI : Invariant s) (hp : s.phase = .run)
    (ha : s.agenda = .portRead (s.cfg.csrBase + off) 4 :: rest) (hoff : off = 0x028 ∨ off = 0x048) :
    step s = .next { s with agenda := rest, busData := 0#32 } := by
  obtain ⟨_, _, _, hlen, hinfo⟩ := hI.busyClear hp
  rcases hoff with rfl | rfl
  · exact step_portRead_still ha (by decide) (by decide) (r := .resultLen) rfl (.inl nofun) rfl hlen
  · exact step_portRead_still ha (by decide) (by decide) (r := .errInfo) rfl (.inl nofun) rfl hinfo

/-! ### Which runs reach `build_tree` -/

/-- ENCODE does not report DST_OVERFLOW before `build_tree` (43_codec.md R244). -/
theorem encodeInput_not_overflow {s : State} {e : Raise} (h : encodeInput s = .error e) : e.code ≠ .dstOverflow := by
  refine error_of_bind h (fun h => by rw [(requireEmpty_error h).2]; nofun) fun _ h => ?_
  refine error_of_bind h (fun h => ?_) fun _ h => by rw [(readSrc_error h).1]; decide
  rcases (checkRegions_error h).1 with hc | hc <;> rw [hc] <;> decide

/-- DECODE does not report TRUNCATED_STREAM before `build_tree` (43_codec.md R245). -/
theorem decodeInput_not_truncated {s : State} {e : Raise} (h : decodeInput s = .error e) :
    e.code ≠ .truncatedStream := by
  refine error_of_bind h (fun h => by rw [(requireEmpty_error h).2]; nofun) fun _ h => ?_
  refine error_of_bind h (fun h => ?_) fun _ h => ?_
  · rcases (checkRegions_error h).1 with hc | hc <;> rw [hc] <;> decide
  refine error_of_bind h (fun h => ?_) fun _ h => ?_
  · rcases (parseHeader_error h).1 with hc | hc | hc <;> rw [hc] <;> decide
  · exact error_of_bind h (fun h => by rw [(checkCapacity_error h).1]; decide) fun _ h => by cases h

/-- ENCODE's DST_OVERFLOW and DECODE's TRUNCATED_STREAM come after `build_tree`. -/
theorem reachesBuild_of_late_error {i : Instr} {s : State} {e : Raise} (h : runOf i s = .error e)
    (hl : (i = .encode ∧ e.code = .dstOverflow) ∨ (i = .decode ∧ e.code = .truncatedStream)) :
    reachesBuild i s = true := by
  rcases hl with ⟨rfl, hc⟩ | ⟨rfl, hc⟩
  · cases hd : encodeInput s with
    | ok data => rw [reachesBuild, hd]; rfl
    | error e' =>
      simp only [runOf, runEncode, hd, error_bind] at h
      cases h
      exact absurd hc (encodeInput_not_overflow hd)
  · cases hd : decodeInput s with
    | ok hdr => rw [reachesBuild, hd]; rfl
    | error e' =>
      simp only [runOf, runDecode, hd, error_bind] at h
      cases h
      exact absurd hc (decodeInput_not_truncated hd)

/-- The outcomes that only a run that got to `build_tree` has. -/
theorem buildsTree_of_outcome {i : Instr} {s u : State} (h : exec i s = .next u)
    (ho : (i ∈ [Instr.encode, .decode, .treeBuild] ∧ u.err = false) ∨ (i = .encode ∧ u.errCode = .dstOverflow) ∨
      (i = .decode ∧ u.errCode = .truncatedStream)) : s.buildsTree i := by
  rw [← reachesBuild_iff]
  rcases exec_cases i s with ⟨t, hr, _, hx⟩ | ⟨e, hr, he, hx⟩ <;> rw [hx] at h <;> cases h
  · rcases ho with ⟨hi, _⟩ | ⟨_, hc⟩ | ⟨_, hc⟩
    · exact reachesBuild_of_ok hi hr
    · cases hc
    · cases hc
  · refine reachesBuild_of_late_error hr (ho.resolve_left fun ⟨_, hn⟩ => none_not_reported i ?_)
    have hcode : e.code = .none := by simpa using hn
    exact hcode ▸ he.code

/-- The outcomes that no run that got to `build_tree` has. -/
theorem not_buildsTree_of_outcome {i : Instr} {s u : State} (h : exec i s = .next u)
    (ho : u.errCode ∈ [ErrCode.bounds, .overlap, .state, .malformedHeader, .invalidFrequencyData] ∨
      (i = .decode ∧ u.errCode = .dstOverflow)) : ¬ s.buildsTree i := by
  intro hb
  rcases exec_cases i s with ⟨t, _, _, hx⟩ | ⟨e, hr, _, hx⟩ <;> rw [hx] at h <;> cases h
  · simp at ho
  · simp only [complete_errCode] at ho
    rcases reachesBuild_error (reachesBuild_iff.2 hb) hr with ⟨rfl, hc | hc⟩ | ⟨rfl, hc | hc⟩ <;> simp [hc] at ho

/-! ### TREE_STATE while a command runs -/

/-- A command's run ends with PHASE idle. -/
theorem exec_phase {i : Instr} {s t : State} (h : exec i s = .next t) : t.phase = .idle := by
  rcases exec_cases i s with ⟨u, _, _, hx⟩ | ⟨e, _, _, hx⟩ <;> rw [hx] at h <;> cases h <;> rfl

theorem engineTurn_phase {s t : State} (h : engineTurn s = .next t) : t.phase = .idle := by
  rcases engineTurn_cases h with ⟨hp, rfl⟩ | ⟨i, _, _, _, he⟩ | ⟨_, rfl⟩
  · exact hp
  · exact exec_phase he
  · rfl

theorem assertReset_phase (s : State) : (assertReset s).phase = .idle := by
  obtain ⟨m, d, heq, _⟩ := assertReset_spec s
  rw [heq]
  rfl

/-- A write while a command runs abandons it, or leaves the stage of its build and the latch. -/
theorem writeBusy_stage (s : State) (r : PortReg) (v : Word) :
    (writeBusy s r v).phase = .idle ∨
      ((writeBusy s r v).buildStage = s.buildStage ∧ (writeBusy s r v).curCmd = s.curCmd) := by
  cases r
  case ctrl =>
    show (writeCtrl s v).phase = .idle ∨ ((writeCtrl s v).buildStage = _ ∧ (writeCtrl s v).curCmd = _)
    unfold writeCtrl
    split
    · exact .inl (assertReset_phase s)
    · exact .inr ⟨rfl, rfl⟩
  case irqStatus =>
    show _ ∨ ((writeIrqStatus s v).buildStage = _ ∧ (writeIrqStatus s v).curCmd = _)
    unfold writeIrqStatus
    split <;> exact .inr ⟨rfl, rfl⟩
  all_goals exact .inr ⟨rfl, rfl⟩

/-- While one command runs no step takes the stage of its build back. -/
theorem step_keeps_stage {s t : State} (h : step s = .next t) (hs : s.phase = .run) (ht : t.phase = .run) :
    s.buildStage.rank ≤ t.buildStage.rank ∧ t.curCmd = s.curCmd := by
  rcases step_cases h with ⟨rest, he⟩ | ⟨r, rest, rfl⟩ | ⟨off, v, rest, _, rfl⟩ | ⟨a, rest, rfl⟩ |
    ⟨a, v, rest, _, rfl⟩ | ⟨rest, _, rfl⟩
  · rw [engineTurn_phase he] at ht
    cases ht
  · refine ⟨?_, rfl⟩
    rw [hostReadReg_buildStage]
    split
    · exact rank_le_stageNow { s with agenda := rest }
    · exact le_refl _
  · rw [hostWriteReg_busy (s := { s with agenda := rest }) _ _ hs] at ht ⊢
    rcases writeBusy_stage { s with agenda := rest } (portReg off) v with hp | ⟨hstage, hcmd⟩
    · rw [hp] at ht
      cases ht
    · exact ⟨hstage.symm ▸ le_refl s.buildStage.rank, hcmd⟩
  · exact ⟨le_refl _, rfl⟩
  · exact ⟨le_refl _, rfl⟩
  · rw [assertReset_phase] at ht
    cases ht

/-- A STATUS read while no tree is built shows the tree state as it was. -/
theorem step_statusRead_still {s : State} {rest : List HostOp}
    (ha : s.agenda = .portRead (s.cfg.csrBase + 0x00C) 4 :: rest)
    (hm : s.treeInMotion = false) :
    ∃ w, step s = .next { s with agenda := rest, busData := w } ∧ w.extractLsb' 4 2 = s.tree.state.code := by
  refine ⟨s.statusWord, step_portRead_still ha (by decide) (by decide) (r := .status) rfl (.inr hm) hm rfl, ?_⟩
  rw [statusWord_still hm]
  exact (statusWith_fields s _).1

/-- A STATUS read while a tree is built shows the stage it draws. -/
theorem step_statusRead_moving {s : State} {rest : List HostOp}
    (ha : s.agenda = .portRead (s.cfg.csrBase + 0x00C) 4 :: rest) (hm : s.treeInMotion = true) :
    ∃ w, step s = .next { s with agenda := rest, busData := w, buildStage := s.stageNow, draws := s.draws + 1 } ∧
      w.extractLsb' 4 2 = s.stageNow.shows.code := by
  refine ⟨s.statusWord, ?_, ?_⟩
  · have hd : State.readDraws { s with agenda := rest } .status = true := hm
    rw [step_portRead ha (by decide) (by decide), show portReg 0x00C = .status from rfl, hostReadReg, if_pos rfl, hd]
    rfl
  · rw [statusWord_moving hm]
    exact (statusWith_fields s _).1

/-- Settles O52: `reachesBuild` decides `buildsTree`, and the stage a read shows keeps its rank. -/
theorem accessesWhileBusy : Obligations.AccessesWhileBusy := by
  refine ⟨fun s off v rest hI hp h4 => ⟨fun ha => ⟨?_, fun hoff => ?_⟩, fun ha => ⟨?_, step_resultRead_busy hI hp ha⟩⟩,
    fun s i rest hr ha => ⟨fun hn => ?_, fun hb n hn => ?_⟩,
    fun i s u h => ⟨buildsTree_of_outcome h, not_buildsTree_of_outcome h⟩, fun s t n m h hs ht hn hm => ?_⟩
  · rintro rfl
    exact step_portWrite_busy hp ha (by decide) (by decide) rfl rfl
  · have hlt : off < 0x4000 := by
      simp only [List.mem_cons, List.not_mem_nil, or_false] at hoff
      omega
    exact step_portWrite_busy hp ha hlt h4 rfl (writeBusy_dropped hoff _ v)
  · rintro rfl
    exact step_statusRead_busy hI hp ha
  · have hm : s.treeInMotion = false := by
      rw [treeInMotion_run hr.1 hr.decodes, ← Bool.not_eq_true, reachesBuild_iff]
      exact hn
    obtain ⟨w, hstep, hw⟩ := step_statusRead_still ha hm
    exact ⟨w, hstep, fun he => by rw [hw, he]; rfl, fun he => by rw [hw, he]; rfl⟩
  · have hm : s.treeInMotion = true := by
      rw [treeInMotion_run hr.1 hr.decodes, reachesBuild_iff]
      exact hb
    obtain ⟨w, hstep, hw⟩ := step_statusRead_moving ha hm
    obtain ⟨hle, hlast⟩ := stageNow_rank hr.decodes
    rw [mem_buildOrder] at hn
    subst hn
    refine ⟨w, s.stageNow, s.stageNow.rank, hstep, (mem_buildOrder _ _).2 rfl, hle, fun hi h3 => ?_, ?_⟩
    · subst hi
      exact hlast h3
    · rw [hw, BuildStage.shows_code]
  · rw [mem_buildOrder] at hn hm
    subst hn hm
    exact step_keeps_stage h hs ht

end Sys2Proof.Machine
end

section
/-! PROOFS. The family of shared memory and its port: what a command writes, what it reads, and the accesses that the
port and the platform do not let through (20_memory.md R87 to R93, 60_exceptions.md R289). -/

namespace Sys2Proof.Machine

/-! ### Narrow accesses of the control port -/

/-- An access of the wrong size or alignment is not one the port defines (20_memory.md R87). -/
theorem portAccessDefined_narrow (c : Config) {off size : Nat} (h : size ≠ 4 ∨ off % 4 ≠ 0) :
    c.portAccessDefined (c.csrBase + off) size = false := by
  rcases h with h | h <;> simp [Config.portAccessDefined, h]

theorem inPort_offset (c : Config) {off : Nat} (h : off < 0x4000) : c.inPort (c.csrBase + off) = true := by
  simp [Config.inPort, portBytes, h]

/-- Settles O50: the address is in the port, and the access is none the port defines. -/
theorem narrowPortAccessRefused : Obligations.NarrowPortAccessRefused := by
  intro s off size v rest hoff hnarrow ha
  have hin := inPort_offset s.cfg hoff
  have hdef := portAccessDefined_narrow s.cfg hnarrow
  rcases ha with ha | ha
  · simp [step, ha, portRead, hin, hdef]
  · simp [step, ha, portWrite, hin, hdef]

/-! ### What a command writes -/

/-- A command that reports no error has committed its run. -/
theorem exec_committed {i : Instr} {s t : State} (h : exec i s = .next t) (herr : t.err = false) :
    ∃ u, runOf i s = .ok u ∧ CommitSpec i s u ∧ t = complete (isCodec i) .none 0#32 u := by
  rcases exec_cases i s with ⟨u, hr, hc, hx⟩ | ⟨e, _, he, hx⟩ <;> rw [hx] at h <;> cases h
  · exact ⟨u, hr, hc, rfl⟩
  · have hcode : e.code = .none := by simpa using herr
    exact absurd (hcode ▸ he.code) (none_not_reported i)

/-- Settles O10, by what a commit and a raise leave. -/
theorem commandsWriteOnlyDst : Obligations.CommandsWriteOnlyDst := by
  intro i s t h
  rcases exec_cases i s with ⟨u, _, hc, hx⟩ | ⟨e, _, he, hx⟩ <;> rw [hx] at h <;> cases h
  · refine ⟨?_, fun hu => (hc.noDst hu).1, nofun⟩
    cases hu : usesDst i with
    | true =>
      obtain ⟨ht, hl, _⟩ := hc.dst hu
      exact (ht.mono (le_refl _) (by omega)).outside
    | false => exact fun a _ => congrArg (Memory.read · a) (hc.noDst hu).1
  · refine ⟨he.touches.outside, fun hu => ?_, fun _ => he.early⟩
    by_contra hm
    exact absurd (he.range hm).1 (by simp [hu])

/-- Settles O11: a commit writes the bytes it counts in RESULT_LEN. -/
theorem successWritesResultLenBytes : Obligations.SuccessWritesResultLenBytes := by
  intro i s t h0 h herr
  obtain ⟨u, _, hc, rfl⟩ := exec_committed h herr
  cases hu : usesDst i with
  | true =>
    obtain ⟨ht, hl, _⟩ := hc.dst hu
    exact ⟨hl, ht.outside, nofun⟩
  | false =>
    obtain ⟨hm, hl⟩ := hc.noDst hu
    have hl := hl.trans h0
    exact ⟨by simp [hl], fun a _ => congrArg (Memory.read · a) hm, fun _ => hl⟩

/-! ### What a command reads -/

/-- The memories have the same bytes at the addresses of `R`. -/
def AgreeOn (R : Nat → Prop) (m m' : Memory) : Prop := ∀ a, R a → m'.read a = m.read a

/-- The same byte written to both memories keeps them in agreement. -/
theorem AgreeOn.write {R : Nat → Prop} {m m' : Memory} (h : AgreeOn R m m') (a : Nat) (v : Byte) :
    AgreeOn R (m.write a v) (m'.write a v) := by
  intro b hb
  by_cases hab : a = b
  · subst hab
    simp
  · rw [m.read_write_other v hab, m'.read_write_other v hab, h b hb]

/-- Two runs that go the same way: both answer, and `P` relates the answers, or both raise the same error. -/
inductive Alike {α : Type} (P : α → α → Prop) : Except Raise α → Except Raise α → Prop
  | ok {a a' : α} (h : P a a') : Alike P (.ok a) (.ok a')
  | error {e e' : Raise} (hcode : e'.code = e.code) (hinfo : e'.info = e.info) : Alike P (.error e) (.error e')

section
variable {α β : Type} {P : α → α → Prop} {Q : β → β → Prop}

theorem Alike.bind {x x' : Except Raise α} {f f' : α → Except Raise β} (hx : Alike P x x')
    (hf : ∀ a a', x = .ok a → P a a' → Alike Q (f a) (f' a')) : Alike Q (x >>= f) (x' >>= f') := by
  cases hx with
  | ok h => exact hf _ _ rfl h
  | error hcode hinfo => exact .error hcode hinfo

/-- After a part in which both runs answer the same. -/
theorem Alike.bindEq {x x' : Except Raise α} {f f' : α → Except Raise β} (hx : Alike Eq x x')
    (hf : ∀ a, x = .ok a → Alike Q (f a) (f' a)) : Alike Q (x >>= f) (x' >>= f') :=
  hx.bind fun a _ ha h => h ▸ hf a ha

theorem Alike.imp {P' : α → α → Prop} {x x' : Except Raise α} (h : Alike P x x') (hp : ∀ a a', P a a' → P' a a') :
    Alike P' x x' := by
  cases h with
  | ok h => exact .ok (hp _ _ h)
  | error hcode hinfo => exact .error hcode hinfo

theorem Alike.ite {p : Prop} [Decidable p] {x x' y y' : Except Raise α} (hx : p → Alike P x x')
    (hy : ¬ p → Alike P y y') : Alike P (if p then x else y) (if p then x' else y') := by
  split
  · exact hx ‹_›
  · exact hy ‹_›

theorem Alike.raise (s : State) (m : Memory) (code : ErrCode) (info : Word) :
    Alike P (s.raise code info) (State.raise { s with mem := m } code info) := .error rfl rfl

end

section
variable {c : Config} {R : Nat → Prop} {m m' : Memory}

theorem Alike.read (h : AgreeOn R m m') {a : Nat} (ha : R a) : Alike Eq (memRead c m a) (memRead c m' a) :=
  .ite (fun _ => .error rfl rfl) fun _ => .ok (h a ha).symm

theorem Alike.write (h : AgreeOn R m m') (a : Nat) (v : Byte) :
    Alike (AgreeOn R) (memWrite c m a v) (memWrite c m' a v) :=
  .ite (fun _ => .error rfl rfl) fun _ => .ok (h.write a v)

theorem Alike.readBytes (h : AgreeOn R m m') {n a : Nat} (ha : ∀ b, a ≤ b → b < a + n → R b) :
    Alike Eq (readBytes c m a n) (readBytes c m' a n) := by
  induction n generalizing a with
  | zero => exact .ok rfl
  | succ n ih =>
    exact (Alike.read h (ha a (le_refl _) (by omega))).bindEq fun _ _ =>
      (ih fun b h1 h2 => ha b (by omega) (by omega)).bindEq fun _ _ => .ok rfl

theorem Alike.readField (h : AgreeOn R m m') {w a : Nat} (ha : ∀ b, a ≤ b → b < a + w → R b) :
    Alike Eq (readField c m a w) (readField c m' a w) :=
  (Alike.readBytes h ha).bindEq fun _ _ => .ok rfl

theorem Alike.writeBytes (h : AgreeOn R m m') (a : Nat) (bs : List Byte) :
    Alike (AgreeOn R) (writeBytes c m a bs) (writeBytes c m' a bs) := by
  induction bs generalizing m m' a with
  | nil => exact .ok h
  | cons b bs ih => exact (Alike.write h a b).bind fun _ _ _ hw => ih hw (a + 1)

theorem Alike.readEntries (h : AgreeOn R m m') {base w k p : Nat} {F : FreqTable}
    (ha : ∀ b, base + p ≤ b → b < base + p + k * (1 + w) → R b) :
    Alike Eq (readEntries c m base w k p F) (readEntries c m' base w k p F) := by
  induction k generalizing p F with
  | zero => exact .ok rfl
  | succ k ih =>
    rw [Nat.succ_mul] at ha
    exact (Alike.read h (ha _ (by omega) (by omega))).bindEq fun _ _ =>
      (Alike.readField h fun b h1 h2 => ha b (by omega) (by omega)).bindEq fun _ _ =>
        ih fun b h1 h2 => ha b (by omega) (by omega)

theorem Alike.walk (h : AgreeOn R m m') {arena : Vector Node 511} {base k fuel c' : Nat} {n : NodeId}
    (ha : ∀ j, c' ≤ j → j < c' + fuel → R (base + j / 8)) :
    Alike Eq (walk c m arena base k fuel c' n) (walk c m' arena base k fuel c' n) := by
  rcases walk_congr (cfg := c) (arena := arena) (k := k) (n := n) fun j h1 h2 => h _ (ha j h1 h2) with
    ⟨r, hr, hr'⟩ | ⟨e, he, he'⟩
  · rw [hr, hr']
    exact .ok rfl
  · rw [he, he']
    exact .error rfl rfl

/-- Both runs decode the same symbols, so they write the same bytes and end with the same cursor. -/
theorem Alike.decodeBody (h : AgreeOn R m m') {t : Tree} {base nbits dst n k c' : Nat}
    (ha : ∀ j, j < nbits → R (base + j / 8)) :
    Alike (fun r r' => r.1 = r'.1) (decodeBody c t base nbits dst n k c' m)
      (decodeBody c t base nbits dst n k c' m') := by
  induction n generalizing k c' m m' with
  | zero => exact .ok rfl
  | succ n ih =>
    exact (Alike.walk h fun j _ _ => ha j (by omega)).bindEq fun _ _ =>
      (Alike.write h _ _).bind fun _ _ _ hw => ih hw

theorem Alike.unpackInto (h : AgreeOn R m m') {src dst n : Nat} (ha : ∀ b, src ≤ b → b < src + n → R b) :
    Alike (AgreeOn R) (unpackInto c m src dst n) (unpackInto c m' src dst n) := by
  induction n generalizing m m' src dst with
  | zero => exact .ok h
  | succ n ih =>
    exact (Alike.read h (ha src (le_refl _) (by omega))).bindEq fun _ _ =>
      (Alike.writeBytes h _ _).bind fun _ _ _ hw => ih hw fun b h1 h2 => ha b (by omega) (by omega)

end

section
variable {s : State} {m : Memory} {R : Nat → Prop}

theorem Alike.checkSrc (s : State) (m : Memory) : Alike Eq (checkSrc s) (checkSrc { s with mem := m }) :=
  .ite (fun _ => .ok rfl) fun _ => .raise s m _ _

theorem Alike.checkDst (s : State) (m : Memory) : Alike Eq (checkDst s) (checkDst { s with mem := m }) :=
  .ite (fun _ => .ok rfl) fun _ => .raise s m _ _

theorem Alike.checkRegions (s : State) (m : Memory) : Alike Eq (checkRegions s) (checkRegions { s with mem := m }) :=
  (Alike.checkSrc s m).bindEq fun _ _ => (Alike.checkDst s m).bindEq fun _ _ =>
    .ite (fun _ => .raise s m _ _) fun _ => .ok rfl

theorem Alike.requireEmpty (s : State) (m : Memory) : Alike Eq (requireEmpty s) (requireEmpty { s with mem := m }) :=
  .ite (fun _ => .ok rfl) fun _ => .raise s m _ _

theorem Alike.requireRooted (s : State) (m : Memory) :
    Alike Eq (requireRooted s) (requireRooted { s with mem := m }) :=
  .ite (fun _ => .ok rfl) fun _ => .raise s m _ _

theorem Alike.requireCodes (s : State) (m : Memory) : Alike Eq (requireCodes s) (requireCodes { s with mem := m }) :=
  .ite (fun _ => .ok rfl) fun _ => .raise s m _ _

theorem Alike.checkCapacity (s : State) (m : Memory) (n : Nat) :
    Alike Eq (checkCapacity s n) (checkCapacity { s with mem := m } n) :=
  .ite (fun _ => .raise s m _ _) fun _ => .ok rfl

theorem Alike.writeDst (s : State) (m : Memory) (out : List Byte) :
    Alike (fun _ _ => True) (writeDst s out) (writeDst { s with mem := m } out) :=
  (Alike.writeBytes (R := fun _ => False) (fun _ => False.elim) _ out).imp fun _ _ _ => trivial

theorem Alike.readBucket (h : AgreeOn R s.mem m) {base limit w p : Nat} {F : FreqTable}
    (ha : ∀ b, base ≤ b → b < base + limit → R b) :
    Alike Eq (readBucket s base limit w F p) (readBucket { s with mem := m } base limit w F p) :=
  .ite (fun _ => .raise s m _ _) fun _ =>
    (Alike.readField h fun b h1 h2 => ha b (by omega) (by omega)).bindEq fun _ _ =>
      .ite (fun _ => .raise s m _ _) fun _ =>
        (Alike.readEntries h fun b h1 h2 => ha b (by omega) (by omega)).bindEq fun _ _ => .ok rfl

theorem Alike.decompress (h : AgreeOn R s.mem m) {base limit : Nat} (ha : ∀ b, base ≤ b → b < base + limit → R b) :
    Alike Eq (decompress s base limit) (decompress { s with mem := m } base limit) :=
  (Alike.readBucket h ha).bindEq fun _ _ => (Alike.readBucket h ha).bindEq fun _ _ => Alike.readBucket h ha

theorem Alike.parseHeader (h : AgreeOn R s.mem m)
    (ha : ∀ b, s.srcAddr.toNat ≤ b → b < s.srcAddr.toNat + s.srcLen.toNat → R b) :
    Alike Eq (parseHeader s) (parseHeader { s with mem := m }) :=
  .ite (fun _ => .raise s m _ _) fun _ =>
    (Alike.readField h fun b h1 h2 => ha b (by omega) (by omega)).bindEq fun _ _ =>
      (Alike.readField h fun b h1 h2 => ha b (by omega) (by omega)).bindEq fun _ _ =>
        .ite (fun _ => .raise s m _ _) fun _ => .ite (fun _ => .raise s m _ _) fun _ =>
          (Alike.decompress h fun b h1 h2 => ha b (by omega) (by omega)).bindEq fun _ _ => .ok rfl

end

/-- The header DECODE goes on with ends within SRC. -/
theorem decodeInput_length {s : State} {hdr : Header} (h : decodeInput s = .ok hdr) :
    hdr.headerLength ≤ s.srcLen.toNat := by
  obtain ⟨_, _, h⟩ := ok_of_bind h
  obtain ⟨_, _, h⟩ := ok_of_bind h
  obtain ⟨hdr', hp, h⟩ := ok_of_bind h
  obtain ⟨_, _, h⟩ := ok_of_bind h
  cases h
  exact parseHeader_length hp

/-- The states differ in shared memory alone. -/
def SameButMem (t t' : State) : Prop := t' = { t with mem := t'.mem }

/-- The run of a command is the same, but for memory, on two memories that agree on the SRC it uses. -/
theorem Alike.run (i : Instr) (s : State) (m : Memory)
    (h : AgreeOn (fun a => usesSrc i = true ∧ s.inSrc a = true) s.mem m) :
    Alike SameButMem (runOf i s) (runOf i { s with mem := m }) := by
  have src : usesSrc i = true → ∀ b, s.srcAddr.toNat ≤ b → b < s.srcAddr.toNat + s.srcLen.toNat →
      usesSrc i = true ∧ s.inSrc b = true := fun hu b h1 h2 => ⟨hu, by simp [State.inSrc, h1, h2]⟩
  cases i
  case encode =>
    refine Alike.bindEq ((Alike.requireEmpty s m).bindEq fun _ _ => (Alike.checkRegions s m).bindEq fun _ _ =>
      Alike.readBytes h (src rfl)) fun data _ => ?_
    dsimp only
    generalize buildTree (count data) s.tree = built
    exact (Alike.checkCapacity s m _).bindEq fun _ _ => (Alike.writeDst s m _).bind fun _ _ _ _ => .ok rfl
  case decode =>
    refine Alike.bindEq ((Alike.requireEmpty s m).bindEq fun _ _ => (Alike.checkRegions s m).bindEq fun _ _ =>
      (Alike.parseHeader h (src rfl)).bindEq fun _ _ => (Alike.checkCapacity s m _).bindEq fun _ _ => .ok rfl)
        fun hdr hd => ?_
    have hl := decodeInput_length hd
    dsimp only
    generalize buildTree hdr.table s.tree = built
    exact (Alike.decodeBody h fun j hj => src rfl _ (by omega) (by omega)).bind fun _ _ _ hc => .ok (by rw [hc]; rfl)
  case bitsPack =>
    exact (Alike.checkRegions s m).bindEq fun _ _ => (Alike.checkCapacity s m _).bindEq fun _ _ =>
      (Alike.readBytes h (src rfl)).bindEq fun _ _ => (Alike.writeDst s m _).bind fun _ _ _ _ => .ok rfl
  case bitsUnpack =>
    exact (Alike.checkRegions s m).bindEq fun _ _ => (Alike.checkCapacity s m _).bindEq fun _ _ =>
      (Alike.unpackInto h (src rfl)).bind fun _ _ _ _ => .ok rfl
  case freqBuild =>
    exact (Alike.checkSrc s m).bindEq fun _ _ => (Alike.readBytes h (src rfl)).bindEq fun _ _ => .ok rfl
  case freqCompress | hdrWrite =>
    exact (Alike.checkDst s m).bindEq fun _ _ => (Alike.checkCapacity s m _).bindEq fun _ _ =>
      (Alike.writeDst s m _).bind fun _ _ _ _ => .ok rfl
  case freqDecompress =>
    exact (Alike.checkSrc s m).bindEq fun _ _ => (Alike.decompress h (src rfl)).bindEq fun _ _ => .ok rfl
  case hdrParse =>
    exact (Alike.checkSrc s m).bindEq fun _ _ => (Alike.parseHeader h (src rfl)).bindEq fun _ _ => .ok rfl
  case treeBuild =>
    refine (Alike.requireEmpty s m).bindEq fun _ _ => ?_
    dsimp only
    generalize buildTree s.freq s.tree = built
    exact .ok rfl
  case codesDerive | treeDestroy =>
    exact (Alike.requireRooted s m).bindEq fun _ _ => .ok rfl
  case decodeOne =>
    exact (Alike.requireRooted s m).bindEq fun _ _ => (Alike.checkSrc s m).bindEq fun _ _ =>
      (Alike.walk h fun j _ _ => src rfl _ (by omega) (by omega)).bindEq fun _ _ => .ok rfl
  case bodyEncode =>
    exact (Alike.requireCodes s m).bindEq fun _ _ => (Alike.checkRegions s m).bindEq fun _ _ =>
      (Alike.readBytes h (src rfl)).bindEq fun _ _ => (Alike.checkCapacity s m _).bindEq fun _ _ =>
        (Alike.writeDst s m _).bind fun _ _ _ _ => .ok rfl
  case bodyDecode =>
    exact (Alike.requireRooted s m).bindEq fun _ _ => (Alike.checkRegions s m).bindEq fun _ _ =>
      (Alike.checkCapacity s m _).bindEq fun _ _ =>
        (Alike.decodeBody h fun j hj => src rfl _ (by omega) (by omega)).bind fun _ _ _ hc => .ok (by rw [hc]; rfl)

/-- Settles O12: the two runs go the same way, and completion looks at no byte of memory. -/
theorem commandsReadOnlySrc : Obligations.CommandsReadOnlySrc := by
  intro i s t t' m hm ht ht'
  have hrun := Alike.run i s m fun a ⟨hu, ha⟩ => hm hu a ha
  rw [exec_eq] at ht ht'
  generalize runOf i s = x at hrun ht
  generalize runOf i { s with mem := m } = x' at hrun ht'
  cases hrun with
  | ok h =>
    cases ht
    cases ht'
    rw [h]
    rfl
  | error hcode hinfo =>
    rw [conclude_error] at ht ht'
    rw [hcode, hinfo] at ht'
    cases ht
    cases ht'
    rfl

end Sys2Proof.Machine
end

section
/-! PROOFS. MEM_FAULT, command by command (20_memory.md R92, 60_exceptions.md R289): the first rejected access of a run is
the one it raises, and a raise completes with what the run had written. -/

namespace Sys2Proof.Machine

/-! ### The checks before a command's own work -/

theorem disjoint_iff (s : State) : s.disjoint ↔ s.srcLen.toNat = 0 ∨ s.dstCap.toNat = 0 ∨
    s.dstAddr.toNat + s.dstCap.toNat ≤ s.srcAddr.toNat ∨ s.srcAddr.toNat + s.srcLen.toNat ≤ s.dstAddr.toNat := by
  simp [State.disjoint, ← BitVec.toNat_inj]

/-- With no error of the prologue the precondition holds and the regions the command uses are in range and apart. -/
theorem prologue_pass {i : Instr} {s : State} (h : prologueError i s = none) :
    stateError i s = none ∧ (usesSrc i = true → s.srcAddr.toNat + s.srcLen.toNat ≤ s.cfg.memSize) ∧
      (usesDst i = true → s.dstAddr.toNat + s.dstCap.toNat ≤ s.cfg.memSize) ∧
      (usesSrc i = true → usesDst i = true → s.disjoint) := by
  unfold prologueError at h
  split at h
  · cases h
  · split_ifs at h with hsrc hdst hover
    exact ⟨‹_›, fun hu => not_lt.1 fun hlt => hsrc ⟨hu, hlt⟩, fun hu => not_lt.1 fun hlt => hdst ⟨hu, hlt⟩,
      fun hu hu' => by_contra fun hn => hover ⟨hu, hu', hn⟩⟩

theorem checkSrc_of_prologue {i : Instr} {s : State} (h : prologueError i s = none) (hu : usesSrc i = true) :
    checkSrc s = .ok () := by
  obtain ⟨_, hsrc, _⟩ := prologue_pass h
  exact checkSrc_ok (hsrc hu)

theorem checkRegions_of_prologue {i : Instr} {s : State} (h : prologueError i s = none) (hs : usesSrc i = true)
    (hd : usesDst i = true) : checkRegions s = .ok () := by
  obtain ⟨_, hsrc, hdst, hapart⟩ := prologue_pass h
  exact checkRegions_ok (hsrc hs) (hdst hd) (hapart hs hd)

theorem apart_of_prologue {i : Instr} {s : State} (h : prologueError i s = none) (hs : usesSrc i = true)
    (hd : usesDst i = true) : s.srcLen.toNat = 0 ∨ s.dstCap.toNat = 0 ∨
      s.dstAddr.toNat + s.dstCap.toNat ≤ s.srcAddr.toNat ∨ s.srcAddr.toNat + s.srcLen.toNat ≤ s.dstAddr.toNat := by
  obtain ⟨_, _, _, hapart⟩ := prologue_pass h
  exact (disjoint_iff s).1 (hapart hs hd)

theorem requireEmpty_of_prologue {s : State} (h : prologueError .encode s = none ∨ prologueError .decode s = none) :
    requireEmpty s = .ok () :=
  h.elim (fun h => ((codec_checks_iff (.inl rfl)).2 h).1) fun h => ((codec_checks_iff (.inr rfl)).2 h).1

theorem requireRooted_of_prologue {s : State}
    (h : prologueError .decodeOne s = none ∨ prologueError .bodyDecode s = none) : requireRooted s = .ok () := by
  have hr : s.tree.state = .rooted := by
    rcases h with h | h <;> obtain ⟨hst, _⟩ := prologue_pass h <;> simpa [stateError] using hst
  simp [requireRooted, hr]

theorem requireCodes_of_prologue {s : State} (h : prologueError .bodyEncode s = none) : requireCodes s = .ok () := by
  obtain ⟨hst, _⟩ := prologue_pass h
  have hv : s.codesValid = true := by simpa [stateError] using hst
  simp [requireCodes, hv]

/-! ### A raise as a completion -/

/-- The raise of MEM_FAULT at an address, with memory as the command had written it by then. -/
abbrev faultAt (a : Nat) (m : Memory) : Raise := { code := .memFault, info := trunc32 a, mem := m }

/-- A raise completes with its error, and commits nothing (60_exceptions.md R288). -/
theorem exec_raised {i : Instr} {s : State} {e : Raise} (hI : Invariant s) (h : runOf i s = .error e) :
    exec i s = .next (State.completed { s with mem := e.mem } e.code e.info) := by
  rw [exec_eq, h, conclude_error, complete_raise hI.vacant h]

/-- The same, from any state, for a command whose completion leaves the arena alone. -/
theorem exec_raised_of_not_codec {i : Instr} {s : State} {e : Raise} (hc : isCodec i = false)
    (h : runOf i s = .error e) : exec i s = .next (State.completed { s with mem := e.mem } e.code e.info) := by
  rw [exec_eq, h, conclude_error, hc]
  rfl

/-- A MEM_FAULT names a byte of SRC whose read, or of DST whose write, the platform rejects. -/
theorem memFault_rejects {i : Instr} {s t : State} (h : exec i s = .next t) (hc : t.errCode = .memFault) :
    ∃ a, s.rejects i a ∧ t.errInfo = BitVec.ofNat 32 a := by
  rcases exec_cases i s with ⟨u, _, _, hx⟩ | ⟨e, hr, _, hx⟩ <;> rw [hx] at h <;> cases h
  · cases hc
  · obtain ⟨a, ha, hinfo⟩ := run_faults i s e hr hc
    exact ⟨a, ha.imp and_assoc.1 and_assoc.1, hinfo⟩

/-! ### The first rejected read -/

/-- Reading all of SRC stops at its first rejected byte. -/
theorem readSrc_rejected {s : State} {j : Nat} (hj : j < s.srcLen.toNat) (hn : NoFault s.cfg .read s.srcAddr.toNat j)
    (hx : (s.srcAddr.toNat + j, AccessKind.read) ∈ s.cfg.memFaults) :
    readSrc s = .error (faultAt (s.srcAddr.toNat + j) s.mem) := by
  have h := ReadsInOrder.bytes (c := s.cfg) (srcBytes_holdsAt s)
  rw [srcBytes_length] at h
  exact h.2 j hj hn hx

/-- A command that reads all of SRC at first raises what the reading raises. -/
theorem run_readSrc_error {i : Instr} {s : State} {e : Raise} (hi : i ∈ [.freqBuild, .bitsPack, .encode, .bodyEncode])
    (hp : prologueError i s = none) (hcap : i = .bitsPack → (s.srcLen.toNat + 7) / 8 ≤ s.dstCap.toNat)
    (h : readSrc s = .error e) : runOf i s = .error e := by
  simp only [List.mem_cons, List.not_mem_nil, or_false] at hi
  rcases hi with rfl | rfl | rfl | rfl
  · simp only [runOf, runFreqBuild, checkSrc_of_prologue hp rfl, h, ok_bind, error_bind]
  · simp only [runOf, runBitsPack, checkRegions_of_prologue hp rfl rfl, checkCapacity_ok (n := ceil8 _) (hcap rfl), h,
      ok_bind, error_bind]
  · simp only [runOf, runEncode, encodeInput, requireEmpty_of_prologue (.inl hp), checkRegions_of_prologue hp rfl rfl, h,
      ok_bind, error_bind]
  · simp only [runOf, runBodyEncode, requireCodes_of_prologue hp, checkRegions_of_prologue hp rfl rfl, h, ok_bind,
      error_bind]

/-- A bit as the byte BITS_UNPACK writes. -/
theorem bitByte_eq_ite (b : Bool) : bitByte b = if b then 0x01#8 else 0x00#8 := by cases b <;> rfl

/-- BITS_UNPACK stops at the first byte of SRC it cannot read, after the bits of those before. -/
theorem runBitsUnpack_rejected {s : State} {j : Nat} (hp : prologueError .bitsUnpack s = none)
    (hcap : 8 * s.srcLen.toNat ≤ s.dstCap.toNat) (hj : j < s.srcLen.toNat)
    (hn : NoFault s.cfg .read s.srcAddr.toNat j) (hx : (s.srcAddr.toNat + j, AccessKind.read) ∈ s.cfg.memFaults)
    (hw : NoFault s.cfg .write s.dstAddr.toNat (8 * j)) :
    ∃ m, runOf .bitsUnpack s = .error (faultAt (s.srcAddr.toNat + j) m) ∧
      (∀ k, k < 8 * j → m.read (s.dstAddr.toNat + k) = bitByte (streamBit s.mem s.srcAddr.toNat k)) ∧
      Touches s.mem m s.dstAddr.toNat (8 * j) := by
  have hd := apart_of_prologue hp rfl rfl
  obtain ⟨m, hrun, hbits, ht⟩ := unpackInto_rejected (m := s.mem) (n := s.srcLen.toNat) hj hn hx hw (by omega)
  refine ⟨m, ?_, hbits, ht⟩
  simp only [runOf, runBitsUnpack, checkRegions_of_prologue hp rfl rfl, checkCapacity_ok hcap, hrun, ok_bind, error_bind]

/-- FREQ_DECOMPRESS stops at the first byte of its table it cannot read. -/
theorem runFreqDecompress_rejected {s : State} {eB eS eI : List (Byte × Nat)} {tail : List Byte} {j : Nat}
    (hc : CountsFit eB eS eI) (hp : prologueError .freqDecompress s = none)
    (hs : s.srcBytes = tableBytes eB eS eI ++ tail) (hj : j < (tableBytes eB eS eI).length)
    (hn : NoFault s.cfg .read s.srcAddr.toNat j) (hx : (s.srcAddr.toNat + j, AccessKind.read) ∈ s.cfg.memFaults) :
    runOf .freqDecompress s = .error (faultAt (s.srcAddr.toNat + j) s.mem) := by
  have hl : (tableBytes eB eS eI).length ≤ s.srcLen.toNat := by
    rw [← srcBytes_length, hs, List.length_append]
    omega
  have htable := ReadsInOrder.table hc (hs ▸ srcBytes_holdsAt s).left hl s.srcLen.isLt
  simp only [runOf, runFreqDecompress, checkSrc_of_prologue hp rfl, htable.2 j hj hn hx, ok_bind, error_bind]

/-- HDR_PARSE and DECODE raise what the parsing of the header raises. -/
theorem run_parseHeader_error {i : Instr} {s : State} {e : Raise} (hi : i = .hdrParse ∨ i = .decode)
    (hp : prologueError i s = none) (h : parseHeader s = .error e) : runOf i s = .error e := by
  rcases hi with rfl | rfl
  · simp only [runOf, runHdrParse, checkSrc_of_prologue hp rfl, h, ok_bind, error_bind]
  · simp only [runOf, runDecode, decodeInput, requireEmpty_of_prologue (.inr hp), checkRegions_of_prologue hp rfl rfl, h,
      ok_bind, error_bind]

/-- DECODE_ONE stops at the first byte of its walk it cannot read. -/
theorem runDecodeOne_rejected {s : State} {bits : Code} (hp : prologueError .decodeOne s = none)
    (ha : Astray s.tree.arena s.tree.root bits) (hc : s.bitCursor.toNat + bits.length < 8 * s.srcLen.toNat)
    (hs : StreamHas s.mem s.srcAddr.toNat s.bitCursor.toNat bits)
    (hr : BitsReadable s.cfg s.srcAddr.toNat s.bitCursor.toNat bits.length)
    (hx : (s.srcAddr.toNat + (s.bitCursor.toNat + bits.length) / 8, AccessKind.read) ∈ s.cfg.memFaults) :
    runOf .decodeOne s =
      .error (faultAt (s.srcAddr.toNat + (s.bitCursor.toNat + bits.length) / 8) s.mem) := by
  have hwalk := walk_rejected (k := 0) (fuel := 8 * s.srcLen.toNat - s.bitCursor.toNat) ha (by omega) hs hr hx
  simp only [runOf, runDecodeOne, requireRooted_of_prologue (.inl hp), checkSrc_of_prologue hp rfl, decodeOneAt, hwalk,
    ok_bind, error_bind]

/-- BODY_DECODE stops at the first byte of a walk it cannot read, after the symbols before it. -/
theorem runBodyDecode_rejected {s : State} {found : List (Code × Byte)} {rest bits : Code}
    (hp : prologueError .bodyDecode s = none) (hcap : s.dataLen.toNat ≤ s.dstCap.toNat)
    (hn : found.length < s.dataLen.toNat) (hl : ∀ f ∈ found, Leads s.tree.arena s.tree.root f.1 f.2)
    (ha : Astray s.tree.arena s.tree.root rest) (hb : bits = found.flatMap Prod.fst ++ rest)
    (hc : bits.length < 8 * s.srcLen.toNat) (hs : StreamHas s.mem s.srcAddr.toNat 0 bits)
    (hr : BitsReadable s.cfg s.srcAddr.toNat 0 bits.length)
    (hx : (s.srcAddr.toNat + bits.length / 8, AccessKind.read) ∈ s.cfg.memFaults)
    (hw : NoFault s.cfg .write s.dstAddr.toNat found.length) :
    ∃ m, runOf .bodyDecode s = .error (faultAt (s.srcAddr.toNat + bits.length / 8) m) ∧
      HoldsAt m s.dstAddr.toNat (found.map Prod.snd) ∧ Touches s.mem m s.dstAddr.toNat found.length := by
  subst hb
  have hd := apart_of_prologue hp rfl rfl
  obtain ⟨m, hrun, hheld, ht⟩ := decodeBody_rejected (m := s.mem) hl ha hn hc hs hr hx hw (by omega)
  refine ⟨m, ?_, hheld, ht⟩
  simp only [runOf, runBodyDecode, requireRooted_of_prologue (.inr hp), checkRegions_of_prologue hp rfl rfl,
    checkCapacity_ok hcap, hrun, ok_bind, error_bind]

/-- Bits that begin those of bytes in memory are a stream there. -/
theorem streamHas_of_isPrefix {m : Memory} {a : Nat} {bs : List Byte} {bits : List Bool} (h : HoldsAt m a bs)
    (hp : bits <+: unpack bs) : StreamHas m a 0 bits := by
  intro i hi
  have hlen := hp.length_le
  rw [unpack_length] at hlen
  have hbit := streamBit_unpack h (i := i) (by omega)
  rw [hp.getElem hi, Nat.zero_add]
  exact Option.some.inj (hbit.symm.trans (List.getElem?_eq_getElem _))

/-- DECODE's checks pass and its header reads well: it goes on to `build_tree`. -/
theorem decodeInput_ok {s : State} {hdr : Header} (hp : prologueError .decode s = none) (h : parseHeader s = .ok hdr)
    (hcap : hdr.dataLength ≤ s.dstCap.toNat) : decodeInput s = .ok hdr := by
  simp only [decodeInput, requireEmpty_of_prologue (.inr hp), checkRegions_of_prologue hp rfl rfl, h,
    checkCapacity_ok hcap, ok_bind]
  rfl

/-- DECODE stops at the first byte of its body it cannot read, after the symbols before it. -/
theorem runDecode_rejected {s : State} {hdr : Header} {T : Tree} {found : List (Code × Byte)} {rest bits : Code}
    (hp : prologueError .decode s = none) (hh : parseHeader s = .ok hdr) (hT : T = buildTree hdr.table s.tree)
    (hcap : hdr.dataLength ≤ s.dstCap.toNat) (hn : found.length < hdr.dataLength)
    (hl : ∀ f ∈ found, Leads T.arena T.root f.1 f.2) (ha : Astray T.arena T.root rest)
    (hb : bits = found.flatMap Prod.fst ++ rest) (hc : bits.length < 8 * (s.srcLen.toNat - hdr.headerLength))
    (hs : StreamHas s.mem (s.srcAddr.toNat + hdr.headerLength) 0 bits)
    (hr : BitsReadable s.cfg (s.srcAddr.toNat + hdr.headerLength) 0 bits.length)
    (hx : (s.srcAddr.toNat + hdr.headerLength + bits.length / 8, AccessKind.read) ∈ s.cfg.memFaults)
    (hw : NoFault s.cfg .write s.dstAddr.toNat found.length) :
    ∃ m, runOf .decode s = .error (faultAt (s.srcAddr.toNat + hdr.headerLength + bits.length / 8) m) ∧
      HoldsAt m s.dstAddr.toNat (found.map Prod.snd) ∧ Touches s.mem m s.dstAddr.toNat found.length := by
  subst hb
  have hd := apart_of_prologue hp rfl rfl
  obtain ⟨m, hrun, hheld, ht⟩ := decodeBody_rejected (m := s.mem) hl ha hn hc hs hr hx hw (by omega)
  refine ⟨m, ?_, hheld, ht⟩
  simp only [runOf, runDecode, decodeInput_ok hp hh hcap, ← hT, hrun, ok_bind, error_bind]

/-! ### The first rejected write -/

/-- As `StopsAt`, for a run: if `x0` commits more than `j` bytes, `x` is the MEM_FAULT of byte `j` of DST with the bytes
before it as `x0` has them. -/
def RunStopsAt (s : State) (j : Nat) (x x0 : Except Raise State) : Prop :=
  ∀ u, x0 = .ok u → j < u.resultLen.toNat → ∃ m, x = .error (faultAt (s.dstAddr.toNat + j) m) ∧
    (∀ k, k < j → m.read (s.dstAddr.toNat + k) = u.mem.read (s.dstAddr.toNat + k)) ∧
    Touches s.mem m s.dstAddr.toNat j

section
variable {α : Type} {s : State} {j : Nat}

/-- A part that goes the same way on both platforms. -/
theorem RunStopsAt.bind {x x0 : Except Raise α} {f f0 : α → Except Raise State} (hx : x = x0)
    (hf : ∀ a, x = .ok a → RunStopsAt s j (f a) (f0 a)) : RunStopsAt s j (x >>= f) (x0 >>= f0) := by
  subst hx
  cases x with
  | ok a => exact hf a rfl
  | error e => exact fun _ hu => by cases hu

/-- The writing of an output of `n` bytes and its commit. -/
theorem RunStopsAt.commit {x x0 : Except Raise Memory} {f f0 : Memory → Except Raise State} {n : Nat}
    (h : j < n → StopsAt s.mem s.dstAddr.toNat j x x0)
    (hf : ∀ m u, f0 m = .ok u → u.mem = m ∧ u.resultLen = BitVec.ofNat 32 n) :
    RunStopsAt s j (x >>= f) (x0 >>= f0) := by
  intro u hu hj
  obtain ⟨m0, hx0, hu⟩ := ok_of_bind hu
  obtain ⟨hmem, hlen⟩ := hf m0 u hu
  rw [hlen, BitVec.toNat_ofNat] at hj
  obtain ⟨m, hx, hk, ht⟩ := h (lt_of_lt_of_le hj (Nat.mod_le _ _)) m0 hx0
  exact ⟨m, by rw [hx, error_bind], hmem ▸ hk, ht⟩

end

section
variable {s : State} {j : Nat}

theorem readSrc_free (h : NoFault s.cfg .read s.srcAddr.toNat s.srcLen.toNat) :
    readSrc s = readSrc { s with cfg := unrejected s.cfg } := readBytes_free h

theorem encodeInput_free (h : NoFault s.cfg .read s.srcAddr.toNat s.srcLen.toNat) :
    encodeInput s = encodeInput { s with cfg := unrejected s.cfg } := by
  unfold encodeInput
  rw [readSrc_free h]
  rfl

theorem decodeInput_free (h : NoFault s.cfg .read s.srcAddr.toNat s.srcLen.toNat) :
    decodeInput s = decodeInput { s with cfg := unrejected s.cfg } := by
  unfold decodeInput
  rw [parseHeader_free h]
  rfl

/-- Writing an output stops at its first rejected byte. -/
theorem StopsAt.writeDst {out : List Byte} (hw : NoFault s.cfg .write s.dstAddr.toNat j)
    (hx : (s.dstAddr.toNat + j, AccessKind.write) ∈ s.cfg.memFaults) (hj : j < out.length) :
    StopsAt s.mem s.dstAddr.toNat j (writeDst s out) (writeDst { s with cfg := unrejected s.cfg } out) :=
  StopsAt.writeBytes hj hw hx

/-- The decoding of a body of `n` symbols and its commit. -/
theorem RunStopsAt.body {t : Tree} {base nbits n : Nat} {f f0 : Nat × Memory → Except Raise State}
    (hr : ∀ i, i < nbits → (base + i / 8, AccessKind.read) ∉ s.cfg.memFaults)
    (hw : NoFault s.cfg .write s.dstAddr.toNat j) (hx : (s.dstAddr.toNat + j, AccessKind.write) ∈ s.cfg.memFaults)
    (hf : ∀ r u, f0 r = .ok u → u.mem = r.2 ∧ u.resultLen = BitVec.ofNat 32 n) :
    RunStopsAt s j (decodeBody s.cfg t base nbits s.dstAddr.toNat n 0 0 s.mem >>= f)
      (decodeBody (unrejected s.cfg) t base nbits s.dstAddr.toNat n 0 0 s.mem >>= f0) := by
  intro u hu hj
  obtain ⟨r, hr0, hu⟩ := ok_of_bind hu
  obtain ⟨hmem, hlen⟩ := hf r u hu
  rw [hlen, BitVec.toNat_ofNat] at hj
  obtain ⟨m, hrun, hk, ht⟩ := decodeBody_stopsAt (lt_of_lt_of_le hj (Nat.mod_le _ _)) hr
    (by rwa [Nat.add_zero]) (by rwa [Nat.add_zero]) hr0
  rw [Nat.add_zero] at hrun hk ht
  exact ⟨m, by rw [hrun, error_bind], hmem ▸ hk, ht⟩

/-- Every command with DST whose reads are all good stops at the first rejected byte of its output. -/
theorem run_stopsAt (i : Instr) (hu : usesDst i = true)
    (hr : usesSrc i = true → NoFault s.cfg .read s.srcAddr.toNat s.srcLen.toNat)
    (hw : NoFault s.cfg .write s.dstAddr.toNat j)
    (hx : (s.dstAddr.toNat + j, AccessKind.write) ∈ s.cfg.memFaults) :
    RunStopsAt s j (runOf i s) (runOf i { s with cfg := unrejected s.cfg }) := by
  cases i
  case encode =>
    refine RunStopsAt.bind (encodeInput_free (hr rfl)) fun data hd => ?_
    obtain ⟨_, _, hdata⟩ := encodeInput_pass hd
    dsimp only
    rw [encodeBits_length (by rw [hdata, srcBytes_length]; exact s.srcLen.isLt)]
    generalize buildTree (count data) s.tree = built
    refine RunStopsAt.bind rfl fun _ _ => RunStopsAt.commit (fun hj => StopsAt.writeDst hw hx ?_)
      fun _ _ h => by cases h; exact ⟨rfl, rfl⟩
    rwa [List.length_append, pack_length]
  case decode =>
    refine RunStopsAt.bind (decodeInput_free (hr rfl)) fun hdr hd => ?_
    have hl := decodeInput_length hd
    dsimp only
    generalize buildTree hdr.table s.tree = built
    exact RunStopsAt.body (fun i hi => hr rfl _ (by omega) (by omega)) hw hx fun _ _ h => by cases h; exact ⟨rfl, rfl⟩
  case bitsPack =>
    refine RunStopsAt.bind rfl fun _ _ => RunStopsAt.bind rfl fun _ _ =>
      RunStopsAt.bind (readSrc_free (hr rfl)) fun data hd => RunStopsAt.commit (fun hj => StopsAt.writeDst hw hx ?_)
        fun _ _ h => by cases h; exact ⟨rfl, rfl⟩
    rwa [pack_length, List.length_map, readSrc_eq hd, srcBytes_length]
  case bitsUnpack =>
    exact RunStopsAt.bind rfl fun _ _ => RunStopsAt.bind rfl fun _ _ =>
      RunStopsAt.commit (fun hj => StopsAt.unpackInto hj (hr rfl) hw hx) fun _ _ h => by cases h; exact ⟨rfl, rfl⟩
  case freqCompress | hdrWrite =>
    exact RunStopsAt.bind rfl fun _ _ => RunStopsAt.bind rfl fun _ _ =>
      RunStopsAt.commit (StopsAt.writeDst hw hx) fun _ _ h => by cases h; exact ⟨rfl, rfl⟩
  case bodyEncode =>
    refine RunStopsAt.bind rfl fun _ _ => RunStopsAt.bind rfl fun _ _ =>
      RunStopsAt.bind (readSrc_free (hr rfl)) fun data _ => RunStopsAt.bind rfl fun _ _ =>
        RunStopsAt.commit (fun hj => StopsAt.writeDst hw hx ?_) fun _ _ h => by cases h; exact ⟨rfl, rfl⟩
    rwa [pack_length, encodeBits_ram_length]
  case bodyDecode =>
    exact RunStopsAt.bind rfl fun _ _ => RunStopsAt.bind rfl fun _ _ => RunStopsAt.bind rfl fun _ _ =>
      RunStopsAt.body (fun i hi => hr rfl _ (by omega) (by omega)) hw hx fun _ _ h => by cases h; exact ⟨rfl, rfl⟩
  all_goals cases hu

end

/-- Settles O44: each part is the raise of its run, as the completion of that raise. -/
theorem rejectedAccessRaisesMemFault : Obligations.RejectedAccessRaisesMemFault := by
  refine ⟨fun i s t => memFault_rejects, fun i s j hi hI hp hcap hj hn hx => ?_,
    fun s j hp hcap hj hn hx hw => ?_, fun s eB eS eI tail j hc hp hs hj hn hx => ?_,
    fun i s eB eS eI dl gap tail j hi hI hp hc hdl hs hj hn hx => ?_, fun s bits c hp ha hc hlt hs hr hx => ?_,
    fun s found rest c hp hcap hn hl ha hc hlt hs hr hx hw => ?_,
    fun s eB eS eI dl hl gap body T found rest more c hI hp hfit hdl hcap hhl hs hT hn hf ha hb hc hm hr hrb hx hw => ?_,
    fun i s t j hu hI hr ht herr hj hw hx => ?_⟩
  · exact exec_raised hI (run_readSrc_error hi hp hcap (readSrc_rejected hj hn hx))
  · obtain ⟨m, hrun, hbits, ht⟩ := runBitsUnpack_rejected hp hcap hj hn hx hw
    exact ⟨m, exec_raised_of_not_codec rfl hrun, fun k hk => by rw [hbits k hk, bitByte_eq_ite], ht.outside⟩
  · exact exec_raised_of_not_codec rfl (runFreqDecompress_rejected hc hp hs hj hn hx)
  · have hread := (ReadsInOrder.header hc hdl hs).2 j hj hn hx
    exact exec_raised hI (run_parseHeader_error hi hp hread)
  · subst hc
    exact exec_raised_of_not_codec rfl (runDecodeOne_rejected hp ha hlt hs hr hx)
  · subst hc
    obtain ⟨m, hrun, hheld, ht⟩ := runBodyDecode_rejected hp hcap hn hl ha rfl hlt hs hr hx hw
    exact ⟨m, exec_raised_of_not_codec rfl hrun, hheld, ht.outside⟩
  · subst hc hhl
    have hread := (ReadsInOrder.header hfit hdl hs).1
      (hr.sub (le_refl _) (by simp only [List.length_append]; omega))
    have hbody : HoldsAt s.mem (s.srcAddr.toNat + (8 + (tableBytes eB eS eI ++ gap).length)) body := by
      have h := (hs ▸ srcBytes_holdsAt s).right
      rw [List.append_assoc _ (tableBytes eB eS eI) gap, List.length_append, List.length_append, le_length,
        le_length] at h
      exact h
    have hlen := congrArg List.length hs
    have hbits := congrArg List.length hb
    have hpos := List.length_pos_iff.2 hm
    simp only [srcBytes_length, List.length_append, le_length, unpack_length] at hlen hbits
    obtain ⟨m, hrun, hheld, ht⟩ := runDecode_rejected hp hread hT hcap hn hf ha rfl
      (by simp only [List.length_append]; omega) (streamHas_of_isPrefix hbody ⟨more, hb⟩) hrb hx hw
    exact ⟨m, exec_raised hI hrun, hheld, ht.outside⟩
  · obtain ⟨u, hrun, _, rfl⟩ := exec_committed ht herr
    obtain ⟨m, hstop, hk, htouch⟩ := run_stopsAt i hu hr hw hx u hrun hj
    exact ⟨m, exec_raised hI hstop, hk, htouch.outside⟩

end Sys2Proof.Machine
end

section
/-! PROOFS. The family of the command words: the decoder and the encoder, acceptance and the engine's turn on a latched
word, the flags of dropped writes, and the overflow of DST (30_encoding.md R112 to R119). -/

namespace Sys2Proof.Machine

/-! ### The decoder and the encoder -/

/-- The decoder rejects a word with the word's own name alone (30_encoding.md R118). -/
theorem decodeWord_error {w : Word} {e : DecodeReject} (h : decodeWord w = .error e) : e = .notACommand w := by
  unfold decodeWord at h
  split at h <;> cases h
  rfl

/-- A word that is no command's is rejected (30_encoding.md R118). -/
theorem decodeWord_illegal {w : Word} (h : ∀ i, w ≠ encode i) : decodeWord w = .error (.notACommand w) := by
  cases hd : decodeWord w with
  | ok i => exact absurd (eq_encode_of_decodeWord hd) (h i)
  | error e => rw [decodeWord_error hd]

/-- Settles O2: the decoder reads the bytes of a word as the word, and on words it inverts the encoder. -/
theorem decodeAndEncodeAgree : Obligations.DecodeAndEncodeAgree := by
  refine ⟨fun i rest => ?_, fun w => decodeWord_illegal, fun w i => eq_encode_of_decodeWord⟩
  rw [decodeBytes_bytesOfWord, decodeWord_encode]
  rfl

/-- Settles O1: each word of R112 is the encoder's word of its row's command. -/
theorem opcodeMapWordsDecode : Obligations.OpcodeMapWordsDecode :=
  ⟨decodeWord_encode .encode, decodeWord_encode .decode, decodeWord_encode .bitsPack, decodeWord_encode .bitsUnpack,
    decodeWord_encode .freqBuild, decodeWord_encode .freqCompress, decodeWord_encode .freqDecompress,
    decodeWord_encode .hdrWrite, decodeWord_encode .hdrParse, decodeWord_encode .treeBuild,
    decodeWord_encode .codesDerive, decodeWord_encode .treeDestroy, decodeWord_encode .decodeOne,
    decodeWord_encode .bodyEncode, decodeWord_encode .bodyDecode⟩

/-! ### The engine's turn -/

/-- With nothing on the agenda the engine has the turn. -/
theorem step_of_agenda_nil {s : State} (h : s.agenda = []) : step s = engineTurn s := by
  simp only [step, h]

/-- The entry `engine` gives the engine the turn. -/
theorem step_of_agenda_engine {s : State} {rest : List HostOp} (h : s.agenda = .engine :: rest) :
    step s = engineTurn { s with agenda := rest } := by
  simp only [step, h]

theorem engineTurn_idle {s : State} (h : s.phase = .idle) : engineTurn s = .next s := by
  simp [engineTurn, busy_of_idle h]

theorem engineTurn_running {s : State} {i : Instr} (h : s.running i) (hc : s.coversDevice i = false) :
    engineTurn s = exec i s := by
  simp [engineTurn, busy_of_run h.1, runLatched_ok h.decodes, hc]

theorem engineTurn_illegal {s : State} (hp : s.phase = .run) (h : ∀ i, s.curCmd ≠ encode i) :
    engineTurn s = .next (s.completed .illegalCmd s.curCmd) := by
  simp [engineTurn, busy_of_run hp, runLatched_illegal (decodeWord_illegal h)]

/-- Settles O3: the engine's turn by what the latch holds, whichever way the agenda gives it. -/
theorem engineTurnRunsTheLatchedCommand : Obligations.EngineTurnRunsTheLatchedCommand := by
  intro s
  refine ⟨fun i hr hc => ⟨fun ha => ?_, fun rest ha => ?_⟩, fun hp hn => ⟨fun ha => ?_, fun rest ha => ?_⟩,
    fun hp => ⟨fun ha => ?_, fun rest ha => ?_⟩⟩
  · rw [step_of_agenda_nil ha, engineTurn_running hr hc]
  · rw [step_of_agenda_engine ha]
    exact engineTurn_running (s := { s with agenda := rest }) hr hc
  · rw [step_of_agenda_nil ha, engineTurn_illegal hp hn]
  · rw [step_of_agenda_engine ha]
    exact engineTurn_illegal (s := { s with agenda := rest }) hp hn
  · rw [step_of_agenda_nil ha, engineTurn_idle hp]
  · rw [step_of_agenda_engine ha]
    exact engineTurn_idle (s := { s with agenda := rest }) hp

/-! ### Acceptance -/

/-- A CMD write while no command runs is accepted (30_encoding.md R113). -/
theorem step_cmdWrite_idle {s : State} {w : Word} {rest : List HostOp} (hp : s.phase = .idle)
    (ha : s.agenda = .portWrite (s.cfg.csrBase + 0x014) 4 w :: rest) :
    step s = .next (accept w { s with agenda := rest }) :=
  step_portWrite_idle hp ha (by decide) (by decide) (r := .cmd) rfl rfl

/-- Settles O4: the write is an acceptance, and the turn after it is that of a state in which the command runs. -/
theorem cmdWriteIsAcceptedAndRuns : Obligations.CmdWriteIsAcceptedAndRuns := by
  intro s w rest hp ha
  have hstep := step_cmdWrite_idle hp ha
  refine ⟨latch w { s with agenda := rest }, rfl, fun hn => ?_, fun i hw => ⟨?_, fun hc => ?_⟩⟩
  · rw [hstep, accept_error (decodeWord_illegal hn)]
  · rw [hstep, accept_ok (hw ▸ decodeWord_encode i)]
  · exact (engineTurnRunsTheLatchedCommand _).1 i ⟨rfl, hw⟩ hc

/-! ### The flags of dropped writes -/

/-- The state with the flags that dropped writes set (10_state.md R41). -/
def State.withDropFlags (s : State) (ignored dropped : Bool) : State :=
  { s with wrIgnored := ignored, cmdDropped := dropped }

/-- The run `x'` raises as `x` does, or commits what `x` commits with the flags set. -/
def SameButDropFlags (ignored dropped : Bool) (x x' : Except Raise State) : Prop :=
  x' = x.map (·.withDropFlags ignored dropped)

section
variable {ignored dropped : Bool}

theorem SameButDropFlags.commit (t : State) :
    SameButDropFlags ignored dropped (pure t) (pure (t.withDropFlags ignored dropped)) := rfl

/-- Both runs begin with a part that does not look at the flags. -/
theorem SameButDropFlags.bind {α : Type} {x x' : Except Raise α} {f f' : α → Except Raise State} (hx : x' = x)
    (hf : ∀ a, SameButDropFlags ignored dropped (f a) (f' a)) :
    SameButDropFlags ignored dropped (x >>= f) (x' >>= f') := by
  subst hx
  cases x' with
  | ok a => exact hf a
  | error e => rfl

/-- No part of a command looks at the flags, and what it commits leaves them. -/
theorem runOf_withDropFlags (i : Instr) (s : State) :
    SameButDropFlags ignored dropped (runOf i s) (runOf i (s.withDropFlags ignored dropped)) := by
  cases i
  case treeBuild =>
    refine .bind rfl fun _ => ?_
    dsimp only [State.withDropFlags]
    -- Both runs commit the same built tree; as a variable it is not unfolded in the comparison.
    generalize buildTree s.freq s.tree = built
    exact .commit _
  case codesDerive | treeDestroy =>
    exact .bind rfl fun _ => .commit _
  case decode | freqBuild | freqDecompress | hdrParse =>
    exact .bind rfl fun _ => .bind rfl fun _ => .commit _
  case encode | bitsUnpack | freqCompress | hdrWrite | decodeOne =>
    exact .bind rfl fun _ => .bind rfl fun _ => .bind rfl fun _ => .commit _
  case bitsPack | bodyDecode =>
    exact .bind rfl fun _ => .bind rfl fun _ => .bind rfl fun _ => .bind rfl fun _ => .commit _
  case bodyEncode =>
    exact .bind rfl fun _ => .bind rfl fun _ => .bind rfl fun _ => .bind rfl fun _ => .bind rfl fun _ => .commit _

end

/-- Settles O13: the two runs differ in the flags alone, and completion leaves the flags. -/
theorem droppedWritesDoNotDisturbTheCommand : Obligations.DroppedWritesDoNotDisturbTheCommand := by
  intro i s t a b h
  show exec i (s.withDropFlags a b) = .next (t.withDropFlags a b)
  rw [exec_eq] at h ⊢
  rw [runOf_withDropFlags i s]
  cases hr : runOf i s with
  | ok u =>
    rw [hr] at h
    cases h
    rfl
  | error e =>
    rw [hr] at h
    cases h
    rfl

/-! ### Overflow of DST -/

theorem sat32_of_lt {n : Nat} (h : n < 2 ^ 32) : sat32 n = BitVec.ofNat 32 n := by
  rw [sat32, Nat.min_eq_left (by omega)]

theorem raise_bind {α β : Type} (s : State) (code : ErrCode) (info : Word) (f : α → Except Raise β) :
    (s.raise code info >>= f) = s.raise code info := rfl

/-- A run that raises DST_OVERFLOW before any write completes with the bytes needed and nothing else changed
(60_exceptions.md R288). -/
theorem exec_overflow {i : Instr} {s : State} {n : Nat} (hc : isCodec i = false)
    (hrun : runOf i s = s.raise .dstOverflow (sat32 n)) : exec i s = .next (s.completed .dstOverflow (sat32 n)) :=
  exec_raised_of_not_codec hc hrun

/-- Settles O42: the checks before it pass, so each run stops at its capacity check; every size but those of BITS_UNPACK
and BODY_ENCODE fits ERR_INFO as it is. -/
theorem overflowReportsBytesNeeded : Obligations.OverflowReportsBytesNeeded := by
  refine ⟨fun s ⟨hdst, _⟩ => ?_, fun s hsrc ⟨hdst, _⟩ hapart => ?_⟩
  · have hd := checkDst_ok hdst
    have hsize := (compress_bounds s.freq).2
    refine ⟨fun hn => ?_, fun hn => ?_⟩
    · rw [← sat32_of_lt (by omega)]
      exact exec_overflow rfl (by simp only [runOf, runFreqCompress, hd, ok_bind, checkCapacity_over hn, raise_bind])
    · rw [← headerBytes_length s.freq s.dataLen.toNat] at hn ⊢
      rw [← sat32_of_lt (by rw [headerBytes_length]; omega)]
      exact exec_overflow rfl (by simp only [runOf, runHdrWrite, hd, ok_bind, checkCapacity_over hn, raise_bind])
  · have hr := checkRegions_ok hsrc.1 hdst hapart
    refine ⟨fun hn => ?_, fun hn => ?_, fun ht hn => ?_, fun n hs hv hn => ?_⟩
    · have hlen := s.srcLen.isLt
      rw [← ceil8] at hn ⊢
      rw [← sat32_of_lt (by unfold ceil8; omega)]
      exact exec_overflow rfl (by simp only [runOf, runBitsPack, hr, ok_bind, checkCapacity_over hn, raise_bind])
    · exact exec_overflow rfl (by simp only [runOf, runBitsUnpack, hr, ok_bind, checkCapacity_over hn, raise_bind])
    · have hrooted : requireRooted s = .ok () := by simp [requireRooted, ht]
      have hsat : sat32 s.dataLen.toNat = s.dataLen := by simp [sat32_of_lt s.dataLen.isLt]
      rw [← hsat]
      exact exec_overflow rfl
        (by simp only [runOf, runBodyDecode, hrooted, hr, ok_bind, checkCapacity_over hn, raise_bind])
    · have hcodes : requireCodes s = .ok () := by simp [requireCodes, hv]
      subst hs
      rw [← ceil8] at hn ⊢
      exact exec_overflow rfl
        (by simp only [runOf, runBodyEncode, hcodes, hr, readSrc_ok hsrc, ok_bind, checkCapacity_over hn, raise_bind])

end Sys2Proof.Machine
end

section
/-! PROOFS. The family of the BitPacker: the laws of `pack` and `unpack`, and what BITS_PACK and BITS_UNPACK commit when
their regions are good (40_bitpacker.md R140 to R144). -/

namespace Sys2Proof.Machine

/-! ### `pack` and `unpack` are inverse up to padding -/

/-- Bit `i` of the unpacked bytes is bit `i mod 8` of byte `i div 8` (40_bitpacker.md R141). -/
theorem unpack_getElem (bs : List Byte) (i : Nat) (hi : i < (unpack bs).length) :
    (unpack bs)[i] = (bs[i / 8]'(by rw [unpack_length] at hi; omega)).getLsbD (i % 8) := by
  have hbyte : i / 8 < bs.length := by rw [unpack_length] at hi; omega
  have hbit := unpack_bit bs i
  rwa [List.getElem?_eq_getElem hi, List.getElem?_eq_getElem hbyte, Option.map_some, Option.some.injEq] at hbit

/-- Past the bits that were packed the last byte has zeros (40_bitpacker.md R142). -/
theorem unpack_pack (bits : List Bool) :
    unpack (pack bits) = bits ++ List.replicate (8 * ceil8 bits.length - bits.length) false := by
  refine List.ext_getElem ?_ fun i hi _ => ?_
  · simp only [unpack_length, pack_length, List.length_append, List.length_replicate, ceil8]
    omega
  · rw [unpack_getElem _ i hi, pack_bit _ _ _ _ (Nat.mod_lt i (by decide)), Nat.div_add_mod]
    by_cases hlt : i < bits.length
    · rw [List.getD_eq_getElem _ _ hlt, List.getElem_append_left hlt]
    · rw [List.getD_eq_default _ _ (not_lt.1 hlt), List.getElem_append_right (not_lt.1 hlt), List.getElem_replicate]

/-- Whole bytes need no padding (40_bitpacker.md R142). -/
theorem pack_unpack (bs : List Byte) : pack (unpack bs) = bs := by
  refine List.ext_getElem ?_ fun j hj hj' => BitVec.eq_of_getLsbD_eq fun k hk => ?_
  · rw [pack_length, unpack_length, ceil8]
    omega
  · have hdiv : (8 * j + k) / 8 = j := by omega
    have hmod : (8 * j + k) % 8 = k := by omega
    rw [pack_bit _ j k hj hk, List.getD_eq_getElem _ _ (by rw [unpack_length]; omega), unpack_getElem]
    simp only [hdiv, hmod]

/-- Settles O16: the two round trips, bit by bit, and the length of a packed sequence. -/
theorem packAndUnpackLaws : Obligations.PackAndUnpackLaws :=
  ⟨unpack_pack, pack_unpack, pack_length⟩

/-! ### The two commands -/

/-- A run that commits completes with no error and the committed state (60_exceptions.md R287). -/
theorem exec_commits_of_not_codec {i : Instr} {s t : State} (hc : isCodec i = false) (h : runOf i s = .ok t) :
    exec i s = .next (t.completed .none 0#32) := by
  rw [exec_eq, h, conclude_ok, hc, complete_false]

/-- An output with no rejected byte stands at DST_ADDR, and no other byte is written (20_memory.md R93). -/
theorem writeDst_ok {s : State} {out : List Byte} (h : NoFault s.cfg .write s.dstAddr.toNat out.length) :
    ∃ m, writeDst s out = .ok m ∧ HoldsAt m s.dstAddr.toNat out ∧ Touches s.mem m s.dstAddr.toNat out.length :=
  writeBytes_ok h

/-- Bit `i` that BITS_PACK packs: whether source byte `i` is not 0, and 0 past the source (40_bitpacker.md R143). -/
theorem srcFlags_getD (s : State) (i : Nat) : (s.srcBytes.map (fun b => b != 0#8)).getD i false =
    (decide (i < s.srcLen.toNat) && s.mem.read (s.srcAddr.toNat + i) != 0#8) := by
  by_cases hi : i < s.srcLen.toNat
  · rw [List.getD_eq_getElem _ _ (by simpa using hi), List.getElem_map,
      ← srcBytes_holdsAt s i (by simpa using hi), decide_eq_true hi, Bool.true_and]
  · rw [List.getD_eq_default _ _ (by simpa using hi), decide_eq_false hi, Bool.false_and]

/-- Settles O14: no check and no access of the run raises, and the output it writes holds the packed flags of SRC. -/
theorem bitsPackPacksSrc : Obligations.BitsPackPacksSrc := by
  intro s hsrc ⟨hdst, hcap, hwrite⟩ hapart
  have hlen : (pack (s.srcBytes.map (fun b => b != 0#8))).length = (s.srcLen.toNat + 7) / 8 := by
    rw [pack_length, List.length_map, srcBytes_length, ceil8]
  obtain ⟨m, hm, hheld, htouch⟩ := writeDst_ok (hlen ▸ hwrite)
  refine ⟨m, exec_commits_of_not_codec rfl ?_, fun i hi => ?_, hlen ▸ htouch.outside⟩
  · simp only [runOf, runBitsPack, checkRegions_ok hsrc.1 hdst hapart, checkCapacity_ok (n := ceil8 _) hcap,
      readSrc_ok hsrc, hm, ok_bind]
    rfl
  · rw [streamBit_pack hheld (by rwa [List.length_map, srcBytes_length]), srcFlags_getD]

/-- Settles O15: no check and no access of the run raises, and its loop writes each bit of SRC as a byte. -/
theorem bitsUnpackUnpacksSrc : Obligations.BitsUnpackUnpacksSrc := by
  intro s hsrc ⟨hdst, hcap, hwrite⟩ hapart
  have hd := (disjoint_iff s).1 hapart
  obtain ⟨m, hm, hbits, htouch⟩ := unpackInto_ok (m := s.mem) hsrc.2 hwrite (by omega)
  refine ⟨m, exec_commits_of_not_codec rfl ?_, fun i hi => by rw [hbits i hi, bitByte_eq_ite], htouch.outside⟩
  simp only [runOf, runBitsUnpack, checkRegions_ok hsrc.1 hdst hapart, checkCapacity_ok hcap, hm, ok_bind]
  rfl

end Sys2Proof.Machine
end

section
/-! PROOFS. The family of the FrequencyTable: counting the bytes of SRC, and where the fields of a compressed table stand
(41_frequency.md R160 to R163, R169). -/

namespace Sys2Proof.Machine

/-! ### Counting the bytes of SRC -/

theorem symbols_length : symbols.length = 256 := List.length_finRange

/-- The number of positions of SRC that hold a symbol (41_frequency.md R160). -/
theorem count_srcBytes (s : State) (sym : Fin 256) : s.srcBytes.count (BitVec.ofNat 8 sym.val) =
    ((List.range s.srcLen.toNat).filter
      (fun i => (s.mem.read (s.srcAddr.toNat + i)).toNat == sym.val)).length := by
  rw [State.srcBytes, List.count_eq_countP, List.countP_map, List.countP_eq_length_filter]
  congr 2
  funext i
  simp [← BitVec.toNat_inj, Bool.beq_eq_decide_eq]

/-- The counters of a table of counts sum to the number of bytes counted (41_frequency.md R160). -/
theorem sum_counters {bs : List Byte} (h : bs.length < 2 ^ 32) :
    (symbols.map (fun sym => ((count bs)[sym]).toNat)).sum = bs.length := by
  have hsum := sum_count bs (fun _ => 1)
  simpa only [count_get h, Nat.mul_one, List.map_const', List.sum_replicate, smul_eq_mul] using hsum

/-- Settles O17: SRC is read whole, and `count` of its bytes counts the positions of each symbol. -/
theorem freqBuildCountsSrc : Obligations.FreqBuildCountsSrc := by
  intro s hsrc
  have hlen : s.srcBytes.length < 2 ^ 32 := by rw [srcBytes_length]; exact s.srcLen.isLt
  refine ⟨count s.srcBytes, exec_commits_of_not_codec rfl ?_, ?_, fun sym => ?_⟩
  · simp only [runOf, runFreqBuild, checkSrc_ok hsrc.1, readSrc_ok hsrc, ok_bind]
    rfl
  · rw [sum_counters hlen, srcBytes_length]
  · rw [count_get hlen, count_srcBytes]

/-! ### The layout of a compressed table -/

/-- The counts of a bucket are those of an interval (41_frequency.md R161). -/
def Bucket.Covers (cls : Bucket) (lo hi : Nat) : Prop :=
  ∀ c, c < 2 ^ 32 → (bucketOf c = cls ↔ lo ≤ c ∧ c < hi)

theorem covers_byte : Bucket.Covers .byte 1 255 := fun _ _ => bucketOf_byte

theorem covers_short : Bucket.Covers .short 255 65535 := fun _ _ => bucketOf_short

theorem covers_int : Bucket.Covers .int 65535 (2 ^ 32) := fun _ hc => bucketOf_int.trans (and_iff_left hc).symm

/-- In an ascending list an element that is kept stands at the number of kept elements below it. -/
theorem getElem?_filter_rank {l : List (Fin 256)} (hl : l.Pairwise (· < ·)) {x : Fin 256} (hx : x ∈ l)
    {p : Fin 256 → Bool} (hp : p x = true) :
    (l.filter p)[(l.filter (fun y => decide (y.val < x.val) && p y)).length]? = some x := by
  induction l with
  | nil => cases hx
  | cons y l ih =>
    obtain ⟨hy, hl'⟩ := List.pairwise_cons.1 hl
    rcases List.mem_cons.1 hx with rfl | hx'
    · have hnone : l.filter (fun z => decide (z.val < x.val) && p z) = [] :=
        List.filter_eq_nil_iff.2 fun z hz => by
          have hxz : x.val < z.val := hy z hz
          rw [decide_eq_false (Nat.not_lt.2 hxz.le)]
          exact Bool.false_ne_true
      rw [List.filter_cons_of_pos hp, List.filter_cons_of_neg (by simp), hnone]
      rfl
    · have hlt : y.val < x.val := hy x hx'
      cases hpy : p y with
      | false => simpa only [List.filter_cons, hpy, Bool.and_false, if_neg Bool.false_ne_true] using ih hl' hx'
      | true =>
        simpa only [List.filter_cons, hpy, hlt, decide_true, Bool.and_true, if_true, List.length_cons,
          List.getElem?_cons_succ] using ih hl' hx'

section
variable {F : FreqTable} {cls : Bucket} {lo hi : Nat}

theorem bucketSymbols_eq_filter (h : cls.Covers lo hi) :
    bucketSymbols F cls = symbols.filter (fun sym => decide (lo ≤ F[sym].toNat ∧ F[sym].toNat < hi)) :=
  List.filter_congr fun sym _ => decide_eq_decide.2 (h _ (F[sym]).isLt)

theorem bucketSymbols_length (h : cls.Covers lo hi) : (bucketSymbols F cls).length = countsIn F lo hi 256 := by
  rw [bucketSymbols_eq_filter h, countsIn]
  simp

/-- A symbol stands in its bucket by its rank there (41_frequency.md R162). -/
theorem bucketSymbols_rank (h : cls.Covers lo hi) {sym : Fin 256} (h1 : lo ≤ F[sym].toNat) (h2 : F[sym].toNat < hi) :
    (bucketSymbols F cls)[countsIn F lo hi sym.val]? = some sym := by
  rw [bucketSymbols_eq_filter h]
  exact getElem?_filter_rank (List.sortedLT_finRange 256).pairwise (List.mem_finRange sym) (decide_eq_true ⟨h1, h2⟩)

theorem bucketEntries_length (h : cls.Covers lo hi) : (bucketEntries F cls).length = countsIn F lo hi 256 := by
  rw [bucketEntries, List.length_map, bucketSymbols_length h]

theorem bucketEntries_rank (h : cls.Covers lo hi) {sym : Fin 256} (h1 : lo ≤ F[sym].toNat) (h2 : F[sym].toNat < hi) :
    (bucketEntries F cls)[countsIn F lo hi sym.val]? = some (BitVec.ofNat 8 sym.val, F[sym].toNat) := by
  rw [bucketEntries, List.getElem?_map, bucketSymbols_rank h h1 h2]
  rfl

end

/-- The entry count of a bucket stands in its first four bytes (41_frequency.md R162). -/
theorem entryBytes_count (w : Nat) (es : List (Byte × Nat)) {j : Nat} (hj : j < 4) :
    (entryBytes w es)[j]? = some (BitVec.ofNat 8 (es.length / 256 ^ j)) := by
  rw [entryBytes_eq, List.getElem?_append_left (by rwa [le_length]), le_getElem _ _ _ hj]

/-- Entry `i` of a bucket stands after `i` entries of its width (41_frequency.md R162). -/
theorem entryBytes_entry {w : Nat} {es : List (Byte × Nat)} {i k : Nat} {e : Byte × Nat} (hi : es[i]? = some e)
    (hk : k < 1 + w) : (entryBytes w es)[4 + i * (1 + w) + k]? = (e.1 :: le e.2 w)[k]? := by
  have hpos : 0 < 1 + w := by omega
  rw [entryBytes_eq, List.getElem?_append_right (by rw [le_length]; omega), le_length,
    show 4 + i * (1 + w) + k - 4 = k + (1 + w) * i by rw [Nat.mul_comm]; omega, pairBytes,
    getElem_flatMap_const _ (1 + w) hpos _ (fun e _ => by rw [List.length_cons, le_length, Nat.add_comm]),
    Nat.add_mul_div_left _ _ hpos, Nat.div_eq_of_lt hk, Nat.zero_add, Nat.add_mul_mod_self_left, Nat.mod_eq_of_lt hk, hi]
  rfl

/-- The bucket of an interval stands in the compressed table from byte `p` on, with counts of `w` bytes. -/
def StandsAt (F : FreqTable) (lo hi w p : Nat) : Prop :=
  ∃ cls : Bucket, cls.Covers lo hi ∧ cls.width = w ∧
    ∀ i b, (bucketBytes F cls)[i]? = some b → (compress F)[p + i]? = some b

theorem bucketBytes_length {F : FreqTable} {cls : Bucket} {lo hi : Nat} (h : cls.Covers lo hi) :
    (bucketBytes F cls).length = 4 + countsIn F lo hi 256 * (1 + cls.width) := by
  rw [bucketBytes_eq, entryBytes_length, bucketEntries_length h]

/-- The three buckets follow each other, each after those before it (41_frequency.md R162). -/
theorem buckets_stand (F : FreqTable) : StandsAt F 1 255 1 0 ∧
    StandsAt F 255 65535 2 (4 + 2 * countsIn F 1 255 256) ∧
    StandsAt F 65535 (2 ^ 32) 4 (8 + 2 * countsIn F 1 255 256 + 3 * countsIn F 255 65535 256) := by
  have hB : (bucketBytes F .byte).length = 4 + countsIn F 1 255 256 * 2 := bucketBytes_length covers_byte
  have hS : (bucketBytes F .short).length = 4 + countsIn F 255 65535 256 * 3 := bucketBytes_length covers_short
  refine ⟨⟨.byte, covers_byte, rfl, fun i b h => ?_⟩, ⟨.short, covers_short, rfl, fun i b h => ?_⟩,
    ⟨.int, covers_int, rfl, fun i b h => ?_⟩⟩
  · have hi : i < (bucketBytes F .byte).length := (List.getElem?_eq_some_iff.1 h).1
    rw [compress, List.append_assoc, Nat.zero_add, List.getElem?_append_left hi, h]
  · have hi : i < (bucketBytes F .short).length := (List.getElem?_eq_some_iff.1 h).1
    rw [compress, List.append_assoc, List.getElem?_append_right (by omega), List.getElem?_append_left (by omega), ← h]
    congr 1
    omega
  · rw [compress, List.getElem?_append_right (by rw [List.length_append]; omega), ← h, List.length_append]
    congr 1
    omega

/-- The fields of a bucket: its entry count, and each of its symbols with its count (41_frequency.md R162). -/
theorem StandsAt.fields {F : FreqTable} {lo hi w p : Nat} (h : StandsAt F lo hi w p) :
    (∀ j, j < 4 → (compress F)[p + j]? = some (BitVec.ofNat 8 (countsIn F lo hi 256 / 256 ^ j))) ∧
    ∀ (sym : Fin 256) (q : Nat), lo ≤ (F[sym]).toNat → (F[sym]).toNat < hi →
      q = p + 4 + countsIn F lo hi sym.val * (1 + w) →
      (compress F)[q]? = some (BitVec.ofNat 8 sym.val) ∧
      ∀ j, j < w → (compress F)[q + 1 + j]? = some (BitVec.ofNat 8 ((F[sym]).toNat / 256 ^ j)) := by
  obtain ⟨cls, hcov, rfl, hat⟩ := h
  rw [bucketBytes_eq] at hat
  refine ⟨fun j hj => ?_, fun sym q h1 h2 hq => ?_⟩
  · rw [← bucketEntries_length hcov]
    exact hat j _ (entryBytes_count _ _ hj)
  · have hentry : ∀ k b, k < 1 + cls.width → (BitVec.ofNat 8 sym.val :: le (F[sym]).toNat cls.width)[k]? = some b →
        (compress F)[q + k]? = some b := by
      intro k b hk hb
      rw [hq, Nat.add_assoc p, Nat.add_assoc p]
      exact hat _ b ((entryBytes_entry (bucketEntries_rank hcov h1 h2) hk).trans hb)
    refine ⟨hentry 0 _ (by omega) rfl, fun j hj => ?_⟩
    rw [Nat.add_assoc, Nat.add_comm 1]
    exact hentry (j + 1) _ (by omega) (le_getElem _ _ _ hj)

/-- The length of a compressed table by its numbers of counts (41_frequency.md R163). -/
theorem compress_length_countsIn (F : FreqTable) : (compress F).length =
    12 + 2 * countsIn F 1 255 256 + 3 * countsIn F 255 65535 256 + 5 * countsIn F 65535 (2 ^ 32) 256 := by
  rw [compress_length, bucketSymbols_length covers_byte, bucketSymbols_length covers_short,
    bucketSymbols_length covers_int]

theorem countsIn_none {F : FreqTable} {lo hi : Nat} (h : ∀ sym : Fin 256, ¬ (lo ≤ F[sym].toNat ∧ F[sym].toNat < hi))
    (n : Nat) : countsIn F lo hi n = 0 :=
  List.length_eq_zero_iff.2 (List.filter_eq_nil_iff.2 fun sym _ => by simp only [decide_eq_false (h sym)]; simp)

theorem countsIn_all {F : FreqTable} {lo hi : Nat} (h : ∀ sym : Fin 256, lo ≤ F[sym].toNat ∧ F[sym].toNat < hi) :
    countsIn F lo hi 256 = 256 := by
  rw [countsIn, List.filter_eq_self.2 fun sym _ => by simp only [decide_eq_true (h sym)]; simp, symbols_length]

/-- Settles O18: the length by the buckets' sizes, and the fields of each bucket where it stands. -/
theorem compressedTableLayout : Obligations.CompressedTableLayout := by
  refine ⟨fun F nB nS nI hB hS hI => ?_, fun F hF => ?_, fun F hF => ?_⟩
  · subst hB hS hI
    obtain ⟨hbyte, hshort, hint⟩ := buckets_stand F
    refine ⟨compress_length_countsIn F, (compress_bounds F).1, (compress_bounds F).2, fun lo hi w p hmem => ?_⟩
    simp only [List.mem_cons, List.not_mem_nil, or_false, Prod.mk.injEq] at hmem
    rcases hmem with ⟨rfl, rfl, rfl, rfl⟩ | ⟨rfl, rfl, rfl, rfl⟩ | ⟨rfl, rfl, rfl, rfl⟩
    · exact hbyte.fields
    · exact hshort.fields
    · exact hint.fields
  · have hzero : ∀ sym : Fin 256, F[sym].toNat = 0 := fun sym => by rw [hF sym]; rfl
    rw [compress_length_countsIn, countsIn_none fun sym => by rw [hzero]; omega,
      countsIn_none fun sym => by rw [hzero]; omega, countsIn_none fun sym => by rw [hzero]; omega]
  · rw [compress_length_countsIn, countsIn_none fun sym => by have := hF sym; omega,
      countsIn_none fun sym => by have := hF sym; omega, countsIn_all fun sym => ⟨hF sym, (F[sym]).isLt⟩]

end Sys2Proof.Machine
end

section
/-! PROOFS. The family of the FrequencyTable: what FREQ_COMPRESS and HDR_WRITE write, what FREQ_DECOMPRESS and HDR_PARSE
read, and the errors of a malformed header or table (41_frequency.md R164 to R173). -/

namespace Sys2Proof.Machine

/-! ### Writing a table or a header -/

/-- Settles O19: no check and no access of the run raises. -/
theorem freqCompressWritesTable : Obligations.FreqCompressWritesTable := by
  intro s ⟨hdst, hcap, hwrite⟩
  obtain ⟨m, hm, hheld, htouch⟩ := writeDst_ok hwrite
  refine ⟨m, exec_commits_of_not_codec rfl ?_, hheld, htouch.outside⟩
  simp only [runOf, runFreqCompress, checkDst_ok hdst, checkCapacity_ok hcap, hm, ok_bind]
  rfl

/-- A little-endian field that stands in memory, byte by byte (20_memory.md R82). -/
theorem HoldsAt.fieldByte {m : Memory} {a v w j : Nat} (h : HoldsAt m a (le v w)) (hj : j < w) :
    m.read (a + j) = BitVec.ofNat 8 (v / 256 ^ j) := by
  obtain ⟨hlen, hbyte⟩ := List.getElem?_eq_some_iff.1 (le_getElem v w j hj)
  rw [h j hlen, hbyte]

/-- Settles O20: no check and no access of the run raises, and the header written has its three parts. -/
theorem hdrWriteWritesHeader : Obligations.HdrWriteWritesHeader := by
  intro s ⟨hdst, hcap, hwrite⟩
  obtain ⟨hmin, hmax⟩ := compress_bounds s.freq
  rw [← headerBytes_length s.freq s.dataLen.toNat] at hcap hwrite ⊢
  obtain ⟨m, hm, hheld, htouch⟩ := writeDst_ok hwrite
  refine ⟨by rw [headerBytes_length]; omega, by rw [headerBytes_length]; omega, m, exec_commits_of_not_codec rfl ?_,
    fun j hj => ?_, fun j hj => ?_, ?_, htouch.outside⟩
  · simp only [runOf, runHdrWrite, checkDst_ok hdst, checkCapacity_ok hcap, hm, ok_bind]
    rfl
  · rw [headerBytes_length]
    exact hheld.left.left.fieldByte hj
  · exact hheld.left.right.fieldByte hj
  · have htable := hheld.right
    rwa [List.length_append, le_length, le_length] at htable

/-! ### Reading a well-formed table or header -/

/-- Settles O21, by what `decompress` answers on well-laid entries. -/
theorem freqDecompressReadsTable : Obligations.FreqDecompressReadsTable := by
  intro s eB eS eI tail hsrc hfit hbytes
  have hheld : HoldsAt s.mem s.srcAddr.toNat (tableBytes eB eS eI) := (hbytes ▸ srcBytes_holdsAt s).left
  have hlen : (tableBytes eB eS eI).length ≤ s.srcLen.toNat := by
    rw [← srcBytes_length, hbytes, List.length_append]
    omega
  refine exec_commits_of_not_codec rfl ?_
  simp only [runOf, runFreqDecompress, checkSrc_ok hsrc.1, decompress_ok hfit hheld hlen s.srcLen.isLt hsrc.2, ok_bind]
  rfl

/-- Settles O22, by what `parse_header` answers on a well-formed header. -/
theorem hdrParseReadsHeader : Obligations.HdrParseReadsHeader := by
  intro s eB eS eI dl gap tail hsrc hfit hdl hbytes
  have hlen := congrArg List.length hbytes
  simp only [srcBytes_length, List.length_append, le_length] at hlen
  have hparse := (ReadsInOrder.header hfit hdl hbytes).1 (hsrc.2.sub (le_refl _) (by omega))
  refine exec_commits_of_not_codec rfl ?_
  simp only [runOf, runHdrParse, checkSrc_ok hsrc.1, hparse, ok_bind]
  rfl

/-! ### A table that does not fit -/

/-- Why a bucket of which only `rest` is left cannot be read: its count does not fit, or its entries do not; with how far
into the bucket the field starts that does not fit (41_frequency.md R165). -/
inductive Misfit (w : Nat) (rest : List Byte) : Nat → Prop
  | count (h : rest.length < 4) : Misfit w rest 0
  | entries {k : Nat} {more : List Byte} (hk : k < 2 ^ 32) (hrest : rest = le k 4 ++ more)
      (h : more.length < k * (1 + w)) : Misfit w rest 4

/-- The bytes `pre` of the buckets before the one whose counts have `w` bytes (41_frequency.md R165). -/
abbrev IsBefore (eB eS : List (Byte × Nat)) (w : Nat) (pre : List Byte) : Prop :=
  (w, pre) ∈ [(1, []), (2, entryBytes 1 eB), (4, entryBytes 1 eB ++ entryBytes 2 eS)]

section
variable {s : State} {base limit w : Nat} {pre rest : List Byte} {off : Nat}

/-- The bucket's round reports the field that does not fit. -/
theorem readBucket_misfit {p : Nat} (hm : Misfit w rest off) (hheld : HoldsAt s.mem (base + p) rest)
    (hlen : p + rest.length = limit) (hx : limit < 2 ^ 32) (hf : NoFault s.cfg .read base limit) (F : FreqTable) :
    readBucket s base limit w F p =
      s.raise .invalidFrequencyData (sat32 (base - s.srcAddr.toNat + (p + off))) := by
  cases hm with
  | count h => exact readBucket_noCount (by omega)
  | entries hk hrest h =>
    subst hrest
    rw [List.length_append, le_length] at hlen
    exact readBucket_noEntries hheld.left hk hf (by omega) (by omega)

/-- The rounds before a bucket pass, so `decompress` raises what the bucket's round raises, whatever the table by then. -/
theorem decompress_raises {eB eS : List (Byte × Nat)} (hb : IsBefore eB eS w pre) (hheld : HoldsAt s.mem base pre)
    (hlen : pre.length ≤ limit) (hx : limit < 2 ^ 32) (hf : NoFault s.cfg .read base limit) {code : ErrCode}
    {info : Word} (h : ∀ F, readBucket s base limit w F pre.length = s.raise code info) :
    decompress s base limit = s.raise code info := by
  have hcount : ∀ (w : Nat) (es : List (Byte × Nat)), (entryBytes w es).length ≤ limit → es.length < 2 ^ 32 := by
    intro w es hes
    have := entryBytes_length w es
    have := Nat.le_mul_of_pos_right es.length (show 0 < 1 + w by omega)
    omega
  simp only [IsBefore, List.mem_cons, List.not_mem_nil, or_false, Prod.mk.injEq] at hb
  unfold decompress
  rcases hb with ⟨rfl, rfl⟩ | ⟨rfl, rfl⟩ | ⟨rfl, rfl⟩
  · simp only [List.length_nil] at h
    rw [h]
    rfl
  · rw [readBucket_ok (es := eB) (by simpa using hheld) (by omega) hf (hcount 1 eB hlen), ok_bind, Nat.zero_add]
    simp only [h]
    rfl
  · rw [List.length_append] at hlen h
    rw [readBucket_ok (es := eB) (by simpa using hheld.left) (by omega) hf (hcount 1 eB (by omega)), ok_bind,
      Nat.zero_add]
    simp only
    rw [readBucket_ok (es := eS) hheld.right (by omega) hf (hcount 2 eS (by omega)), ok_bind]
    exact h _

/-- `decompress` reports the field that does not fit by its offset from SRC_ADDR (41_frequency.md R165). -/
theorem decompress_misfit {eB eS : List (Byte × Nat)} (hb : IsBefore eB eS w pre) (hm : Misfit w rest off)
    (hheld : HoldsAt s.mem base (pre ++ rest)) (hlen : (pre ++ rest).length = limit) (hx : limit < 2 ^ 32)
    (hf : NoFault s.cfg .read base limit) :
    decompress s base limit =
      s.raise .invalidFrequencyData (sat32 (base - s.srcAddr.toNat + (pre.length + off))) := by
  rw [List.length_append] at hlen
  exact decompress_raises hb hheld.left (by omega) hx hf (readBucket_misfit hm hheld.right hlen hx hf)

theorem Misfit.offset_le (hm : Misfit w rest off) : off ≤ rest.length := by
  cases hm with
  | count h => omega
  | entries hk hrest h => rw [hrest, List.length_append, le_length]; omega

end

/-- FREQ_DECOMPRESS with SRC ending within a bucket (41_frequency.md R171). -/
theorem freqDecompress_misfit {s : State} {eB eS : List (Byte × Nat)} {w off : Nat} {pre rest : List Byte}
    (hsrc : s.srcReady) (hb : IsBefore eB eS w pre) (hbytes : s.srcBytes = pre ++ rest) (hm : Misfit w rest off) :
    exec .freqDecompress s = .next (s.completed .invalidFrequencyData (BitVec.ofNat 32 (pre.length + off))) := by
  have hlen : (pre ++ rest).length = s.srcLen.toNat := by rw [← hbytes, srcBytes_length]
  have hlt := s.srcLen.isLt
  have hoff := hm.offset_le
  have hraise := decompress_misfit hb hm (hbytes ▸ srcBytes_holdsAt s) hlen hlt hsrc.2
  rw [List.length_append] at hlen
  rw [Nat.sub_self, Nat.zero_add, sat32_of_lt (by omega)] at hraise
  refine exec_raised_of_not_codec rfl (e := ⟨_, _, s.mem⟩) ?_
  simp only [runOf, runFreqDecompress, checkSrc_ok hsrc.1, hraise, ok_bind, raise_bind]
  rfl

/-- Settles O23: both fields that may not fit are a `Misfit`. -/
theorem freqDecompressReportsOffset : Obligations.FreqDecompressReportsOffset := by
  intro s eB eS w pre rest hsrc hb hbytes
  exact ⟨fun h => freqDecompress_misfit hsrc hb hbytes (.count h),
    fun k more hk hrest h => freqDecompress_misfit hsrc hb hbytes (.entries hk hrest h)⟩

/-! ### A malformed header -/

/-- The command begins with `parse_header`, after checks that pass (41_frequency.md R173, 43_codec.md R245). -/
def ParsesHeader (i : Instr) (s : State) : Prop :=
  i = .hdrParse ∨ (i = .decode ∧ s.tree.Vacant ∧ s.disjoint ∧ s.dstAddr.toNat + s.dstCap.toNat ≤ s.cfg.memSize)

/-- HDR_PARSE and DECODE complete with what the parsing of the header raises, and nothing else changed. -/
theorem exec_header_raise {i : Instr} {s : State} (hi : ParsesHeader i s) (hsrc : s.srcReady) {code : ErrCode}
    {info : Word} (h : parseHeader s = s.raise code info) : exec i s = .next (s.completed code info) := by
  rcases hi with rfl | ⟨rfl, hv, hapart, hdst⟩
  · refine exec_raised_of_not_codec rfl (e := ⟨code, info, s.mem⟩) ?_
    simp only [runOf, runHdrParse, checkSrc_ok hsrc.1, h, ok_bind, raise_bind]
    rfl
  · have hrun : runOf .decode s = s.raise code info := by
      simp only [runOf, runDecode, decodeInput, requireEmpty_ok hv.empty, checkRegions_ok hsrc.1 hdst hapart, h, ok_bind,
        raise_bind]
    rw [exec_eq, hrun]
    exact congrArg _ (complete_vacant _ _ _ hv)

/-- `parse_header` on the two fixed fields: its checks, then the table within `headerLength` (41_frequency.md R167). -/
theorem parseHeader_fields {s : State} {hl dl : Nat} {tail : List Byte} (hsrc : s.srcReady) (hhl : hl < 2 ^ 32)
    (hdl : dl < 2 ^ 32) (hbytes : s.srcBytes = le hl 4 ++ le dl 4 ++ tail) :
    parseHeader s =
      if hl < 8 then s.raise .malformedHeader 1#32
      else if hl > s.srcLen.toNat then s.raise .malformedHeader 2#32
      else decompress s (s.srcAddr.toNat + 8) (hl - 8) >>= fun r =>
        .ok { dataLength := dl, table := r.1, headerLength := hl } := by
  have hlen := congrArg List.length hbytes
  simp only [srcBytes_length, List.length_append, le_length] at hlen
  have hheld : HoldsAt s.mem s.srcAddr.toNat (le hl 4 ++ le dl 4) := (hbytes ▸ srcBytes_holdsAt s).left
  have h1 := readField_holds hheld.left (hsrc.2.sub (le_refl _) (by omega)) hhl
  have hheld2 := hheld.right
  rw [le_length] at hheld2
  have h2 := readField_holds hheld2 (hsrc.2.sub (by omega) (by omega)) hdl
  unfold parseHeader
  rw [if_neg (by omega), h1, ok_bind, h2, ok_bind]
  rfl

/-- Settles O24: each check of the fixed fields raises before the table is read. -/
theorem malformedHeaderReported : Obligations.MalformedHeaderReported := by
  intro i s hi hsrc
  refine ⟨fun hshort => exec_header_raise hi hsrc (if_pos hshort), fun hl dl tail hhl hdl hbytes => ?_⟩
  have hparse := parseHeader_fields hsrc hhl hdl hbytes
  refine ⟨fun hlow => exec_header_raise hi hsrc ?_, fun h8 hhigh => exec_header_raise hi hsrc ?_⟩
  · rw [hparse, if_pos hlow]
  · rw [hparse, if_neg (by omega), if_pos hhigh]

/-- HDR_PARSE and DECODE with `headerLength` ending within a bucket (41_frequency.md R173, 43_codec.md R245). -/
theorem exec_header_misfit {i : Instr} {s : State} {eB eS : List (Byte × Nat)} {w dl off : Nat}
    {pre rest tail : List Byte} (hi : ParsesHeader i s) (hsrc : s.srcReady) (hdl : dl < 2 ^ 32)
    (hb : IsBefore eB eS w pre)
    (hbytes : s.srcBytes = le (8 + (pre ++ rest).length) 4 ++ le dl 4 ++ pre ++ rest ++ tail)
    (hm : Misfit w rest off) :
    exec i s = .next (s.completed .invalidFrequencyData (BitVec.ofNat 32 (8 + (pre.length + off)))) := by
  have hbytes' : s.srcBytes = le (8 + (pre ++ rest).length) 4 ++ le dl 4 ++ ((pre ++ rest) ++ tail) := by
    rw [hbytes]
    simp only [List.append_assoc]
  have hlen := congrArg List.length hbytes'
  simp only [srcBytes_length, List.length_append, le_length] at hlen
  have hlt := s.srcLen.isLt
  have hoff := hm.offset_le
  have hheld : HoldsAt s.mem (s.srcAddr.toNat + 8) (pre ++ rest) := by
    have h := (hbytes' ▸ srcBytes_holdsAt s).right.left
    rwa [List.length_append, le_length, le_length] at h
  have hraise := decompress_misfit hb hm hheld rfl (by rw [List.length_append]; omega)
    (hsrc.2.sub (by omega) (by rw [List.length_append]; omega))
  rw [Nat.add_sub_cancel_left, sat32_of_lt (by omega)] at hraise
  refine exec_header_raise hi hsrc ?_
  rw [parseHeader_fields hsrc (by rw [List.length_append]; omega) hdl hbytes', if_neg (by omega),
    if_neg (by rw [List.length_append]; omega), Nat.add_sub_cancel_left, hraise]
  rfl

/-- Settles O25: the offsets of `decompress` are counted from SRC_ADDR, and its limit is `headerLength`. -/
theorem headerTableErrorReported : Obligations.HeaderTableErrorReported := by
  intro i s eB eS w dl pre rest tail hi hsrc hdl hb hbytes
  exact ⟨fun h => exec_header_misfit hi hsrc hdl hb hbytes (.count h),
    fun k more hk hrest h => exec_header_misfit hi hsrc hdl hb hbytes (.entries hk hrest h)⟩

/-! ### The round trip -/

/-- A sequence of writes that did not raise met no rejected byte. -/
theorem writeBytes_noFault {c : Config} {m m' : Memory} {a : Nat} {bs : List Byte}
    (h : writeBytes c m a bs = .ok m') : NoFault c .write a bs.length := by
  induction bs generalizing m a with
  | nil => exact fun b hb hb' => by rw [List.length_nil] at hb'; omega
  | cons b bs ih =>
    obtain ⟨m1, hfirst, hrest⟩ := ok_of_bind h
    intro x hx hx'
    rw [List.length_cons] at hx'
    rcases Nat.eq_or_lt_of_le hx with rfl | hlt
    · exact fun hbad => by rw [memWrite_rejected hbad] at hfirst; cases hfirst
    · exact ih hrest x hlt (by omega)

/-- An output that was written stands at DST_ADDR. -/
theorem writeDst_holds {s : State} {out : List Byte} {m : Memory} (h : writeDst s out = .ok m) :
    HoldsAt m s.dstAddr.toNat out := by
  obtain ⟨m', h', hheld, _⟩ := writeDst_ok (writeBytes_noFault h)
  cases h.symm.trans h'
  exact hheld

/-- What a successful FREQ_COMPRESS leaves at DST_ADDR (41_frequency.md R170). -/
theorem freqCompress_output {s t : State} (h : exec .freqCompress s = .next t) (herr : t.err = false) :
    HoldsAt t.mem s.dstAddr.toNat (compress s.freq) ∧ t.resultLen.toNat = (compress s.freq).length := by
  obtain ⟨u, hrun, _, rfl⟩ := exec_committed h herr
  obtain ⟨_, _, hrun⟩ := ok_of_bind hrun
  obtain ⟨_, hcap, hrun⟩ := ok_of_bind hrun
  obtain ⟨m, hm, hrun⟩ := ok_of_bind hrun
  cases hrun
  exact ⟨writeDst_holds hm, toNat_ofNat_of_le (checkCapacity_pass hcap)⟩

/-- What a successful HDR_WRITE leaves at DST_ADDR and in HDR_LEN (41_frequency.md R172). -/
theorem hdrWrite_output {s t : State} (h : exec .hdrWrite s = .next t) (herr : t.err = false) :
    HoldsAt t.mem s.dstAddr.toNat (headerBytes s.freq s.dataLen.toNat) ∧
      t.resultLen.toNat = (headerBytes s.freq s.dataLen.toNat).length ∧
      t.hdrLen = BitVec.ofNat 32 (headerBytes s.freq s.dataLen.toNat).length := by
  obtain ⟨u, hrun, _, rfl⟩ := exec_committed h herr
  obtain ⟨_, _, hrun⟩ := ok_of_bind hrun
  obtain ⟨_, hcap, hrun⟩ := ok_of_bind hrun
  obtain ⟨m, hm, hrun⟩ := ok_of_bind hrun
  cases hrun
  exact ⟨writeDst_holds hm, toNat_ofNat_of_le (checkCapacity_pass hcap), rfl⟩

/-- SRC starts with bytes that it reads as another memory holds them. -/
theorem srcBytes_of_copied {u : State} {m : Memory} {a : Nat} {bs : List Byte} (hheld : HoldsAt m a bs)
    (hlen : bs.length ≤ u.srcLen.toNat)
    (hcopy : ∀ i, i < bs.length → u.mem.read (u.srcAddr.toNat + i) = m.read (a + i)) :
    ∃ tail, u.srcBytes = bs ++ tail := by
  refine ⟨u.srcBytes.drop bs.length, ?_⟩
  have htake : u.srcBytes.take bs.length = bs := by
    refine List.ext_getElem (by rw [List.length_take, srcBytes_length]; omega) fun i _ hi => ?_
    rw [List.getElem_take, ← srcBytes_holdsAt u, hcopy i hi, hheld i hi]
  conv_lhs => rw [← List.take_append_drop bs.length u.srcBytes, htake]

/-- Settles O26: SRC starts with a well-laid table or header, whose entries give the table back. -/
theorem frequencyRoundTrip : Obligations.FrequencyRoundTrip := by
  refine ⟨fun s t u h herr hsrc hlen hcopy => ?_, fun s t u h herr hsrc hlen hcopy => ?_⟩
  · obtain ⟨hheld, hres⟩ := freqCompress_output h herr
    rw [hres] at hlen hcopy
    obtain ⟨tail, hbytes⟩ := srcBytes_of_copied hheld hlen hcopy
    rw [compress_eq] at hbytes
    rw [freqDecompressReadsTable u _ _ _ tail hsrc (compress_fits s.freq) hbytes, assigned_bucketEntries]
  · obtain ⟨hheld, hres, hhdr⟩ := hdrWrite_output h herr
    rw [hres] at hlen hcopy
    obtain ⟨tail, hbytes⟩ := srcBytes_of_copied hheld hlen hcopy
    rw [headerBytes_length, compress_eq] at hhdr
    rw [headerBytes, compress_eq] at hbytes
    have hread := hdrParseReadsHeader u _ _ _ s.dataLen.toNat [] tail hsrc (compress_fits s.freq) s.dataLen.isLt
    simp only [List.append_nil] at hread
    rw [hread hbytes, assigned_bucketEntries, hhdr, BitVec.ofNat_toNat, BitVec.setWidth_eq]

end Sys2Proof.Machine
end

section
/-! PROOFS. The family of the HuffmanTree: TREE_BUILD and what it depends on, the codes CODES_DERIVE writes, DECODE_ONE
on a good SRC, and how long a ROOTED tree lasts (42_tree.md R200 to R214). -/

namespace Sys2Proof.Machine

/-! ### A build depends on the table alone -/

/-- The arenas hold the same nodes below `k`: they may differ in the entries that the build has not made yet. -/
def AgreeBelow (k : Nat) (A A' : Vector Node 511) : Prop := ∀ i : NodeId, i.val < k → A[i] = A'[i]

theorem AgreeBelow.eq {A A' : Vector Node 511} (h : AgreeBelow 511 A A') : A = A' :=
  Vector.ext fun i hi => h ⟨i, hi⟩ hi

theorem AgreeBelow.setParent {k : Nat} {A A' : Vector Node 511} {n : NodeId} (h : AgreeBelow k A A') (hn : n.val < k)
    (m : NodeId) : AgreeBelow k (Machine.setParent A n m) (Machine.setParent A' n m) := fun i hi => by
  rw [setParent_get, setParent_get, h n hn, h i hi]

/-- Making node `m` on both sides makes them agree on it too. -/
theorem AgreeBelow.set {m : NodeId} {A A' : Vector Node 511} (h : AgreeBelow m.val A A') (node : Node) :
    AgreeBelow (m.val + 1) (A.set m.val node m.isLt) (A'.set m.val node m.isLt) := fun i hi => by
  simp only [Fin.getElem_fin, Vector.getElem_set]
  split
  · rfl
  · exact h i (by omega)

/-- Two builds that have come equally far: the same `PQ` and the same nodes made. -/
structure SameBuild (t t' : Tree) : Prop where
  nextId : t.nextId = t'.nextId
  pq : t.pq = t'.pq
  arena : AgreeBelow t.nextId t.arena t'.arena

/-- Seeding makes every node below NEXT_ID from the table (42_tree.md R201). -/
theorem sameBuild_seed (F : FreqTable) (old old' : Tree) (st : TreeState) :
    SameBuild { Tree.seed F old with state := st } { Tree.seed F old' with state := st } where
  nextId := rfl
  pq := rfl
  arena := fun i hi => by
    have hi : i.val < 256 := hi
    simp [Tree.seed, hi]

/-- A merge reads only `PQ`, NEXT_ID and the two nodes it merges (42_tree.md R202). -/
theorem SameBuild.merge {t t' : Tree} (h : SameBuild t t') (hmade : ∀ e ∈ t.pq, e.node.val < t.nextId) :
    SameBuild t.merge t'.merge := by
  obtain ⟨st, A, pq, n, root⟩ := t
  obtain ⟨st', A', pq', n', root'⟩ := t'
  obtain ⟨rfl, rfl, hA⟩ := h
  unfold Tree.merge
  match pq with
  | [] | [_] => exact ⟨rfl, rfl, hA⟩
  | a :: b :: rest =>
    by_cases hn : n < 511
    · have ha : a.node.val < n := hmade a (by simp)
      have hb : b.node.val < n := hmade b (by simp)
      simp only [hn, dite_true]
      exact ⟨rfl, rfl, ((hA.set (m := ⟨n, hn⟩) _).setParent (Nat.lt_succ_of_lt ha) _).setParent
        (Nat.lt_succ_of_lt hb) _⟩
    · simp only [hn, dite_false]
      exact ⟨rfl, rfl, hA⟩

theorem SameBuild.mergeAll {F : FreqTable} (n : Nat) {t t' : Tree} (h : SameBuild t t') (hb : Building F t)
    (hn : t.nextId + n ≤ 511) : SameBuild (Tree.mergeAll n t) (Tree.mergeAll n t') := by
  induction n generalizing t t' with
  | zero => exact h
  | succ n ih =>
    obtain ⟨hb', hn'⟩ := building_merge hb (by omega)
    exact ih (h.merge fun e he => (hb.member e he).1) hb' (by omega)

theorem setRoot_arena (t : Tree) : t.setRoot.arena = t.arena := by
  unfold Tree.setRoot
  split <;> rfl

/-- The arena that `build_tree` leaves does not depend on what it held before (42_tree.md R204). -/
theorem buildTree_arena_eq (F : FreqTable) (old old' : Tree) : (buildTree F old).arena = (buildTree F old').arena := by
  have hb := building_seed F old
  have hlast : (Tree.seed F old).nextId + 255 ≤ 511 := Nat.le_refl 511
  have hall := (sameBuild_seed F old old' .merging).mergeAll 255 hb hlast
  have hn := (building_mergeAll 255 hb hlast).2
  have harena := hall.arena
  rw [hn] at harena
  rw [buildTree, buildTree, setRoot_arena, setRoot_arena]
  exact harena.eq

/-! ### TREE_BUILD -/

/-- TREE_BUILD on an EMPTY arena commits the tree built from FREQ (42_tree.md R210). -/
theorem runOf_treeBuild {s : State} (h : s.tree.state = .empty) :
    runOf .treeBuild s = .ok { s with tree := buildTree s.freq s.tree } := by
  simp only [runOf, runTreeBuild, requireEmpty_ok h, ok_bind]
  rfl

/-- A command that builds a tree succeeds from an EMPTY arena alone. -/
theorem run_needs_empty {i : Instr} {s t : State} (hi : i = .encode ∨ i = .decode ∨ i = .treeBuild)
    (h : runOf i s = .ok t) : s.tree.state = .empty := by
  rcases hi with rfl | rfl | rfl
  · obtain ⟨_, hin, _⟩ := ok_of_bind h
    exact (encodeInput_pass hin).1
  · obtain ⟨_, hin, _⟩ := ok_of_bind h
    exact (decodeInput_pass hin).1
  · obtain ⟨_, hin, _⟩ := ok_of_bind h
    exact requireEmpty_pass hin

/-- The tree that a successful TREE_BUILD leaves. -/
theorem treeBuild_tree {s t : State} (h : exec .treeBuild s = .next t) (herr : t.err = false) :
    t.tree = buildTree s.freq s.tree := by
  obtain ⟨u, hrun, _, rfl⟩ := exec_committed h herr
  rw [runOf_treeBuild (run_needs_empty (.inr (.inr rfl)) hrun)] at hrun
  rw [← Except.ok.inj hrun, complete_tree, if_neg (by decide)]

/-- Settles O27, by what `build_tree` leaves. -/
theorem treeBuildBuildsTree : Obligations.TreeBuildBuildsTree := by
  intro s hs
  obtain ⟨hbuilt, _, hleaf⟩ := buildTree_spec s.freq s.tree
  exact ⟨buildTree s.freq s.tree, exec_commits_of_not_codec rfl (runOf_treeBuild hs), hbuilt, hleaf⟩

/-- Settles O28, by the order in which `build_tree` merges. -/
theorem treeBuildMergesTheTwoLeast : Obligations.TreeBuildMergesTheTwoLeast := by
  intro s t h herr
  rw [treeBuild_tree h herr]
  exact (buildTree_spec s.freq s.tree).2.1

/-- Settles O29: the arenas agree on every node made, which is all 511, and the root is node 510. -/
theorem treeBuildIsDeterministic : Obligations.TreeBuildIsDeterministic := by
  intro s s' t t' hF h h' herr herr'
  rw [treeBuild_tree h herr, treeBuild_tree h' herr', ← hF]
  refine ⟨buildTree_arena_eq s.freq s.tree s'.tree, ?_⟩
  rw [(buildTree_spec s.freq s.tree).1.root, (buildTree_spec s.freq s'.tree).1.root]

/-! ### Codes -/

/-- The RAM written from a code table gives back every code that its length field can hold (10_state.md R54, R55). -/
theorem ramCode_commitCodes (s : State) (codes : Vector Code 256) (sym : Fin 256) (h : codes[sym].length ≤ 255) :
    (s.commitCodes codes).ramCode sym = codes[sym] := by
  have hlen : ((s.commitCodes codes).codeLen[sym]).toNat = codes[sym].length := by
    simpa using h.trans_lt (by decide : 255 < 256)
  rw [State.ramCode, hlen]
  refine List.ext_getElem (by simp) fun k hk hk' => ?_
  have hk256 : k < 256 := by omega
  simp only [Fin.getElem_fin] at hk'
  simp [getLsbD_ofNat_bitsValue, hk256, hk']

/-- Settles O30: the RAM holds the codes of the tree, which lead to the leaves. -/
theorem codesDeriveWritesCodes : Obligations.CodesDeriveWritesCodes := by
  intro s hs
  let t := s.commitCodes (deriveCodes s.tree.arena)
  have hrun : runOf .codesDerive s = .ok t := by
    simp only [runOf, runCodesDerive, requireRooted, hs.rooted, if_true, ok_bind]
    rfl
  refine ⟨t.codeLen, t.codeBits, exec_commits_of_not_codec rfl hrun, fun sym => ?_⟩
  obtain ⟨hleads, _, hlen⟩ := codeOf_spec hs sym
  obtain ⟨hpos, hzero⟩ := commitCodes_wf hs s sym
  have hcode : (deriveCodes s.tree.arena)[sym] = codeOf s.tree.arena sym := by simp [deriveCodes]
  refine ⟨hpos, ?_, hzero⟩
  have hram : t.ramCode sym = codeOf s.tree.arena sym := by
    rw [← hcode]
    exact ramCode_commitCodes s _ sym (hcode ▸ hlen)
  rw [← hram] at hleads
  exact hleads

theorem symbolByte_injective {a b : Fin 256} (h : BitVec.ofNat 8 a.val = BitVec.ofNat 8 b.val) : a = b := by
  have := congrArg BitVec.toNat h
  simp only [BitVec.toNat_ofNat] at this
  omega

/-- Settles O31: a code leads to its leaf, and a path to a leaf that begins another is that path. -/
theorem codesArePrefixFree : Obligations.CodesArePrefixFree := by
  intro F old old' T T' a b hT hT'
  have hbuilt : T.Built := hT ▸ (buildTree_spec F old).1
  have harena : T'.arena = T.arena := by rw [hT, hT', buildTree_arena_eq F old' old]
  obtain ⟨hleads, hpos, hlen⟩ := codeOf_spec hbuilt a
  refine ⟨hpos, hlen, hleads, by rw [harena], fun hab hprefix => hab ?_⟩
  exact symbolByte_injective (hleads.prefix_eq (codeOf_spec hbuilt b).1 hprefix).2

/-! ### DECODE_ONE -/

/-- With a ROOTED tree and SRC in range, DECODE_ONE is the walk from BIT_CURSOR (42_tree.md R213). -/
theorem runOf_decodeOne {s : State} (ht : s.tree.state = .rooted) (hsrc : s.srcReady) :
    runOf .decodeOne s =
      (decodeOneAt s.cfg s.mem s.tree s.srcAddr.toNat s.bitCursor.toNat (8 * s.srcLen.toNat) 0).map
        (fun r => { s with symbol := r.1, bitCursor := BitVec.ofNat 35 r.2 }) := by
  simp only [runOf, runDecodeOne, requireRooted, ht, if_true, checkSrc_ok hsrc.1, ok_bind]
  cases decodeOneAt s.cfg s.mem s.tree s.srcAddr.toNat s.bitCursor.toNat (8 * s.srcLen.toNat) 0 <;> rfl

/-- Settles O33: the walk follows the path. -/
theorem decodeOneFollowsBits : Obligations.DecodeOneFollowsBits := by
  intro s path sym ht hsrc hleads hfit hstream
  refine exec_commits_of_not_codec rfl ?_
  rw [runOf_decodeOne ht hsrc, decodeOneAt,
    walk_leads hleads (by omega) hstream (bitsReadable_of_noFault hsrc.2 hfit)]
  rfl

/-- The bits of SRC from a cursor to its end can be read; there are none when the cursor is past the end. -/
theorem bitsReadable_to_end {cfg : Config} {base bytes c : Nat} (h : NoFault cfg .read base bytes) :
    BitsReadable cfg base c (8 * bytes - c) := by
  by_cases hc : c ≤ 8 * bytes
  · exact bitsReadable_of_noFault h (by omega)
  · intro j h1 h2
    omega

/-- Settles O34: the walk goes astray along all the bits that are left. -/
theorem decodeOneReportsTruncation : Obligations.DecodeOneReportsTruncation := by
  intro s bits ht hsrc hlen hstream hastray
  have hreadable := hlen ▸ bitsReadable_to_end (c := s.bitCursor.toNat) hsrc.2
  refine exec_raised_of_not_codec rfl (e := { code := .truncatedStream, info := 0#32, mem := s.mem }) ?_
  rw [runOf_decodeOne ht hsrc, decodeOneAt, walk_astray hastray hlen hstream hreadable]
  rfl

/-! ### The life of a ROOTED tree -/

/-- TREE_DESTROY on a ROOTED tree commits the cleared arena (42_tree.md R212). -/
theorem runOf_treeDestroy {s : State} (h : s.tree.state = .rooted) :
    runOf .treeDestroy s = .ok { s with tree := s.tree.clear } := by
  simp only [runOf, runTreeDestroy, requireRooted, h, if_true, ok_bind]
  rfl

theorem Tree.clear_get (t : Tree) (n : NodeId) : t.clear.arena[n] = { t.arena[n] with valid := false } := by
  simp [Tree.clear]

/-- Settles O32, by what clearing the arena does to each entry. -/
theorem treeDestroyClearsArena : Obligations.TreeDestroyClearsArena := fun s hs =>
  ⟨s.tree.clear.arena, exec_commits_of_not_codec rfl (runOf_treeDestroy hs), s.tree.clear_get⟩

/-- A raise leaves a ROOTED tree: ENCODE and DECODE clear the arena on an error other than STATE, which they raise from
an EMPTY one alone. -/
theorem raise_keeps_rooted {i : Instr} {s : State} {e : Raise} (hs : s.tree.state = .rooted)
    (h : runOf i s = .error e) : (complete (isCodec i) e.code e.info { s with mem := e.mem }).tree = s.tree := by
  rw [complete_raise (fun he => by rw [hs] at he; cases he) h, completed_tree]

theorem isCodec_false {i : Instr} (henc : i ≠ .encode) (hdec : i ≠ .decode) : isCodec i = false := by
  cases i
  case encode => exact absurd rfl henc
  case decode => exact absurd rfl hdec
  all_goals rfl

/-- A command that succeeds leaves a ROOTED tree, or is TREE_DESTROY. -/
theorem commit_keeps_rooted {i : Instr} {s t : State} (hs : s.tree.state = .rooted) (h : runOf i s = .ok t)
    (hc : CommitSpec i s t) (hi : i ≠ .treeDestroy) : (complete (isCodec i) .none 0#32 t).tree = s.tree := by
  have hbuilds : ¬ (i = .encode ∨ i = .decode ∨ i = .treeBuild) := fun hi => by
    have hempty := run_needs_empty hi h
    rw [hs] at hempty
    cases hempty
  obtain ⟨h1, h2, h3⟩ : i ≠ .encode ∧ i ≠ .decode ∧ i ≠ .treeBuild := by simpa using hbuilds
  rw [isCodec_false h1 h2, complete_false, completed_tree]
  exact hc.tree h1 h2 h3 hi

/-- What a command's run does to a ROOTED tree: nothing, or TREE_DESTROY succeeds and clears the arena. -/
theorem exec_rooted {i : Instr} {s t : State} (hs : s.tree.state = .rooted) (h : exec i s = .next t) :
    t.tree = s.tree ∨ (i = .treeDestroy ∧ t.phase = .idle ∧ t.done = true ∧ t.err = false ∧
      t.tree.state = .empty ∧ ∀ n : NodeId, t.tree.arena[n].valid = false) := by
  rcases exec_cases i s with ⟨u, hr, hc, hx⟩ | ⟨e, hr, _, hx⟩ <;> rw [hx] at h <;> cases h
  · by_cases hi : i = .treeDestroy
    · subst hi
      rw [runOf_treeDestroy hs] at hr
      cases hr
      exact .inr ⟨rfl, rfl, rfl, rfl, rfl, fun n => congrArg Node.valid (s.tree.clear_get n)⟩
    · exact .inl (commit_keeps_rooted hs hr hc hi)
  · exact .inl (raise_keeps_rooted hs hr)

/-- Settles O58, by the cases of a step. -/
theorem rootedTreeLastsUntilDestroyed : Obligations.RootedTreeLastsUntilDestroyed := by
  intro s t hstep hs
  rcases step_cases hstep with ⟨rest, ht⟩ | ⟨r, rest, rfl⟩ | ⟨off, v, rest, ha, rfl⟩ | ⟨a, rest, rfl⟩ |
    ⟨a, v, rest, _, rfl⟩ | ⟨rest, ha, _⟩
  · rcases engineTurn_cases ht with ⟨_, rfl⟩ | ⟨i, hp, hd, _, he⟩ | ⟨_, rfl⟩
    · exact .inl rfl
    · refine (exec_rooted (s := { s with agenda := rest }) hs he).imp id ?_
      rintro ⟨rfl, hdone⟩
      exact .inl ⟨⟨hp, eq_encode_of_decodeWord hd⟩, hdone⟩
    · exact .inl rfl
  · exact .inl rfl
  · rcases hostWriteReg_cases { s with agenda := rest } (portReg off) v with ⟨hr, hv, _⟩ | hk
    · obtain rfl := portReg_ctrl hr
      exact .inr (.inr (.inr ⟨v, rest, ha, hv⟩))
    · exact .inl hk.tree
  · exact .inl rfl
  · exact .inl rfl
  · exact .inr (.inr (.inl ⟨rest, ha⟩))

end Sys2Proof.Machine
end

section
/-! PROOFS. The family of the Codec: what BODY_ENCODE and ENCODE write, what BODY_DECODE and DECODE decode, where a body
that ends early stops them, their overflow of DST, and the round trip (43_codec.md R240 to R246). -/

namespace Sys2Proof.Machine

/-! ### BODY_ENCODE -/

theorem requireCodes_ok {s : State} (h : s.codesValid = true) : requireCodes s = .ok () := by
  simp [requireCodes, h]

theorem requireRooted_ok {s : State} (h : s.tree.state = .rooted) : requireRooted s = .ok () := by
  simp [requireRooted, h]

/-- Settles O35: no check and no access of the run raises, and the output it writes holds the packed codes of SRC. -/
theorem bodyEncodeWritesBody : Obligations.BodyEncodeWritesBody := by
  intro s bits hcodes hsrc hapart hbits ⟨hdst, hcap, hwrite⟩
  replace hbits : bits = encodeBits s.srcBytes s.ramCode := hbits
  have hlen : (pack bits).length = (bits.length + 7) / 8 := pack_length bits
  obtain ⟨m, hm, hheld, htouch⟩ := writeDst_ok (hlen ▸ hwrite)
  refine ⟨m, exec_commits_of_not_codec rfl ?_, fun i hi => streamBit_pack hheld hi, hlen ▸ htouch.outside⟩
  subst hbits
  simp only [runOf, runBodyEncode, requireCodes_ok hcodes, checkRegions_ok hsrc.1 hdst hapart, readSrc_ok hsrc,
    ← encodeBits_ram_length, checkCapacity_ok (n := ceil8 _) hcap, hm, ok_bind]
  rfl

/-! ### Decoding a body to its end -/

/-- Writes apart from the bytes of a stream keep its bits. -/
theorem StreamHas.keep_apart {m m' : Memory} {base c bytes lo n : Nat} {bits : List Bool} (h : StreamHas m base c bits)
    (hl : c + bits.length ≤ 8 * bytes) (ho : SameOutside m m' lo n)
    (hd : n = 0 ∨ bytes = 0 ∨ lo + n ≤ base ∨ base + bytes ≤ lo) : StreamHas m' base c bits := by
  intro i hi
  rw [← h i hi, streamBit, ho _ (by omega), streamBit]

section
variable {cfg : Config} {t : Tree} {base bytes dst n : Nat} {m : Memory} {found : List (Code × Byte)}

/-- A body that starts with the walks to `n` leaves is decoded to their symbols (43_codec.md R241). -/
theorem decodeBody_symbols (hl : ∀ f ∈ found, Leads t.arena t.root f.1 f.2)
    (hc : (found.flatMap Prod.fst).length ≤ 8 * bytes) (hs : StreamHas m base 0 (found.flatMap Prod.fst))
    (hr : NoFault cfg .read base bytes) (hw : NoFault cfg .write dst found.length)
    (hd : found.length = 0 ∨ bytes = 0 ∨ dst + found.length ≤ base ∨ base + bytes ≤ dst) :
    ∃ m', decodeBody cfg t base (8 * bytes) dst found.length 0 0 m = .ok ((found.flatMap Prod.fst).length, m') ∧
      HoldsAt m' dst (found.map Prod.snd) ∧ Touches m m' dst found.length := by
  obtain ⟨m', hrun, hheld, ht⟩ := decodeBody_found (k := 0) (c := 0) (bytes := bytes) hl (le_refl _) (by omega) hs
    (bitsReadable_of_noFault hr (by omega)) (by rwa [Nat.zero_add]) (by rwa [Nat.zero_add])
  rw [Nat.sub_self, Nat.zero_add, Nat.zero_add, decodeBody] at hrun
  exact ⟨m', hrun, hheld, ht⟩

/-- A body that ends before the walk to its next leaf does is TRUNCATED_STREAM, with the symbols before it written
(43_codec.md R241). -/
theorem decodeBody_truncated {rest : Code} (hl : ∀ f ∈ found, Leads t.arena t.root f.1 f.2)
    (ha : Astray t.arena t.root rest) (hn : found.length < n)
    (hc : (found.flatMap Prod.fst ++ rest).length = 8 * bytes)
    (hs : StreamHas m base 0 (found.flatMap Prod.fst ++ rest)) (hr : NoFault cfg .read base bytes)
    (hw : NoFault cfg .write dst found.length)
    (hd : found.length = 0 ∨ bytes = 0 ∨ dst + found.length ≤ base ∨ base + bytes ≤ dst) :
    ∃ m', decodeBody cfg t base (8 * bytes) dst n 0 0 m =
        .error { code := .truncatedStream, info := BitVec.ofNat 32 found.length, mem := m' } ∧
      HoldsAt m' dst (found.map Prod.snd) ∧ Touches m m' dst found.length := by
  rw [List.length_append] at hc
  obtain ⟨hwalks, hrest⟩ := hs.split
  obtain ⟨m', hrun, hheld, ht⟩ := decodeBody_found (k := 0) (c := 0) (bytes := bytes) hl hn.le (by omega) hwalks
    (bitsReadable_of_noFault hr (by omega)) (by rwa [Nat.zero_add]) (by rwa [Nat.zero_add])
  rw [Nat.zero_add] at hrest
  rw [Nat.zero_add, Nat.zero_add] at hrun
  have hwalk := walk_astray (k := found.length) (fuel := 8 * bytes - (found.flatMap Prod.fst).length) ha (by omega)
    (hrest.keep_apart (by omega) ht.outside hd) (bitsReadable_of_noFault hr (by omega))
  obtain ⟨q, hq⟩ : ∃ q, n - found.length = q + 1 := ⟨n - found.length - 1, by omega⟩
  refine ⟨m', ?_, hheld, ht⟩
  rw [hrun, hq, decodeBody, decodeOneAt, hwalk, error_bind]

end

/-! ### BODY_DECODE -/

/-- With its checks passed, BODY_DECODE is the decoding of its body (43_codec.md R243). -/
theorem runOf_bodyDecode {s : State} (ht : s.tree.state = .rooted) (hsrc : s.srcReady) (hapart : s.disjoint)
    (hdst : s.dstReady s.dataLen.toNat) :
    runOf .bodyDecode s =
      (decodeBody s.cfg s.tree s.srcAddr.toNat (8 * s.srcLen.toNat) s.dstAddr.toNat s.dataLen.toNat 0 0 s.mem).map
        (fun r => { s with mem := r.2, bitCursor := BitVec.ofNat 35 r.1, resultLen := s.dataLen }) := by
  simp only [runOf, runBodyDecode, requireRooted_ok ht, checkRegions_ok hsrc.1 hdst.1 hapart,
    checkCapacity_ok hdst.2.1, ok_bind, BitVec.ofNat_toNat, BitVec.setWidth_eq]
  cases decodeBody s.cfg s.tree s.srcAddr.toNat (8 * s.srcLen.toNat) s.dstAddr.toNat s.dataLen.toNat 0 0 s.mem <;> rfl

/-- Settles O36: the run is the decoding of the walks that SRC starts with. -/
theorem bodyDecodeWritesSymbols : Obligations.BodyDecodeWritesSymbols := by
  intro s found ht hsrc hapart hdst hn hl hc hs
  have hrun := runOf_bodyDecode ht hsrc hapart hdst
  obtain ⟨_, hcap, hwrite⟩ := hdst
  rw [← hn] at hcap hwrite hrun ⊢
  have hd := (disjoint_iff s).1 hapart
  obtain ⟨m, hbody, hheld, htouch⟩ := decodeBody_symbols hl hc hs hsrc.2 hwrite (by omega)
  exact ⟨m, exec_commits_of_not_codec rfl (by rw [hrun, hbody]; rfl), hheld, htouch.outside⟩

/-- BODY_DECODE of a body that ends early (43_codec.md R243). -/
theorem bodyDecode_truncated {s : State} {found : List (Code × Byte)} {rest : Code} (ht : s.tree.state = .rooted)
    (hsrc : s.srcReady) (hapart : s.disjoint) (hdst : s.dstReady s.dataLen.toNat) (hn : found.length < s.dataLen.toNat)
    (hl : ∀ f ∈ found, Leads s.tree.arena s.tree.root f.1 f.2) (ha : Astray s.tree.arena s.tree.root rest)
    (hc : (found.flatMap Prod.fst ++ rest).length = 8 * s.srcLen.toNat)
    (hs : StreamHas s.mem s.srcAddr.toNat 0 (found.flatMap Prod.fst ++ rest)) :
    ∃ m, exec .bodyDecode s = .next (State.completed { s with mem := m } .truncatedStream
        (BitVec.ofNat 32 found.length)) ∧
      HoldsAt m s.dstAddr.toNat (found.map Prod.snd) ∧ SameOutside s.mem m s.dstAddr.toNat found.length := by
  have hrun := runOf_bodyDecode ht hsrc hapart hdst
  obtain ⟨_, hcap, hwrite⟩ := hdst
  have hd := (disjoint_iff s).1 hapart
  obtain ⟨m, hbody, hheld, htouch⟩ := decodeBody_truncated hl ha hn hc hs hsrc.2
    (hwrite.sub (le_refl _) (by omega)) (by omega)
  rw [hbody] at hrun
  exact ⟨m, exec_raised_of_not_codec rfl hrun, hheld, htouch.outside⟩

/-! ### ENCODE and DECODE at their completion -/

/-- A run that commits a vacant arena completes with no error and the committed state (60_exceptions.md R287). -/
theorem exec_commits_of_vacant {i : Instr} {s t : State} (hv : t.tree.Vacant) (h : runOf i s = .ok t) :
    exec i s = .next (t.completed .none 0#32) := by
  rw [exec_eq, h, conclude_ok, complete_vacant _ _ _ hv]

/-- A raise from a vacant arena completes with its error, and commits nothing (60_exceptions.md R287, R288). -/
theorem exec_raised_of_vacant {i : Instr} {s : State} {e : Raise} (hv : s.tree.Vacant) (h : runOf i s = .error e) :
    exec i s = .next (State.completed { s with mem := e.mem } e.code e.info) := by
  rw [exec_eq, h, conclude_error]
  exact congrArg _ (complete_vacant _ _ _ hv)

/-- A built arena is vacant once it is cleared. -/
theorem buildTree_clear_vacant (F : FreqTable) (old : Tree) : (buildTree F old).clear.Vacant :=
  Tree.vacant_clear (buildTree_spec F old).1.pq

/-! ### DECODE -/

/-- A stream in SRC, taken apart: `parse_header` reads its header, and its body stands after the header and ends with
SRC (43_codec.md R245). -/
theorem stream_parts {s : State} {eB eS eI : List (Byte × Nat)} {dl : Nat} {gap body : List Byte} (hsrc : s.srcReady)
    (hfit : CountsFit eB eS eI) (hdl : dl < 2 ^ 32)
    (hbytes : s.srcBytes =
      le (8 + (tableBytes eB eS eI ++ gap).length) 4 ++ le dl 4 ++ tableBytes eB eS eI ++ gap ++ body) :
    parseHeader s = .ok
        { dataLength := dl, table := assigned (eB ++ eS ++ eI),
          headerLength := 8 + (tableBytes eB eS eI ++ gap).length } ∧
      HoldsAt s.mem (s.srcAddr.toNat + (8 + (tableBytes eB eS eI ++ gap).length)) body ∧
      s.srcLen.toNat = 8 + (tableBytes eB eS eI ++ gap).length + body.length := by
  have hlen := congrArg List.length hbytes
  simp only [srcBytes_length, List.length_append, le_length] at hlen
  refine ⟨(ReadsInOrder.header hfit hdl hbytes).1 (hsrc.2.sub (le_refl _) (by omega)), ?_, ?_⟩
  · have hbody := (hbytes ▸ srcBytes_holdsAt s).right
    rwa [List.append_assoc _ (tableBytes eB eS eI) gap, List.length_append, List.length_append, le_length,
      le_length] at hbody
  · rw [hlen, List.length_append]
    omega

/-- What DECODE commits when `decode_body` ends with the cursor at `c` and memory `m` (43_codec.md R245). -/
def State.decoded (s : State) (h : Header) (c : Nat) (m : Memory) : State :=
  { s with
    mem := m
    tree := (buildTree h.table s.tree).clear
    freq := h.table
    dataLen := BitVec.ofNat 32 h.dataLength
    hdrLen := BitVec.ofNat 32 h.headerLength
    bitCursor := BitVec.ofNat 35 c
    resultLen := BitVec.ofNat 32 h.dataLength }

/-- With its checks passed and its header read, DECODE is the decoding of its body in the tree of the header's table
(43_codec.md R245). -/
theorem runOf_decode {s : State} {h : Header} (ht : s.tree.state = .empty) (hsrc : s.srcReady) (hapart : s.disjoint)
    (hdst : s.dstReady h.dataLength) (hparse : parseHeader s = .ok h) :
    runOf .decode s =
      (decodeBody s.cfg (buildTree h.table s.tree) (s.srcAddr.toNat + h.headerLength)
        (8 * (s.srcLen.toNat - h.headerLength)) s.dstAddr.toNat h.dataLength 0 0 s.mem).map
        (fun r => s.decoded h r.1 r.2) := by
  have hinput : decodeInput s = .ok h := by
    simp only [decodeInput, requireEmpty_ok ht, checkRegions_ok hsrc.1 hdst.1 hapart, hparse,
      checkCapacity_ok hdst.2.1, ok_bind]
    rfl
  simp only [runOf, runDecode, hinput, ok_bind, State.decoded]
  generalize buildTree h.table s.tree = T
  cases decodeBody s.cfg T (s.srcAddr.toNat + h.headerLength) (8 * (s.srcLen.toNat - h.headerLength)) s.dstAddr.toNat
    h.dataLength 0 0 s.mem <;> rfl

/-- Settles O40: the run is the decoding of the walks that the body starts with. -/
theorem decodeWritesData : Obligations.DecodeWritesData := by
  intro s eB eS eI gap body T found ht hsrc hapart hdst hfit hbytes hT hl hprefix
  have hcap := hdst.2.1
  have hdl : found.length < 2 ^ 32 := lt_of_le_of_lt hcap s.dstCap.isLt
  obtain ⟨hparse, hbody, hlen⟩ := stream_parts hsrc hfit hdl hbytes
  have hrun := runOf_decode ht hsrc hapart hdst hparse
  have hbits := hprefix.length_le
  rw [unpack_length] at hbits
  have hd := (disjoint_iff s).1 hapart
  obtain ⟨m, hdecode, hheld, htouch⟩ := decodeBody_symbols hl hbits (streamHas_of_isPrefix hbody hprefix)
    (hsrc.2.sub (by omega) (by omega)) hdst.2.2 (by omega)
  simp only [hlen, Nat.add_sub_cancel_left, ← hT, hdecode] at hrun
  exact ⟨m, _, exec_commits_of_vacant (buildTree_clear_vacant _ _) hrun, buildTree_clear_vacant _ _, hheld,
    htouch.outside⟩

/-- Settles O37: the walks before the end of SRC are decoded, and the next walk goes astray. -/
theorem bodyDecodeTruncatedKeepsPrefix : Obligations.BodyDecodeTruncatedKeepsPrefix := by
  refine ⟨fun s found rest => bodyDecode_truncated, ?_⟩
  intro s eB eS eI dl gap body T found rest hv hsrc hapart hdst hfit hdl hbytes hT hn hl ha hbits
  obtain ⟨hparse, hbody, hlen⟩ := stream_parts hsrc hfit hdl hbytes
  have hrun := runOf_decode hv.empty hsrc hapart hdst hparse
  obtain ⟨_, hcap, hwrite⟩ := hdst
  have hd := (disjoint_iff s).1 hapart
  obtain ⟨m, hdecode, hheld, htouch⟩ := decodeBody_truncated hl ha hn (by rw [hbits, unpack_length])
    (streamHas_of_isPrefix hbody (hbits ▸ List.prefix_refl _)) (hsrc.2.sub (by omega) (by omega))
    (hwrite.sub (le_refl _) (by omega)) (by omega)
  simp only [hlen, Nat.add_sub_cancel_left, ← hT, hdecode] at hrun
  exact ⟨m, exec_raised_of_vacant hv hrun, hheld, htouch.outside⟩

/-! ### ENCODE -/

/-- The codes ENCODE writes the bytes of SRC with (43_codec.md R244). -/
def State.sourceCode (s : State) : Fin 256 → Code := codeOf (buildTree (count s.srcBytes) s.tree).arena

/-- The stream ENCODE writes (43_codec.md R244). -/
def State.stream (s : State) : List Byte :=
  headerBytes (count s.srcBytes) s.srcLen.toNat ++ pack (encodeBits s.srcBytes s.sourceCode)

theorem stream_length (s : State) : s.stream.length =
    (headerBytes (count s.srcBytes) s.srcLen.toNat).length + ceil8 (encodeBits s.srcBytes s.sourceCode).length := by
  rw [State.stream, List.length_append, pack_length]

/-- What ENCODE commits when memory is `m` after its writes (43_codec.md R244). -/
def State.encoded (s : State) (m : Memory) : State :=
  { s.commitCodes (deriveCodes (buildTree (count s.srcBytes) s.tree).arena) with
    mem := m
    tree := (buildTree (count s.srcBytes) s.tree).clear
    freq := count s.srcBytes
    dataLen := s.srcLen
    hdrLen := BitVec.ofNat 32 (headerBytes (count s.srcBytes) s.srcLen.toNat).length
    bitCount := BitVec.ofNat 40 (encodeBits s.srcBytes s.sourceCode).length
    resultLen := BitVec.ofNat 32 s.stream.length }

theorem deriveCodes_get (arena : Vector Node 511) : (fun sym => (deriveCodes arena)[sym]) = codeOf arena := by
  funext sym
  simp [deriveCodes]

theorem encodeInput_ok {s : State} (ht : s.tree.state = .empty) (hsrc : s.srcReady) (hapart : s.disjoint)
    (hdst : s.dstAddr.toNat + s.dstCap.toNat ≤ s.cfg.memSize) : encodeInput s = .ok s.srcBytes := by
  simp only [encodeInput, requireEmpty_ok ht, checkRegions_ok hsrc.1 hdst hapart, readSrc_ok hsrc, ok_bind]

/-- With its checks passed and SRC read, ENCODE is the writing of its stream (43_codec.md R244). -/
theorem runOf_encode {s : State} (h : encodeInput s = .ok s.srcBytes) :
    runOf .encode s =
      checkCapacity s s.stream.length >>= fun _ => writeDst s s.stream >>= fun m => pure (s.encoded m) := by
  have hbytes : s.srcBytes.length < 2 ^ 32 := by
    rw [srcBytes_length]
    exact s.srcLen.isLt
  show runEncode s = _
  unfold runEncode State.encoded State.stream State.sourceCode
  rw [h, ok_bind]
  dsimp only
  -- Both sides name the same built tree; as a variable it is not unfolded in the comparison.
  generalize buildTree (count s.srcBytes) s.tree = T
  simp only [encodeBits_length hbytes, deriveCodes_get, List.length_append, pack_length]

/-- The code RAM written from a built tree, entry by entry (10_state.md R54, R55). -/
theorem commitCodes_get {T : Tree} (hT : T.Built) (s : State) (sym : Fin 256) :
    ((s.commitCodes (deriveCodes T.arena)).codeLen[sym]).toNat = (codeOf T.arena sym).length ∧
      ∀ k, ((s.commitCodes (deriveCodes T.arena)).codeBits[sym]).getLsbD k = (codeOf T.arena sym).getD k false := by
  obtain ⟨_, _, hlen⟩ := codeOf_spec hT sym
  refine ⟨by simpa [deriveCodes] using hlen.trans_lt (by decide : 255 < 256), fun k => ?_⟩
  have hbit : ((s.commitCodes (deriveCodes T.arena)).codeBits[sym]).getLsbD k =
      (decide (k < 256) && (codeOf T.arena sym).getD k false) := by
    rw [← getLsbD_ofNat_bitsValue]
    simp [deriveCodes]
  rw [hbit]
  by_cases hk : k < 256
  · rw [decide_eq_true hk, Bool.true_and]
  · rw [List.getD_eq_default _ _ (by omega), Bool.and_false]

/-- Settles O38: no check and no access of the run raises, and what it writes is the stream. -/
theorem encodeWritesStream : Obligations.EncodeWritesStream := by
  intro s F code bits out ht hsrc hapart hF hcode hbits hout ⟨hdst, hcap, hwrite⟩
  subst hF hcode hbits
  replace hout : out = s.stream := hout
  subst hout
  obtain ⟨m, hm, hheld, htouch⟩ := writeDst_ok hwrite
  have hrun : runOf .encode s = .ok (s.encoded m) := by
    rw [runOf_encode (encodeInput_ok ht hsrc hapart hdst), checkCapacity_ok hcap, hm]
    rfl
  refine ⟨m, (s.encoded m).tree, (s.encoded m).codeLen, (s.encoded m).codeBits,
    (exec_commits_of_vacant (buildTree_clear_vacant _ _) hrun).trans ?_, buildTree_clear_vacant _ _, hheld,
    htouch.outside, commitCodes_get (buildTree_spec _ _).1 s⟩
  rw [State.encoded, headerBytes_length]
  rfl

/-! ### Overflow of DST -/

/-- The bits of the codes of SRC, byte by byte. -/
theorem encodeBits_length_sum (data : List Byte) (code : Fin 256 → Code) :
    (encodeBits data code).length = (data.map (fun b => (code (symbolOf b)).length)).sum := List.length_flatMap

/-- Settles O43: both runs stop at their capacity check, from a vacant arena. -/
theorem codecOverflowReportsBytesNeeded : Obligations.CodecOverflowReportsBytesNeeded := by
  intro s hv hsrc ⟨hdst, _⟩ hapart
  refine ⟨fun F n hF hn hover => ?_, fun eB eS eI dl gap tail hfit hdl hbytes hover => ?_⟩
  · subst hF
    have hlen : n = s.stream.length := by rw [hn, stream_length, encodeBits_length_sum]; rfl
    subst hlen
    refine exec_raised_of_vacant (e := ⟨_, _, s.mem⟩) hv ?_
    rw [runOf_encode (encodeInput_ok hv.empty hsrc hapart hdst), checkCapacity_over hover, raise_bind]
    rfl
  · obtain ⟨hparse, _⟩ := stream_parts hsrc hfit hdl hbytes
    rw [← sat32_of_lt hdl]
    refine exec_raised_of_vacant (e := ⟨_, _, s.mem⟩) hv ?_
    simp only [runOf, runDecode, decodeInput, requireEmpty_ok hv.empty, checkRegions_ok hsrc.1 hdst hapart, hparse,
      checkCapacity_over hover, ok_bind, raise_bind]
    rfl

/-! ### The round trip -/

/-- What a successful ENCODE leaves at DST_ADDR and in RESULT_LEN (43_codec.md R244). -/
theorem encode_output {s t : State} (h : exec .encode s = .next t) (herr : t.err = false) :
    HoldsAt t.mem s.dstAddr.toNat s.stream ∧ t.resultLen.toNat = s.stream.length := by
  obtain ⟨u, hrun, _, rfl⟩ := exec_committed h herr
  obtain ⟨data, hinput, _⟩ := ok_of_bind hrun
  obtain ⟨_, _, rfl⟩ := encodeInput_pass hinput
  rw [runOf_encode hinput] at hrun
  obtain ⟨_, hcap, hrun⟩ := ok_of_bind hrun
  obtain ⟨m, hm, hrun⟩ := ok_of_bind hrun
  cases hrun
  exact ⟨writeDst_holds hm, toNat_ofNat_of_le (checkCapacity_pass hcap)⟩

/-- The bytes of SRC, each with the code ENCODE writes it with: the walks that DECODE finds. -/
def State.sourceWalks (s : State) : List (Code × Byte) := s.srcBytes.map (fun b => (s.sourceCode (symbolOf b), b))

theorem sourceWalks_symbols (s : State) : s.sourceWalks.map Prod.snd = s.srcBytes := by
  simp [State.sourceWalks, Function.comp_def]

theorem sourceWalks_bits (s : State) : s.sourceWalks.flatMap Prod.fst = encodeBits s.srcBytes s.sourceCode := by
  simp [State.sourceWalks, encodeBits, List.flatMap_map]

theorem sourceWalks_length (s : State) : s.sourceWalks.length = s.srcLen.toNat := by
  rw [State.sourceWalks, List.length_map, srcBytes_length]

/-- The code of a byte's symbol leads to the leaf of the byte. -/
theorem codeOf_leads {T : Tree} (hT : T.Built) (b : Byte) : Leads T.arena T.root (codeOf T.arena (symbolOf b)) b := by
  obtain ⟨hleads, _⟩ := codeOf_spec hT (symbolOf b)
  have hb : BitVec.ofNat 8 (symbolOf b).val = b := BitVec.eq_of_toNat_eq (by simp [symbolOf])
  rwa [hb] at hleads

/-- Every walk leads to its byte in any tree built from the counts of SRC, whatever the arena held before
(42_tree.md R208). -/
theorem sourceWalks_lead (s : State) (old : Tree) : ∀ f ∈ s.sourceWalks,
    Leads (buildTree (count s.srcBytes) old).arena (buildTree (count s.srcBytes) old).root f.1 f.2 := by
  intro f hf
  obtain ⟨b, _, rfl⟩ := List.mem_map.1 hf
  have hbuilt := (buildTree_spec (count s.srcBytes) old).1
  rw [State.sourceCode, buildTree_arena_eq _ s.tree old]
  generalize buildTree (count s.srcBytes) old = T at hbuilt ⊢
  exact codeOf_leads hbuilt b

/-- Packed bits, whatever stands after them, begin with the bits. -/
theorem prefix_unpack_pack_append (bits : List Bool) (tail : List Byte) : bits <+: unpack (pack bits ++ tail) := by
  rw [unpack, List.flatMap_append, ← unpack, unpack_pack, List.append_assoc]
  exact List.prefix_append _ _

/-- Settles O41: SRC holds a header that gives the counts back, and a body that starts with the codes of ENCODE's bytes
in a tree that depends on the counts alone. -/
theorem decodeInvertsEncode : Obligations.DecodeInvertsEncode := by
  intro s t u h herr hempty hsrc hapart hdst hlen hcopy
  obtain ⟨hheld, hres⟩ := encode_output h herr
  rw [hres] at hcopy
  obtain ⟨tail, hbytes⟩ := srcBytes_of_copied hheld (by rw [hlen, hres]) hcopy
  rw [State.stream, headerBytes, compress_eq] at hbytes
  rw [← sourceWalks_length] at hdst
  obtain ⟨m, tr, hexec, _, hout, _⟩ := decodeWritesData u _ _ _ []
    (pack (encodeBits s.srcBytes s.sourceCode) ++ tail) _ s.sourceWalks hempty hsrc hapart hdst
    (compress_fits (count s.srcBytes))
    (by simpa only [List.append_nil, List.append_assoc, sourceWalks_length] using hbytes) rfl
    (by rw [assigned_bucketEntries]; exact sourceWalks_lead s u.tree)
    (by rw [sourceWalks_bits]; exact prefix_unpack_pack_append _ _)
  refine ⟨_, hexec, rfl, ?_, fun i hi => ?_⟩
  · rw [completed_resultLen, sourceWalks_length, BitVec.ofNat_toNat, BitVec.setWidth_eq]
  · rw [sourceWalks_symbols] at hout
    have hi' : i < s.srcBytes.length := by rwa [srcBytes_length]
    exact (hout i hi').trans (srcBytes_holdsAt s i hi').symm

end Sys2Proof.Machine
end

section
/-! PROOFS. The family of exceptions: completion (60_exceptions.md R287, R288, R292), the errors a command reports (R284),
and the checks before a command's own work (R282, R283). -/

namespace Sys2Proof.Machine

/-! ### Completion -/

/-- What a completion leaves in the completion fields, and in the arena after ENCODE and DECODE (60_exceptions.md R287,
R292). -/
theorem complete_ends (codec : Bool) (code : ErrCode) (info : Word) (u : State) :
    let t := complete codec code info u
    t.irq = u.irqEn ∧ t.done = true ∧ t.phase = .idle ∧ t.donePending = true ∧ (t.err = true ↔ t.errCode ≠ .none) ∧
      (codec = true → code ≠ .state → t.tree.state = .empty ∧ ∀ n : NodeId, (t.tree.arena[n]).valid = false) := by
  refine ⟨by simp [State.irq], rfl, rfl, rfl, by simp, fun hc hn => ?_⟩
  have htree : (complete codec code info u).tree = u.tree.clear := by simp [hc, hn]
  rw [htree]
  exact ⟨rfl, fun n => by simp [Tree.clear]⟩

/-- Every command ends with a completion, which finds IRQ_EN as the command found it. -/
theorem exec_completes (i : Instr) (s : State) :
    ∃ code info u, exec i s = .next (complete (isCodec i) code info u) ∧ u.irqEn = s.irqEn := by
  rcases exec_cases i s with ⟨u, _, hc, hx⟩ | ⟨e, _, _, hx⟩
  · exact ⟨_, _, u, hx, by rw [hc.frame]⟩
  · exact ⟨_, _, _, hx, rfl⟩

/-- Settles O5, by what a completion leaves. -/
theorem everyCommandCompletes : Obligations.EveryCommandCompletes := by
  intro i s
  obtain ⟨code, info, u, hx, hu⟩ := exec_completes i s
  obtain ⟨hirq, hdone, hphase, hpending, herr, harena⟩ := complete_ends (isCodec i) code info u
  refine ⟨_, hx, hirq.trans hu, hdone, hphase, hpending, herr, fun hi hn => harena ?_ hn⟩
  rcases hi with rfl | rfl <;> rfl

/-! ### Failure -/

/-- A command that reports an error has raised it. -/
theorem exec_failed {i : Instr} {s t : State} (h : exec i s = .next t) (herr : t.err = true) :
    ∃ e, runOf i s = .error e ∧ RaiseSpec i s e ∧
      t = complete (isCodec i) e.code e.info { s with mem := e.mem } := by
  rcases exec_cases i s with ⟨u, _, _, hx⟩ | ⟨e, hr, he, hx⟩ <;> rw [hx] at h <;> cases h
  · cases herr
  · exact ⟨e, hr, he, rfl⟩

/-- Settles O6: a raise commits nothing, and the arena that ENCODE and DECODE clear was vacant. -/
theorem failedCommandKeepsRegisters : Obligations.FailedCommandKeepsRegisters := by
  intro i s t hI h herr
  obtain ⟨e, hr, _, rfl⟩ := exec_failed h herr
  rw [complete_raise hI.vacant hr]
  rfl

/-- Settles O7, by the errors that the parts of a run raise. -/
theorem commandsReportOnlyTheirErrors : Obligations.CommandsReportOnlyTheirErrors := by
  intro i s t h herr
  obtain ⟨e, _, he, rfl⟩ := exec_failed h herr
  exact he.code

/-! ### The checks before a command's own work -/

/-- The check of the command's precondition on engine state (60_exceptions.md R283). -/
def requireState : Instr → State → Except Raise Unit
  | .encode, s | .decode, s | .treeBuild, s => requireEmpty s
  | .codesDerive, s | .treeDestroy, s | .decodeOne, s | .bodyDecode, s => requireRooted s
  | .bodyEncode, s => requireCodes s
  | .bitsPack, _ | .bitsUnpack, _ | .freqBuild, _ | .freqCompress, _ => .ok ()
  | .freqDecompress, _ | .hdrWrite, _ | .hdrParse, _ => .ok ()

/-- The checks of the regions that the command uses (30_encoding.md R116, R117). -/
def checkUsed (i : Instr) (s : State) : Except Raise Unit :=
  match usesSrc i, usesDst i with
  | true, true => checkRegions s
  | true, false => checkSrc s
  | false, true => checkDst s
  | false, false => .ok ()

/-- The checks before a command's own work, in their order (60_exceptions.md R282 (2) to (5)). -/
def prologue (i : Instr) (s : State) : Except Raise Unit := do
  requireState i s
  checkUsed i s

/-- The precondition's check raises STATE with the information word of R283. -/
theorem requireState_eq (i : Instr) (s : State) :
    requireState i s = (stateError i s).elim (.ok ()) (s.raise .state) := by
  cases i
  case encode | decode | treeBuild => simp only [requireState, requireEmpty, stateError]; split <;> rfl
  case codesDerive | treeDestroy | decodeOne | bodyDecode =>
    simp only [requireState, requireRooted, stateError]; split <;> rfl
  case bodyEncode => simp only [requireState, requireCodes, stateError]; split <;> rfl
  all_goals rfl

theorem checkSrc_raise {s : State} (h : s.cfg.memSize < s.srcAddr.toNat + s.srcLen.toNat) :
    checkSrc s = s.raise .bounds 0#32 :=
  if_neg ((srcInRange_iff s).not.2 (Nat.not_le.2 h))

theorem checkDst_raise {s : State} (h : s.cfg.memSize < s.dstAddr.toNat + s.dstCap.toNat) :
    checkDst s = s.raise .bounds 1#32 :=
  if_neg ((dstInRange_iff s).not.2 (Nat.not_le.2 h))

/-- With the precondition met, the region checks raise what `prologueError` reports. -/
theorem checkUsed_raise {i : Instr} {s : State} {code : ErrCode} {info : Word} (hst : stateError i s = none)
    (h : prologueError i s = some (code, info)) : checkUsed i s = s.raise code info := by
  simp only [prologueError, hst] at h
  cases hsrc : usesSrc i <;> cases hdst : usesDst i <;>
    simp only [checkUsed, hsrc, hdst, Bool.false_eq_true, false_and, and_false, true_and, if_false] at h ⊢
  case false.false => cases h
  case false.true =>
    split_ifs at h with hd
    cases h
    exact checkDst_raise hd
  case true.false =>
    split_ifs at h with hs
    cases h
    exact checkSrc_raise hs
  case true.true =>
    rcases checkRegions_cases s with ⟨h1, h2, h3, _⟩ | ⟨h1, hx⟩ | ⟨h1, h2, hx⟩ | ⟨h1, h2, h3, hx⟩
    · rw [if_neg (Nat.not_lt.2 h1), if_neg (Nat.not_lt.2 h2), if_neg (not_not_intro h3)] at h
      cases h
    · rw [if_pos h1] at h
      cases h
      exact hx
    · rw [if_neg (Nat.not_lt.2 h1), if_pos h2] at h
      cases h
      exact hx
    · rw [if_neg (Nat.not_lt.2 h1), if_neg (Nat.not_lt.2 h2), if_pos h3] at h
      cases h
      exact hx

/-- The checks raise what `prologueError` reports. -/
theorem prologue_raise {i : Instr} {s : State} {code : ErrCode} {info : Word}
    (h : prologueError i s = some (code, info)) : prologue i s = s.raise code info := by
  rw [prologue, requireState_eq]
  cases hst : stateError i s with
  | some w =>
    simp only [prologueError, hst] at h
    cases h
    rfl
  | none => exact checkUsed_raise hst h

/-- A run whose first part is `x`: it raises what `x` raises. -/
def StartsWith {α β : Type} (x : Except Raise α) (r : Except Raise β) : Prop :=
  ∀ e, x = .error e → r = .error e

section
variable {α β γ : Type} {x : Except Raise α}

theorem StartsWith.ok (a : α) (r : Except Raise β) : StartsWith (.ok a) r := nofun

theorem StartsWith.bind (f : α → Except Raise β) : StartsWith x (x >>= f) := by
  rintro e rfl
  rfl

theorem StartsWith.left {r : Except Raise β} (h : StartsWith x r) (f : β → Except Raise γ) : StartsWith x (r >>= f) :=
  fun e he => by rw [h e he, error_bind]

theorem StartsWith.seq {g : α → Except Raise β} {k : α → Except Raise γ} (h : ∀ a, StartsWith (g a) (k a)) :
    StartsWith (x >>= g) (x >>= k) := by
  cases x with
  | ok a => exact h a
  | error e =>
    intro _ he
    cases he
    rfl

end

/-- Every command's run begins with its checks. -/
theorem runOf_startsWith (i : Instr) (s : State) : StartsWith (prologue i s) (runOf i s) := by
  cases i with
  | encode => exact (StartsWith.seq fun _ => .bind _).left _
  | decode => exact (StartsWith.seq fun _ => .bind _).left _
  | bitsPack => exact .bind (x := checkRegions s) _
  | bitsUnpack => exact .bind (x := checkRegions s) _
  | freqBuild => exact .bind (x := checkSrc s) _
  | freqCompress => exact .bind (x := checkDst s) _
  | freqDecompress => exact .bind (x := checkSrc s) _
  | hdrWrite => exact .bind (x := checkDst s) _
  | hdrParse => exact .bind (x := checkSrc s) _
  | treeBuild => exact .seq fun _ => .ok _ _
  | codesDerive => exact .seq fun _ => .ok _ _
  | treeDestroy => exact .seq fun _ => .ok _ _
  | decodeOne => exact .seq fun _ => .bind _
  | bodyEncode => exact .seq fun _ => .bind _
  | bodyDecode => exact .seq fun _ => .bind _

/-- Settles O8: the run begins with its checks, and raises what they raise. -/
theorem prologueErrorsInOrder : Obligations.PrologueErrorsInOrder := by
  intro i s code info hI h
  exact exec_raised hI (runOf_startsWith i s _ (prologue_raise h))

end Sys2Proof.Machine
end

section
/-! PROOFS. The family of reset and hazards: what a reset leaves (70_reset_and_hazards.md R320 to R322), who may touch
shared memory while a command runs (R330), and the capacities that always suffice (R335). -/

namespace Sys2Proof.Machine

/-! ### Reset -/

/-- Asserting `rst` resets the block, whatever the engine is doing (70_reset_and_hazards.md R320). -/
theorem step_rst {s : State} {rest : List HostOp} (h : s.agenda = .rst :: rest) :
    step s = .next (assertReset { s with agenda := rest }) := by
  simp only [step, h]

/-- The arena is vacant after reset (70_reset_and_hazards.md R320). -/
theorem reset_tree_vacant : State.reset.tree.Vacant :=
  ⟨rfl, rfl, fun i => by simp [State.reset, Tree.unbuilt, Node.unused]⟩

/-- FREQ after reset is 0 (70_reset_and_hazards.md R320). -/
theorem reset_freq_get (sym : Fin 256) : State.reset.freq[sym] = 0#32 := Vector.getElem_replicate sym.isLt

/-- Settles O59, field by field. -/
theorem resetStateMeetsInvariant : Obligations.ResetStateMeetsInvariant where
  memWf := ⟨.nil, nofun⟩
  memRange := nofun
  busyClear := nofun
  errExact := by simp [State.reset]
  infoClear := fun _ => rfl
  resultClear := fun _ => rfl
  tree := .inl reset_tree_vacant
  codes := nofun
  runsCommand := nofun
  noBuild := fun _ => rfl

/-- Settles O54: the reset values are those of `State.reset`, and the engine's turns of an idle machine keep them. -/
theorem resetValues : Obligations.ResetValues := by
  intro s rest ha
  obtain ⟨m, d, heq, hmem, _⟩ := assertReset_spec { s with agenda := rest }
  refine ⟨_, step_rst ha, ?_⟩
  rw [heq]
  refine ⟨rfl, rfl, rfl, rfl, rfl, rfl, rfl, rfl, rfl, rfl, rfl, rfl, rfl, rfl, rfl, rfl, rfl, rfl, rfl, rfl, rfl, rfl,
    rfl, reset_freq_get, reset_tree_vacant.valid, rfl, hmem, fun hr => ?_, fun more hr => ?_⟩
  · exact (step_of_agenda_nil hr).trans (engineTurn_idle rfl)
  · exact (step_of_agenda_engine hr).trans (engineTurn_idle rfl)

/-- Settles O55: a CTRL write does the same idle and busy, and with SOFT_RESET = 1 it is the reset. -/
theorem softResetIsReset : Obligations.SoftResetIsReset := by
  intro s v rest hv
  have hrst : step { s with agenda := .rst :: rest } = .next (assertReset { s with agenda := rest }) := step_rst rfl
  refine ⟨?_, _, hrst, ?_⟩
  · rw [hrst, step_portWrite rfl (by decide) (by decide), show portReg 0x008 = .ctrl from rfl, hostWriteReg_ctrl,
      writeCtrl, if_pos hv]
  · obtain ⟨m, d, heq, _⟩ := assertReset_spec { s with agenda := rest }
    rw [heq]
    exact ⟨rfl, reset_freq_get⟩

/-- A reset leaves no completion to be seen, neither in STATUS nor in IRQ_STATUS (70_reset_and_hazards.md R321). -/
theorem assertReset_no_completion (s : State) :
    (assertReset s).done = false ∧ (assertReset s).donePending = false ∧ (assertReset s).err = false := by
  obtain ⟨m, d, heq, _⟩ := assertReset_spec s
  rw [heq]
  exact ⟨rfl, rfl, rfl⟩

/-- What a reset during a command does to shared memory: nothing, or writes in the DST of a command that writes DST,
apart from its SRC (70_reset_and_hazards.md R321). -/
theorem assertReset_mem {s : State} {i : Instr} (hd : decodeWord s.curCmd = .ok i) :
    (assertReset s).mem = s.mem ∨
      (usesDst i = true ∧ (usesSrc i = true → s.disjoint) ∧
        Touches s.mem (assertReset s).mem s.dstAddr.toNat s.dstCap.toNat) := by
  obtain ⟨m, d, heq, _, hm⟩ := assertReset_spec s
  rw [heq]
  rcases hm with rfl | ⟨hw, rfl⟩
  · exact .inl rfl
  · obtain ⟨j, hj, hdst, _, hsrc⟩ := mayHaveWritten_spec hw
    cases hd.symm.trans hj
    refine .inr ⟨hdst, fun hu => ?_, Memory.havoc_touches ..⟩
    by_contra hoverlap
    exact absurd ((regionsOverlap_iff s).2 hoverlap) (by simp [hsrc hu])

/-- No byte of SRC lies in a DST apart from it (20_memory.md R90). -/
theorem inSrc_outside_dst {s : State} {a : Nat} (h : s.disjoint) (ha : s.inSrc a = true) :
    ¬ (s.dstAddr.toNat ≤ a ∧ a < s.dstAddr.toNat + s.dstCap.toNat) := by
  simp only [State.inSrc, Bool.and_eq_true, decide_eq_true_eq] at ha
  simp only [State.disjoint, ← BitVec.toNat_inj, BitVec.toNat_ofNat, Nat.zero_mod] at h
  omega

/-- Settles O56: the reset completes nothing, and touches at most the DST of the command. -/
theorem resetAbandonsTheCommand : Obligations.ResetAbandonsTheCommand := by
  intro s i rest hrun ha
  obtain ⟨hdone, hpending, herr⟩ := assertReset_no_completion { s with agenda := rest }
  refine ⟨_, step_rst ha, hdone, hpending, herr, ?_⟩
  rcases assertReset_mem (s := { s with agenda := rest }) hrun.decodes with hm | ⟨hdst, hapart, ht⟩
  · rw [hm]
    exact ⟨fun _ _ => rfl, fun _ => rfl, fun _ _ _ => rfl⟩
  · exact ⟨ht.outside, fun hu => by simp [hdst] at hu,
      fun hu a hsrc => ht.outside a (inSrc_outside_dst (hapart hu) hsrc)⟩

/-! ### Accesses of the host and other agents to shared memory -/

/-- A read of a byte of memory is refused where the byte is in use, and returns the byte elsewhere. -/
theorem step_memRead {s : State} {a : Nat} {rest : List HostOp} (ha : s.agenda = .memRead a :: rest)
    (h : a < s.cfg.memSize) (hd : s.cfg.devices = []) :
    step s = if s.regionInUse a then .refused (.regionInUse a)
      else .next { s with agenda := rest, busData := (s.mem.read a).setWidth 32 } := by
  simp only [step, ha]
  exact hostMemAccess_plain (s := { s with agenda := rest }) h hd _

/-- A write of a byte of memory is refused where the byte is in use, and stores the byte elsewhere. -/
theorem step_memWrite {s : State} {a : Nat} {v : Byte} {rest : List HostOp} (ha : s.agenda = .memWrite a v :: rest)
    (h : a < s.cfg.memSize) (hd : s.cfg.devices = []) :
    step s = if s.regionInUse a then .refused (.regionInUse a)
      else .next { s with agenda := rest, mem := s.mem.write a v } := by
  simp only [step, ha]
  exact hostMemAccess_plain (s := { s with agenda := rest }) h hd _

/-- Settles O53: a byte is refused exactly where it is in use, which is in a region that the running command uses. -/
theorem hostMemoryAccesses : Obligations.HostMemoryAccesses := by
  intro s a v rest hlt hdev
  refine ⟨fun i hrun hused ha => ?_, fun hcase => ?_⟩
  · have huse : s.regionInUse a = true := by
      rw [regionInUse_run hrun.1 hrun.decodes, State.usesByte]
      simpa using hused
    rcases ha with ha | ha
    · rw [step_memRead ha hlt hdev, if_pos huse]
    · rw [step_memWrite ha hlt hdev, if_pos huse]
  · have hfree : s.regionInUse a = false := by
      rcases hcase with hp | ⟨hsrc, hdst⟩ | ⟨i, hrun, hsrc, hdst⟩
      · exact regionInUse_idle hp a
      · exact regionInUse_outside hsrc hdst
      · rw [regionInUse_run hrun.1 hrun.decodes, State.usesByte]
        simp only [Bool.or_eq_false_iff, Bool.and_eq_false_iff]
        exact ⟨hsrc, hdst⟩
    refine ⟨fun ha => ?_, fun ha => ⟨s.mem.write a v, ?_, Memory.read_write_same .., ?_⟩⟩
    · rw [step_memRead ha hlt hdev, hfree, if_neg Bool.false_ne_true]
    · rw [step_memWrite ha hlt hdev, hfree, if_neg Bool.false_ne_true]
    · exact (Touches.write s.mem v (le_refl a) (Nat.lt_add_one a)).outside

/-! ### Capacities that suffice -/

/-- With codes of at most 255 bits, a packed body has at most 32 bytes for each byte it encodes
(70_reset_and_hazards.md R335). -/
theorem ceil8_encodeBits_le {data : List Byte} {code : Fin 256 → Code} (h : ∀ sym, (code sym).length ≤ 255) :
    ceil8 (encodeBits data code).length ≤ 32 * data.length := by
  have hsum : (encodeBits data code).length ≤ data.length * 255 := by
    rw [encodeBits_length_sum, ← List.length_map (f := fun b => (code (symbolOf b)).length), ← smul_eq_mul]
    exact List.sum_le_card_nsmul _ _ (by simpa using fun b _ => h (symbolOf b))
  unfold ceil8
  omega

/-- The codes of ENCODE have at most 255 bits (42_tree.md R205). -/
theorem sourceCode_length_le (s : State) (sym : Fin 256) : (s.sourceCode sym).length ≤ 255 :=
  (codeOf_spec (buildTree_spec _ _).1 sym).2.2

/-- The codes of the code RAM have at most 255 bits, whatever it holds (10_state.md R54). -/
theorem ramCode_length_le (s : State) (sym : Fin 256) : (s.ramCode sym).length ≤ 255 := by
  simpa [State.ramCode] using Nat.le_of_lt_succ s.codeLen[sym].isLt

/-- The stream ENCODE writes has at most 1300 bytes and 32 for each byte of SRC (70_reset_and_hazards.md R335). -/
theorem stream_length_le (s : State) : s.stream.length ≤ 1300 + 32 * s.srcLen.toNat := by
  have hbody := ceil8_encodeBits_le (data := s.srcBytes) (sourceCode_length_le s)
  have htable := (compress_bounds (count s.srcBytes)).2
  rw [srcBytes_length] at hbody
  rw [stream_length, headerBytes_length]
  omega

/-- A run that commits completes with ERR = 0 (60_exceptions.md R287). -/
theorem exec_succeeds {i : Instr} {s t : State} (h : runOf i s = .ok t) : ∃ u, exec i s = .next u ∧ u.err = false :=
  ⟨_, by rw [exec_eq, h, conclude_ok], rfl⟩

/-- Settles O39: the outputs are no longer than the bounds, so no check and no access of the runs raises. -/
theorem capacityBoundSuffices : Obligations.CapacityBoundSuffices := by
  intro s hsrc hapart ⟨hdst, _, hwrite⟩
  refine ⟨fun ht hcap => ?_, fun hcodes hcap => ?_⟩
  · have hlen : s.stream.length ≤ s.dstCap.toNat := (stream_length_le s).trans hcap
    obtain ⟨m, hm, _⟩ := writeDst_ok (hwrite.sub (le_refl _) (Nat.add_le_add_left hlen _))
    refine exec_succeeds (t := s.encoded m) ?_
    rw [runOf_encode (encodeInput_ok ht hsrc hapart hdst), checkCapacity_ok hlen, hm]
    rfl
  · have hlen : ceil8 (encodeBits s.srcBytes s.ramCode).length ≤ s.dstCap.toNat :=
      (ceil8_encodeBits_le (ramCode_length_le s)).trans (by rwa [srcBytes_length])
    obtain ⟨m, hexec, _⟩ := bodyEncodeWritesBody s _ hcodes hsrc hapart rfl
      ⟨hdst, hlen, hwrite.sub (le_refl _) (Nat.add_le_add_left hlen _)⟩
    exact ⟨_, hexec, rfl⟩

end Sys2Proof.Machine
end
